-- ==== Sys2Proof/Word.lean ====
section
/-!
DEFINITION. Words, bytes and opcodes: the widths of 00_scope.md R7 and R9.
-/

namespace Sys2Proof

/-- A register, an address or a unit of bus data: 32 bits (R7). -/
abbrev Word := BitVec 32

/-- One byte of a buffer (R9). -/
abbrev Byte := BitVec 8

/-- `CMD[7:0]`, the opcode `{UNIT, FN}` of a command (30_encoding.md R120). -/
abbrev Opcode := BitVec 8

/-- A set of chunk indices: index `i` is in the set iff bit `i` is 1 (R12). A mask of the block is below
`2 ^ K_MAX`; `K_MAX` is a build parameter, so the width is kept by an invariant and not by the type (log 19). -/
abbrev Mask := Nat

/-- `ceil(a / b)` of R10. -/
def ceilDiv (a b : Nat) : Nat := (a + b - 1) / b

end Sys2Proof
end

