-- ==== Sys2Proof/Config.lean ====
section
/-!
DEFINITION. What an implementation fixes (00_scope.md R6) and the values the spec leaves free
(20_memory.md R92, 93_implementation_defined.md U3 and U12).
-/

namespace Sys2Proof

/-- The two units of the block (R1, R30). -/
inductive UnitId where
  /-- The encoder unit. -/
  | enc
  /-- The decoder unit. -/
  | dec
deriving DecidableEq, Repr

/-- The build-time constants of R6. They are readable in the `CFG_*` registers (10_state.md R31). Their legal
ranges are `Params.wf`. -/
structure Params where
  /-- `S`, bytes per chunk and per payload. -/
  chunkSize : Nat
  /-- `K_MAX`, the maximum chunk count of a transfer. -/
  kMax : Nat
  /-- `N_PEND`, the slots of the Pending Droplet Set. -/
  nPend : Nat
  /-- `DEGTAB_LEN`, the entries of each stub degree table. -/
  degtabLen : Nat
deriving DecidableEq, Repr

/-- `MW = ceil(K_MAX / 32)`, the words of a mask (R6). -/
def Params.maskWords (p : Params) : Nat := ceilDiv p.kMax 32

/-- `SW = ceil(S / 4)`, the words of a payload (R6). -/
def Params.payloadWords (p : Params) : Nat := ceilDiv p.chunkSize 4

/-- The reference values that R6 names for the small vectors. DESIGN CHOICE (log 1): the build that
`State.reset` is a reset of. -/
def Params.reference : Params := { chunkSize := 4, kMax := 16, nPend := 4, degtabLen := 16 }

namespace Config

/-- FREE VALUE (R92 cases 2 to 6, U3; log 9). The word drawn for the `n`-th host read. No body: nothing is known of it. -/
opaque freeWord : Nat → Word

/-- FREE VALUE (R91, R93, U12; log 6). Which unit completes first when both are busy and no event is listed. -/
opaque freeUnit : Nat → Bool

end Config

end Sys2Proof
end

