-- ==== Sys2Proof/Syntax.lean ====
section
/-!
DEFINITION. The commands of the opcode map (30_encoding.md R121), one constructor per row of the table.
-/

namespace Sys2Proof

/-- A command of the block. A command word carries no register number and no immediate (R120, R123), so no
constructor has an argument: the operands are the latched `ARG0`–`ARG2` and unit state. -/
inductive Instr where
  /-- `ENC_RESET`, 0x01 (R201). -/
  | encReset
  /-- `ENC_CONFIG`, 0x02, ARG0 = L (R202). -/
  | encConfig
  /-- `ENC_SEED`, 0x03, ARG0 = starting seed (R203). -/
  | encSeed
  /-- `ENC_NEXT`, 0x04 (R204). -/
  | encNext
  /-- `ENC_DEGQ`, 0x05, ARG0 = seed, ARG1 = K (R158). -/
  | encDegq
  /-- `ENC_SELQ`, 0x06, ARG0 = seed, ARG1 = degree, ARG2 = K (R184). -/
  | encSelq
  /-- `DEC_RESET`, 0x11 (R248). -/
  | decReset
  /-- `DEC_INGEST`, 0x12 (R240). -/
  | decIngest
  /-- `DEC_RECON`, 0x13 (R250). -/
  | decRecon
  /-- `DEC_READ_OUT`, 0x14, ARG0 = word index (R251). -/
  | decReadOut
  /-- `DEC_READ_CHUNK`, 0x15, ARG0 = chunk index, ARG1 = word index (R252). -/
  | decReadChunk
  /-- `DEC_DEGQ`, 0x16, ARG0 = seed, ARG1 = K (R159). -/
  | decDegq
  /-- `DEC_READ_PEND`, 0x17, ARG0 = slot, ARG1 = word index (R253). -/
  | decReadPend
deriving DecidableEq, Repr

end Sys2Proof
end

