-- ==== Sys2Proof/WellFormed.lean ====
section
/-!
DEFINITION. Which build parameters are legal (00_scope.md R6) and which command words are well formed
(30_encoding.md R120, R121, R124). An `Instr` carries no operand, so every term of it is well formed; what can be
ill formed is the word a host writes to `CMD`, and the parameters of a build.
-/

namespace Sys2Proof

/-- The legal ranges of R6. -/
abbrev Params.wf (p : Params) : Prop :=
  (1 ≤ p.chunkSize ∧ p.chunkSize ≤ 4096) ∧
  (1 ≤ p.kMax ∧ p.kMax ≤ 65536) ∧
  p.kMax * p.chunkSize ≤ 2 ^ 24 ∧
  (1 ≤ p.nPend ∧ p.nPend ≤ 65536) ∧
  (1 ≤ p.degtabLen ∧ p.degtabLen ≤ 65536)

/-- `RSVD`, bits 31:8 of a command word, must be 0 (R120). -/
abbrev CmdWord.reservedZero (v : Word) : Prop := v.extractLsb' 8 24 = 0

/-- `UNIT`, bits 7:4, is 0 (ENC) or 1 (DEC); other values are illegal (R120). -/
abbrev CmdWord.unitLegal (v : Word) : Prop := v.extractLsb' 4 4 = 0 ∨ v.extractLsb' 4 4 = 1

/-- `FN`, bits 3:0, names a function of the unit: 1 to 6 of ENC, 1 to 7 of DEC (R121, R124). -/
abbrev CmdWord.functionLegal (v : Word) : Prop :=
  1 ≤ (v.extractLsb' 0 4).toNat ∧
  (v.extractLsb' 0 4).toNat ≤ (if v.extractLsb' 4 4 = 0 then 6 else 7)

/-- A legal command word, field by field (R120, R121, R124). -/
abbrev CmdWord.wf (v : Word) : Prop :=
  CmdWord.reservedZero v ∧ CmdWord.unitLegal v ∧ CmdWord.functionLegal v

/-- Every command is well formed: it has no operand to check (R123). -/
abbrev Instr.wf (_ : Instr) : Prop := True

end Sys2Proof
end

