-- ==== Sys2Proof/Decode.lean ====
section
/-!
DEFINITION. The command decoder, total on every 32-bit word and rejecting by name, and its encoder
(30_encoding.md R120, R121, R124).
-/

namespace Sys2Proof

/-- Why a word written to `CMD` is no command. Both raise `ILLEGAL_CMD` at the issue (R122, R124). -/
inductive DecodeError where
  /-- `CMD[31:8] ≠ 0`. -/
  | reservedBits
  /-- The opcode is not in the map of R121. -/
  | unknownOpcode
deriving DecidableEq, Repr

/-- The opcode map of R121. -/
def opcodeMap : List (Opcode × Instr) :=
  [(0x01, .encReset), (0x02, .encConfig), (0x03, .encSeed), (0x04, .encNext), (0x05, .encDegq), (0x06, .encSelq),
   (0x11, .decReset), (0x12, .decIngest), (0x13, .decRecon), (0x14, .decReadOut), (0x15, .decReadChunk),
   (0x16, .decDegq), (0x17, .decReadPend)]

/-- The command an opcode names (R121). -/
def decodeOpcode (opc : Opcode) : Option Instr := opcodeMap.lookup opc

/-- Decode of a command word: the tests of the issue step, in the order of R122. -/
def decode (v : Word) : Except DecodeError Instr :=
  if v.extractLsb' 8 24 ≠ 0 then .error .reservedBits
  else
    match decodeOpcode (v.extractLsb' 0 8) with
    | some i => .ok i
    | none => .error .unknownOpcode

/-- `OPC` of a command (R121). -/
def Instr.opcode : Instr → Opcode
  | .encReset => 0x01
  | .encConfig => 0x02
  | .encSeed => 0x03
  | .encNext => 0x04
  | .encDegq => 0x05
  | .encSelq => 0x06
  | .decReset => 0x11
  | .decIngest => 0x12
  | .decRecon => 0x13
  | .decReadOut => 0x14
  | .decReadChunk => 0x15
  | .decDegq => 0x16
  | .decReadPend => 0x17

/-- The unit that executes a command (R121). -/
def Instr.unit : Instr → UnitId
  | .encReset | .encConfig | .encSeed | .encNext | .encDegq | .encSelq => .enc
  | .decReset | .decIngest | .decRecon | .decReadOut | .decReadChunk | .decDegq | .decReadPend => .dec

/-- `UNIT`, bits 7:4 of a command word (R120). -/
def UnitId.code : UnitId → BitVec 4
  | .enc => 0
  | .dec => 1

/-- `FN`, bits 3:0 of a command word (R120, R121). -/
def Instr.function : Instr → BitVec 4
  | .encReset => 1
  | .encConfig => 2
  | .encSeed => 3
  | .encNext => 4
  | .encDegq => 5
  | .encSelq => 6
  | .decReset => 1
  | .decIngest => 2
  | .decRecon => 3
  | .decReadOut => 4
  | .decReadChunk => 5
  | .decDegq => 6
  | .decReadPend => 7

/-- The command word `{RSVD = 0, UNIT, FN}`, written from the format of R120. -/
def encode (i : Instr) : Word := (0 : BitVec 24) ++ i.unit.code ++ i.function

/-- Host interface: the instruction the decoder reads from the low `nbits` bits of `w`. Every command word is
exactly 32 bits (R125), so a value that does not fit 32 bits is no command. -/
def decodeTableWord (nbits w : Nat) : Option Instr :=
  if w % 2 ^ nbits < 2 ^ 32 then
    match decode (BitVec.ofNat 32 (w % 2 ^ nbits)) with
    | .ok i => some i
    | .error _ => none
  else none

end Sys2Proof
end

