-- ==== Sys2Proof/Machine/State.lean ====
section
/-!
DEFINITION. The machine's state as plain data (10_state.md R30–R68), the reasons a step can stop, power-on reset
(70_reset_and_hazards.md R340).
-/

namespace Sys2Proof.Machine

open Sys2Proof

/-- A RAM: the (address, value) pairs of its non-zero entries, addresses strictly rising. An unlisted address reads
0 (`Memory.read`). The canonical form is `Memory.wf`. `Memory 8` is a list of `Host.Cell`. -/
abbrev Memory (w : Nat) := List (Nat × BitVec w)

/-- `STATUS.ENC_PHASE`: 0, 1 or 2; the value 3 does not exist (R35, R43, U13). -/
inductive Phase where
  /-- No source buffer is established. -/
  | idle
  /-- A buffer length is set and the host is writing the buffer. -/
  | loading
  /-- The buffer is sealed and droplets can be produced. -/
  | running
deriving DecidableEq, Repr

/-- `DEG_MODE` of `ENC_MODE` and `DEC_MODE`: 0 ROBUST, 1 STUB (R39, R46, R150). -/
inductive DegMode where
  /-- The CDF table (R153). -/
  | robust
  /-- The stub table (R154). -/
  | stub
deriving DecidableEq, Repr

/-- The ten error codes of R300. Codes 0 and 11 to 255 are never raised, so they are not here. -/
inductive ErrCode where
  | illegalCmd
  | unitBusy
  | badState
  | badArg
  | malformedDroplet
  | inconsistentParams
  | degTableMismatch
  | pendingOverflow
  | reconstructBeforeComplete
  | chunkUnresolved
deriving DecidableEq, Repr

/-- The contents of `LAST_ERR` once an error has been raised (R37). -/
structure ErrRecord where
  /-- The opcode of the command that raised it, or 0 for a host access. -/
  src : Opcode
  code : ErrCode
deriving DecidableEq, Repr

/-- The contents of `DEC_OUTCOME` (R53): CODE, and SLOT where the code has one. Codes 7 to 15 do not exist (U13). -/
inductive IngestOutcome where
  | none
  | resolved
  | pending (slot : BitVec 16)
  | replaced (slot : BitVec 16)
  | discarded
  | rejected
  | dropped
deriving DecidableEq, Repr

/-- A unit's hidden latches (R55). -/
structure Latch where
  busy : Bool
  op : Opcode
  a0 : Word
  a1 : Word
  a2 : Word
deriving DecidableEq, Repr

/-- One slot of the Pending Droplet Set (R61). -/
structure Slot where
  valid : Bool
  mask : Mask
  pay : Memory 8
deriving DecidableEq, Repr

/-- The encoder unit: its registers (R39–R45), latches (R55) and RAMs (R56–R59, R62). -/
structure Encoder where
  latch : Latch
  phase : Phase
  /-- `STATUS.ENC_CLAMPED`. -/
  clamped : Bool
  /-- `ENC_MODE.DEG_MODE`. -/
  degMode : DegMode
  cdfK : Word
  /-- `ENC_L`. -/
  len : Word
  k : Word
  /-- `ENC_P`. -/
  pad : Word
  seedNext : Word
  outSeed : Word
  outK : Word
  outPad : Word
  outDeg : Word
  result : Word
  /-- `SRC`: chunk `i` is bytes `i·S … i·S + S − 1`. -/
  src : Memory 8
  outBuf : Memory 8
  /-- `ECDF`, entries 1 to K_MAX − 1. -/
  cdf : Memory 32
  /-- `EDEGTAB`. -/
  degTab : Memory 32
  /-- `EMASK`. -/
  mask : Mask
deriving DecidableEq, Repr

/-- The decoder unit: its registers (R46–R54), latches (R55) and RAMs (R58–R63). -/
structure Decoder where
  latch : Latch
  paramsSet : Bool
  /-- `STATUS.DEC_CLAMPED`. -/
  clamped : Bool
  /-- `DEC_MODE.DEG_MODE`. -/
  degMode : DegMode
  cdfK : Word
  k : Word
  /-- `DEC_P`. -/
  pad : Word
  resolved : Word
  pendCount : Word
  inSeed : Word
  inK : Word
  inPad : Word
  result : Word
  outcome : IngestOutcome
  newly : Word
  /-- `KNOWN`. -/
  known : Mask
  /-- `CHUNK`: chunk `i` is bytes `i·S … i·S + S − 1`. -/
  chunk : Memory 8
  /-- `PEND[0 … N_PEND − 1]`. -/
  pend : List Slot
  /-- `DMASK`. -/
  mask : Mask
  inBuf : Memory 8
  /-- `DCDF`, entries 1 to K_MAX − 1. -/
  cdf : Memory 32
  /-- `DDEGTAB`. -/
  degTab : Memory 32
deriving DecidableEq, Repr

/-- A host access, the transaction of R80: a 32-bit byte address and, for a write, 32 bits of data. -/
inductive Access where
  | read (addr : Word)
  | write (addr data : Word)
deriving DecidableEq, Repr

/-- What can come next (R304): a host access, or a unit's completion step. The model's own input (log 5). -/
inductive Event where
  | access (a : Access)
  | complete (u : UnitId)
deriving DecidableEq, Repr

/-- The state of the block, and the model's own inputs. -/
structure State where
  /-- The build's parameters, in the registers `CFG_*` (R6, R31). No step changes them. -/
  params : Params
  arg0 : Word
  arg1 : Word
  arg2 : Word
  /-- `ERR`: bit `n` is the sticky flag of error code `n` (R36). -/
  err : Word
  /-- `LAST_ERR`; `none` is "none since POR" (R37). -/
  lastErr : Option ErrRecord
  enc : Encoder
  dec : Decoder
  /-- The data the last host read returned (R80). -/
  rdata : Word
  /-- MODEL's own (log 5): what happens next, oldest first. -/
  events : List Event
  /-- MODEL's own (log 9): how many times a free value has been drawn, one per host read. -/
  draws : Nat
deriving DecidableEq, Repr

/-- Why the machine stops. -/
inductive Fault where
  /-- Raised by a completion step of a busy unit whose op latch holds no opcode of that unit. The issue step R122
  latches only opcodes of the map, so no state reached from a reset has it; the spec gives no effect for it. Safe. -/
  | latchUnreadable (u : UnitId)
deriving DecidableEq, Repr

/-- Why a step has no meaning. -/
inductive Refusal where
  /-- Raised by an arm of `exec` that has no meaning yet. No arm raises it now. Safe. -/
  | notModelled (mnemonic : String)
deriving DecidableEq, Repr

/-- What the spec leaves unspecified at power-on and lets a model draw (R68, U1, U2): the contents of the RAMs. -/
structure PorContents where
  src : Memory 8
  ecdf : Memory 32
  edegTab : Memory 32
  dcdf : Memory 32
  ddegTab : Memory 32
  inBuf : Memory 8
  chunk : Memory 8
  /-- `mask` and `pay` of slot `e`. -/
  slot : List (Mask × Memory 8)
deriving DecidableEq, Repr

/-- The latches at POR (R55). -/
def Latch.por : Latch := { busy := false, op := 0, a0 := 0, a1 := 0, a2 := 0 }

/-- The encoder at POR (R68). -/
def Encoder.por (d : PorContents) : Encoder where
  latch := Latch.por
  phase := .idle
  clamped := false
  degMode := .robust
  cdfK := 0
  len := 0
  k := 0
  pad := 0
  seedNext := 0
  outSeed := 0
  outK := 0
  outPad := 0
  outDeg := 0
  result := 0
  src := d.src
  outBuf := []
  cdf := d.ecdf
  degTab := d.edegTab
  mask := 0

/-- The decoder at POR (R68). -/
def Decoder.por (p : Params) (d : PorContents) : Decoder where
  latch := Latch.por
  paramsSet := false
  clamped := false
  degMode := .robust
  cdfK := 0
  k := 0
  pad := 0
  resolved := 0
  pendCount := 0
  inSeed := 0
  inK := 0
  inPad := 0
  result := 0
  outcome := .none
  newly := 0
  known := 0
  chunk := d.chunk
  pend := (List.range p.nPend).map fun e =>
    { valid := false, mask := (d.slot.getD e (0, [])).1, pay := (d.slot.getD e (0, [])).2 }
  mask := 0
  inBuf := d.inBuf
  cdf := d.dcdf
  degTab := d.ddegTab

/-- Power-on reset of a build `p`, with the contents `d` drawn for what R68 leaves unspecified (R340). -/
def State.por (p : Params) (d : PorContents) : State where
  params := p
  arg0 := 0
  arg1 := 0
  arg2 := 0
  err := 0
  lastErr := none
  enc := Encoder.por d
  dec := Decoder.por p d
  rdata := 0
  events := []
  draws := 0

/-- DESIGN CHOICE (log 2): the draw of `State.reset` lists nothing, so every unspecified entry reads 0. -/
def PorContents.zero : PorContents :=
  { src := [], ecdf := [], edegTab := [], dcdf := [], ddegTab := [], inBuf := [], chunk := [], slot := [] }

/-- The machine right after reset: the POR column of R68, for the reference build (log 1) and the zero draw (log 2). -/
def State.reset : State := State.por Params.reference PorContents.zero

end Sys2Proof.Machine
end

