-- ==== Sys2Proof/Machine/Flags.lean ====
section
/-!
DEFINITION. The flags and coded fields of the block (10_state.md R35–R37, R53, R66, 43_decoder.md R249): what is
derived and how each field reads.
-/

namespace Sys2Proof.Machine

open Sys2Proof

/-- The code of an error (R300). -/
def ErrCode.code : ErrCode → Nat
  | .illegalCmd => 1
  | .unitBusy => 2
  | .badState => 3
  | .badArg => 4
  | .malformedDroplet => 5
  | .inconsistentParams => 6
  | .degTableMismatch => 7
  | .pendingOverflow => 8
  | .reconstructBeforeComplete => 9
  | .chunkUnresolved => 10

/-- The error's bit in `ERR` (R36). -/
def ErrCode.bit (e : ErrCode) : Word := 1 <<< e.code

/-- The bits of `ERR` that exist: 1 to 10 (R36). -/
def errBits : Word := 0x7FE

/-- `STATUS.DEC_COMPLETE = DEC_PARAMS_SET ∧ DEC_RESOLVED = DEC_K` (R35, R249). -/
def Decoder.complete (d : Decoder) : Bool := d.paramsSet && d.resolved == d.k

/-- `STATUS.ERR_ANY = (ERR ≠ 0)` (R35). -/
def errAny (err : Word) : Bool := err != 0

/-- `CLAMPED`: the degree asked for exceeds `K` (R155, R183). -/
def isClamped (degree k : Nat) : Bool := decide (k < degree)

/-- `STATUS.ENC_PHASE` as it reads (R35). -/
def Phase.code : Phase → Nat
  | .idle => 0
  | .loading => 1
  | .running => 2

/-- `DEG_MODE` as it reads (R39, R46). -/
def DegMode.word : DegMode → Word
  | .robust => 0
  | .stub => 1

/-- `DEG_MODE` from the word a host writes: bit 0 only (R39, R46). -/
def DegMode.ofWord (v : Word) : DegMode := if v.getLsbD 0 then .stub else .robust

/-- A Boolean as a bit at position `i` of a word. -/
def flagAt (i : Nat) (b : Bool) : Word := if b then 1 <<< i else 0

/-- `LAST_ERR` as it reads: SRC in bits 15:8, CODE in bits 7:0 (R37). -/
def lastErrWord : Option ErrRecord → Word
  | none => 0
  | some r => (0 : BitVec 16) ++ r.src ++ BitVec.ofNat 8 r.code.code

/-- `DEC_OUTCOME` as it reads: SLOT in bits 31:16, CODE in bits 3:0 (R53). -/
def IngestOutcome.word : IngestOutcome → Word
  | .none => 0
  | .resolved => 1
  | .pending e => e ++ (2 : BitVec 16)
  | .replaced e => e ++ (3 : BitVec 16)
  | .discarded => 4
  | .rejected => 5
  | .dropped => 6

/-- The fields of `STATUS`, from bit 0 up (R35). -/
structure StatusFields where
  encBusy : Bool
  decBusy : Bool
  phase : Phase
  paramsSet : Bool
  complete : Bool
  encClamped : Bool
  decClamped : Bool
  errAny : Bool
deriving DecidableEq, Repr

/-- `STATUS` as it reads; bits 31:9 are 0 (R35). -/
def StatusFields.word (f : StatusFields) : Word :=
  flagAt 0 f.encBusy ||| flagAt 1 f.decBusy ||| (BitVec.ofNat 32 f.phase.code <<< 2) ||| flagAt 4 f.paramsSet |||
    flagAt 5 f.complete ||| flagAt 6 f.encClamped ||| flagAt 7 f.decClamped ||| flagAt 8 f.errAny

/-- The fields of `STATUS` in a state (R35). -/
def State.status (s : State) : StatusFields where
  encBusy := s.enc.latch.busy
  decBusy := s.dec.latch.busy
  phase := s.enc.phase
  paramsSet := s.dec.paramsSet
  complete := s.dec.complete
  encClamped := s.enc.clamped
  decClamped := s.dec.clamped
  errAny := errAny s.err

end Sys2Proof.Machine
end

