-- ==== Sys2Proof/Machine/Ops.lean ====
section
/-!
DEFINITION. The named operations every meaning is made of: RAMs (10_state.md R56–R63), masks (00_scope.md R12),
raising an error and acknowledging one (60_exceptions.md R301, R307), ending a command (20_memory.md R91) and the
two soft resets (70_reset_and_hazards.md R341, R342).
-/

namespace Sys2Proof.Machine

open Sys2Proof

/-! ### RAMs -/

/-- One entry of a RAM. An unlisted address reads 0 (DESIGN CHOICE, log 2, where the spec gives no contents). -/
def Memory.read {w : Nat} : Memory w → Nat → BitVec w
  | [], _ => 0
  | (k, v) :: m, a => if k = a then v else Memory.read m a

/-- Writing one entry keeps the canonical form: a zero is not listed. -/
def Memory.write {w : Nat} : Memory w → Nat → BitVec w → Memory w
  | [], a, v => if v = 0 then [] else [(a, v)]
  | (k, x) :: m, a, v =>
    if a < k then (if v = 0 then (k, x) :: m else (a, v) :: (k, x) :: m)
    else if a = k then (if v = 0 then m else (a, v) :: m)
    else (k, x) :: Memory.write m a v

/-- The canonical form: addresses strictly rising, no entry equal to what an unlisted address reads as. -/
abbrev Memory.wf {w : Nat} (m : Memory w) : Prop :=
  m.Pairwise (fun c d => c.1 < d.1) ∧ ∀ c ∈ m, c.2 ≠ 0

/-- The RAM whose entries `0 … n − 1` are given by `f`, and whose other entries are 0. -/
def Memory.fill {w : Nat} (n : Nat) (f : Nat → BitVec w) : Memory w :=
  ((List.range n).map fun a => (a, f a)).filter fun c => c.2 != 0

/-- Writing the `n` entries from `base` on. -/
def Memory.writeBlock {w : Nat} (m : Memory w) (base n : Nat) (f : Nat → BitVec w) : Memory w :=
  (List.range n).foldl (fun m b => m.write (base + b) (f b)) m

/-- The `S`-byte XOR of two payloads (R10). -/
def xorBytes (n : Nat) (p q : Memory 8) : Memory 8 := Memory.fill n fun b => p.read b ^^^ q.read b

/-- Byte `b` of chunk `i` in a chunk RAM (R56, R60). -/
def chunkByte (p : Params) (m : Memory 8) (i b : Nat) : Byte := m.read (i * p.chunkSize + b)

/-- Chunk `i` of a chunk RAM, as a payload of S bytes. -/
def chunkOf (p : Params) (m : Memory 8) (i : Nat) : Memory 8 := Memory.fill p.chunkSize (chunkByte p m i)

/-- `CHUNK[i] <- v` (R246). -/
def setChunk (p : Params) (m : Memory 8) (i : Nat) (v : Memory 8) : Memory 8 :=
  m.writeBlock (i * p.chunkSize) p.chunkSize v.read

/-! ### Masks -/

/-- `popcount` of a mask of `n` bits (R10). -/
def popcount (n : Nat) (m : Mask) : Nat := (List.range n).countP fun i => m.testBit i

/-- The least index in a mask of `n` bits; "the one index" of a mask of one bit (R240, R246). -/
def firstIndex (n : Nat) (m : Mask) : Nat := ((List.range n).find? fun i => m.testBit i).getD 0

/-- Setting bit `i`. -/
def Mask.insert (m : Mask) (i : Nat) : Mask := m ||| 2 ^ i

/-- Clearing every bit that is set in `k` (R243). -/
def Mask.without (m k : Mask) : Mask := m ^^^ (m &&& k)

/-- Clearing bit `i` (R246). -/
def Mask.clear (m : Mask) (i : Nat) : Mask := Mask.without m (2 ^ i)

/-! ### Errors -/

/-- TAKING AN ERROR: `raise E(src = x)`, steps 1 and 2 of R301. There is no vector, no saved program counter and no mode
to change (R306). Ending the command (step 3) is `State.finish`. -/
def State.raise (e : ErrCode) (src : Opcode) (s : State) : State :=
  { s with err := s.err ||| e.bit, lastErr := some { src := src, code := e } }

/-- The return from an error does not exist; the host acknowledges by writing 1s to `ERR` (R36, R307). Bits 0 and 31:11
ignore the write, and `LAST_ERR` keeps its value. -/
def State.ackErr (v : Word) (s : State) : State := { s with err := s.err &&& ~~~(v &&& errBits) }

/-! ### Ending a command -/

/-- A latch with its busy flag at 0. Only the busy flag is written (R55). -/
def Latch.idle (l : Latch) : Latch := { l with busy := false }

/-- The end of a completion step: the unit's busy flag goes to 0 (R91). -/
def State.finish : UnitId → State → State
  | .enc, s => { s with enc := { s.enc with latch := s.enc.latch.idle } }
  | .dec, s => { s with dec := { s.dec with latch := s.dec.latch.idle } }

/-- A command that ends at an error (R301): the error is recorded, none of its effects happen, the unit is free. -/
def State.fail (u : UnitId) (e : ErrCode) (opc : Opcode) (s : State) : State := (s.raise e opc).finish u

/-- The shape every command shares: the first failing check ends it (R303), otherwise its effect happens; in both
cases the unit's busy flag becomes 0 in this same step (R91, R301). -/
def State.complete (s : State) (u : UnitId) (opc : Opcode) (check : Option ErrCode) (effect : State) : State :=
  match check with
  | some e => s.fail u e opc
  | none => effect.finish u

/-! ### Soft resets -/

/-- The encoder soft reset of R341. `SRC` is unspecified afterwards and reads 0 in IDLE; the model keeps its stale
contents (DESIGN CHOICE, log 4). -/
def Encoder.softReset (e : Encoder) : Encoder :=
  { e with
    latch := e.latch.idle, phase := .idle, clamped := false, len := 0, k := 0, pad := 0, seedNext := 0,
    outSeed := 0, outK := 0, outPad := 0, outDeg := 0, result := 0, outBuf := [], mask := 0 }

/-- The decoder soft reset of R342. `CHUNK`, `PEND.mask` and `PEND.pay` become unobservable; the model keeps their stale
contents, which U2 allows (DESIGN CHOICE, log 3). -/
def Decoder.softReset (d : Decoder) : Decoder :=
  { d with
    latch := d.latch.idle, paramsSet := false, clamped := false, k := 0, pad := 0, resolved := 0, pendCount := 0,
    result := 0, outcome := .none, newly := 0, known := 0,
    pend := d.pend.map fun sl => { sl with valid := false }, mask := 0 }

/-- R341 as an operation of the block: it touches nothing but the encoder. -/
def State.encSoftReset (s : State) : State := { s with enc := s.enc.softReset }

/-- R342 as an operation of the block: it touches nothing but the decoder. -/
def State.decSoftReset (s : State) : State := { s with dec := s.dec.softReset }

end Sys2Proof.Machine
end

