-- ==== Sys2Proof/Machine/Operands.lean ====
section
/-!
DEFINITION. The operand forms: a command's latched operands (30_encoding.md R122, R123) and the words of byte, mask
and table windows (20_memory.md R82, R88).
-/

namespace Sys2Proof.Machine

open Sys2Proof

/-- The latches a command of unit `u` is issued with: its opcode, the copies of `ARG0`–`ARG2`, busy 1 (R122). -/
def State.issueLatch (s : State) (opc : Opcode) : Latch :=
  { busy := true, op := opc, a0 := s.arg0, a1 := s.arg1, a2 := s.arg2 }

/-- A unit's latches (R55). -/
def State.latchOf (s : State) : UnitId → Latch
  | .enc => s.enc.latch
  | .dec => s.dec.latch

/-- Setting a unit's latches. -/
def State.setLatch (s : State) : UnitId → Latch → State
  | .enc, l => { s with enc := { s.enc with latch := l } }
  | .dec, l => { s with dec := { s.dec with latch := l } }

/-- Byte `b` of a word (R9). -/
def wordByte (v : Word) (b : Nat) : Byte := v.extractLsb' (8 * b) 8

/-- Word `w` of a byte buffer: byte `4w + b` in bits `8b+7 : 8b` (R82). -/
def packWord (f : Nat → Byte) (w : Nat) : Word :=
  f (4 * w + 3) ++ f (4 * w + 2) ++ f (4 * w + 1) ++ f (4 * w)

/-- A buffer of `n` bytes: positions at or beyond `n` read 0 (R82). -/
def limitBytes (n : Nat) (f : Nat → Byte) (o : Nat) : Byte := if o < n then f o else 0

/-- Word `w` of a byte RAM of `n` bytes (R82). -/
def bufferWord (n : Nat) (m : Memory 8) (w : Nat) : Word := packWord (limitBytes n m.read) w

/-- Writing word `w` of a byte RAM: byte positions at or beyond `n` are left unchanged (R82, R83, R89). -/
def writeBufferWord (n : Nat) (m : Memory 8) (w : Nat) (v : Word) : Memory 8 :=
  (List.range 4).foldl (fun m b => if 4 * w + b < n then m.write (4 * w + b) (wordByte v b) else m) m

/-- Word `w` of a mask of `n` bits: bit `b` is index `32w + b`, and indices at or beyond `n` read 0 (R12, R88). -/
def maskWord (n : Nat) (m : Mask) (w : Nat) : Word := BitVec.ofNat 32 ((m % 2 ^ n) >>> (32 * w))

end Sys2Proof.Machine
end

