-- ==== Sys2Proof/Machine/Selector.lean ====
section
/-!
DEFINITION. The generator and the Chunk Selector (41_chunk_selector.md R180–R185), and the command `ENC_SELQ`.
-/

namespace Sys2Proof.Machine

open Sys2Proof

/-- The 32-bit finaliser of R180; every operation is modulo 2^32. -/
def fmix32 (x : Word) : Word :=
  let x := x ^^^ (x >>> 16)
  let x := x * 0x85EBCA6B
  let x := x ^^^ (x >>> 13)
  let x := x * 0xC2B2AE35
  x ^^^ (x >>> 16)

/-- `rng_init(seed)`: the generator's state, never 0 (R180). -/
def rngInit (seed : Word) : Word := if fmix32 seed = 0 then 0x6D2B79F5 else fmix32 seed

/-- `rng_next()`: the next state, which is also the draw (R180). -/
def rngNext (s : Word) : Word :=
  let s := s ^^^ (s <<< 13)
  let s := s ^^^ (s >>> 17)
  s ^^^ (s <<< 5)

/-- `mulhi32(r, n)` (R10): the range reduction of R182. -/
def mulhi32 (r : Word) (n : Nat) : Nat := r.toNat * n / 2 ^ 32

/-- Exchanging two entries of the scratch array. -/
def swap (a : List Nat) (i j : Nat) : List Nat := (a.set i (a.getD j 0)).set j (a.getD i 0)

/-- The loop of R182 from index `i` on, for `n` more selections; `s` is the generator's state. -/
def shuffle (k : Nat) : Nat → Nat → Word → List Nat → List Nat
  | 0, _, _, a => a
  | n + 1, i, s, a => shuffle k n (i + 1) (rngNext s) (swap a i (i + mulhi32 (rngNext s) (k - i)))

/-- The mask of a list of indices. -/
def maskOf (l : List Nat) : Mask := l.foldl Mask.insert 0

/-- `FY(deg, K)` of R182, continuing the generator stream from state `s`. -/
def fisherYates (deg k : Nat) (s : Word) : Mask := maskOf ((shuffle k deg 0 s (List.range k)).take deg)

/-- What the degree function and the selector return. -/
structure Selection where
  deg : Nat
  clamped : Bool
  mask : Mask
deriving DecidableEq, Repr

/-- `select(seed, degree, K)` of R183: draw 0 is discarded, the degree is clamped to `K`. -/
def select (seed : Word) (degree k : Nat) : Selection where
  deg := min degree k
  clamped := isClamped degree k
  mask := fisherYates (min degree k) k (rngNext (rngInit seed))

/-- `K == 0 or K >u K_MAX`, the range check of a chunk count (R158, R184, R241). -/
def badChunkCount (p : Params) (k : Word) : Bool := k == 0 || decide (p.kMax < k.toNat)

/-- Recording a selection in the encoder's result registers (R158, R184). -/
def Encoder.recordSelection (e : Encoder) (r : Selection) : Encoder :=
  { e with result := BitVec.ofNat 32 r.deg, mask := r.mask, clamped := r.clamped }

/-- The check of `ENC_SELQ` (R184). -/
def encSelqCheck (s : State) : Option ErrCode :=
  if badChunkCount s.params s.enc.latch.a2 then some .badArg else none

/-- The effect of `ENC_SELQ` (R184). -/
def encSelqEffect (s : State) : State :=
  { s with enc := s.enc.recordSelection (select s.enc.latch.a0 s.enc.latch.a1.toNat s.enc.latch.a2.toNat) }

/-- `ENC_SELQ` (R184). -/
def execEncSelq (s : State) : Host.Outcome State Fault Refusal :=
  .next (s.complete .enc Instr.encSelq.opcode (encSelqCheck s) (encSelqEffect s))

end Sys2Proof.Machine
end

