-- ==== Sys2Proof/Machine/Sampler.lean ====
section
/-!
DEFINITION. The Degree Sampler (40_degree_sampler.md R150–R159) and the commands `ENC_DEGQ` and `DEC_DEGQ`.
-/

namespace Sys2Proof.Machine

open Sys2Proof

/-- The ROBUST lookup of R153: the least `d` in `1 … K−1` with `u <u T[d]`, and `K` if there is none. -/
def robust (u : Word) (k : Nat) (t : Memory 32) : Nat :=
  ((List.range' 1 (k - 1)).find? fun d => decide (u < t.read d)).getD k

/-- The STUB lookup of R154. -/
def stub (p : Params) (seed : Word) (g : Memory 32) : Nat := (g.read (seed.toNat % p.degtabLen)).toNat

/-- A unit's degree configuration: its mode and its two tables (R155, R206). -/
structure DegConfig where
  mode : DegMode
  cdf : Memory 32
  degTab : Memory 32
deriving DecidableEq, Repr

/-- The encoder's degree configuration. -/
def Encoder.degConfig (e : Encoder) : DegConfig := { mode := e.degMode, cdf := e.cdf, degTab := e.degTab }

/-- The decoder's degree configuration. -/
def Decoder.degConfig (d : Decoder) : DegConfig := { mode := d.degMode, cdf := d.cdf, degTab := d.degTab }

/-- The raw degree of R155, before the clamp; `u` is draw 0. -/
def rawDegree (p : Params) (c : DegConfig) (seed u : Word) (k : Nat) : Nat :=
  match c.mode with
  | .robust => robust u k c.cdf
  | .stub => stub p seed c.degTab

/-- The degree function `DF(unit, seed, K)` of R155. Draw 0 is consumed in both modes. -/
def degreeFunction (p : Params) (c : DegConfig) (seed : Word) (k : Nat) : Selection :=
  let u := rngNext (rngInit seed)
  let raw := rawDegree p c seed u k
  { deg := min raw k, clamped := isClamped raw k, mask := fisherYates (min raw k) k u }

/-- The table-validity check of R156: ROBUST mode and `CDF_K ≠ K`. -/
def degTableMismatch (mode : DegMode) (cdfK k : Word) : Bool := mode == .robust && cdfK != k

/-- The checks of a degree query, in the order of R158 and R303. -/
def degqCheck (p : Params) (mode : DegMode) (cdfK k : Word) : Option ErrCode :=
  if badChunkCount p k then some .badArg
  else if degTableMismatch mode cdfK k then some .degTableMismatch
  else none

/-- The checks of `ENC_DEGQ` (R158). -/
def encDegqCheck (s : State) : Option ErrCode := degqCheck s.params s.enc.degMode s.enc.cdfK s.enc.latch.a1

/-- The effect of `ENC_DEGQ` (R158). -/
def encDegqEffect (s : State) : State :=
  { s with
    enc := s.enc.recordSelection (degreeFunction s.params s.enc.degConfig s.enc.latch.a0 s.enc.latch.a1.toNat) }

/-- `ENC_DEGQ` (R158). -/
def execEncDegq (s : State) : Host.Outcome State Fault Refusal :=
  .next (s.complete .enc Instr.encDegq.opcode (encDegqCheck s) (encDegqEffect s))

/-- Recording a selection in the decoder's result registers (R159). -/
def Decoder.recordSelection (d : Decoder) (r : Selection) : Decoder :=
  { d with result := BitVec.ofNat 32 r.deg, mask := r.mask, clamped := r.clamped }

/-- The checks of `DEC_DEGQ` (R159). -/
def decDegqCheck (s : State) : Option ErrCode := degqCheck s.params s.dec.degMode s.dec.cdfK s.dec.latch.a1

/-- The effect of `DEC_DEGQ` (R159). -/
def decDegqEffect (s : State) : State :=
  { s with
    dec := s.dec.recordSelection (degreeFunction s.params s.dec.degConfig s.dec.latch.a0 s.dec.latch.a1.toNat) }

/-- `DEC_DEGQ` (R159). -/
def execDecDegq (s : State) : Host.Outcome State Fault Refusal :=
  .next (s.complete .dec Instr.decDegq.opcode (decDegqCheck s) (decDegqEffect s))

end Sys2Proof.Machine
end

