-- ==== Sys2Proof/Machine/Encoder.lean ====
section
/-!
DEFINITION. The encoder (42_encoder.md R200–R208): `ENC_RESET`, `ENC_CONFIG`, `ENC_SEED`, `ENC_NEXT` and the XOR
combiner.
-/

namespace Sys2Proof.Machine

open Sys2Proof

/-- `ENC_RESET` (R201): the encoder soft reset. It has no error at completion. -/
def execEncReset (s : State) : Host.Outcome State Fault Refusal := .next s.encSoftReset

/-- The checks of `ENC_CONFIG`, in the order of R202. -/
def encConfigCheck (s : State) : Option ErrCode :=
  if s.enc.phase ≠ .idle then some .badState
  else if s.enc.latch.a0 = 0 ∨ s.params.kMax * s.params.chunkSize < s.enc.latch.a0.toNat then some .badArg
  else none

/-- The effect of `ENC_CONFIG` (R202): `K = ceil(L / S)`, `P = K·S − L`, every byte of `SRC` zero, phase LOADING. -/
def encConfigEffect (s : State) : State :=
  let len := s.enc.latch.a0
  let k := ceilDiv len.toNat s.params.chunkSize
  { s with
    enc := { s.enc with
      src := [], len := len, k := BitVec.ofNat 32 k, pad := BitVec.ofNat 32 (k * s.params.chunkSize - len.toNat),
      phase := .loading } }

/-- `ENC_CONFIG` (R202). -/
def execEncConfig (s : State) : Host.Outcome State Fault Refusal :=
  .next (s.complete .enc Instr.encConfig.opcode (encConfigCheck s) (encConfigEffect s))

/-- The check of `ENC_SEED` (R203). -/
def encSeedCheck (s : State) : Option ErrCode := if s.enc.phase = .idle then some .badState else none

/-- The effect of `ENC_SEED` (R203): the seed source is set and the buffer sealed. -/
def encSeedEffect (s : State) : State :=
  { s with enc := { s.enc with seedNext := s.enc.latch.a0, phase := .running } }

/-- `ENC_SEED` (R203). -/
def execEncSeed (s : State) : Host.Outcome State Fault Refusal :=
  .next (s.complete .enc Instr.encSeed.opcode (encSeedCheck s) (encSeedEffect s))

/-- Byte `b` of `XORC(mask)` (R205). -/
def xorcByte (p : Params) (src : Memory 8) (mask : Mask) (b : Nat) : Byte :=
  (List.range p.kMax).foldl (fun x i => if mask.testBit i then x ^^^ chunkByte p src i b else x) 0

/-- `XORC(mask)`, S bytes (R205). -/
def xorc (p : Params) (src : Memory 8) (mask : Mask) : Memory 8 := Memory.fill p.chunkSize (xorcByte p src mask)

/-- The checks of `ENC_NEXT`, in the order of R204. -/
def encNextCheck (s : State) : Option ErrCode :=
  if s.enc.phase ≠ .running then some .badState
  else if degTableMismatch s.enc.degMode s.enc.cdfK s.enc.k then some .degTableMismatch
  else none

/-- The effect of `ENC_NEXT` (R204). -/
def encNextEffect (s : State) : State :=
  let e := s.enc
  let r := degreeFunction s.params e.degConfig e.seedNext e.k.toNat
  { s with
    enc := { e with
      outBuf := xorc s.params e.src r.mask,
      outSeed := e.seedNext, outK := e.k, outPad := e.pad, outDeg := BitVec.ofNat 32 r.deg,
      mask := r.mask, clamped := r.clamped, seedNext := e.seedNext + 1 } }

/-- `ENC_NEXT` (R204). -/
def execEncNext (s : State) : Host.Outcome State Fault Refusal :=
  .next (s.complete .enc Instr.encNext.opcode (encNextCheck s) (encNextEffect s))

end Sys2Proof.Machine
end

