-- ==== Sys2Proof/Machine/Port.lean ====
section
/-!
DEFINITION. The host port: the register map (10_state.md R67), the address map (20_memory.md R81–R89), what each
location holds when no unit is busy with it, the issue step (30_encoding.md R122) and the host's writes.
-/

namespace Sys2Proof.Machine

open Sys2Proof

/-- The registers of R67. -/
inductive Reg where
  | id | cfgS | cfgKmax | cfgNpend | cfgDegtabLen
  | cmd | arg0 | arg1 | arg2 | status | err | lastErr | ctrl
  | encMode | encCdfK | encL | encK | encP | encSeedNext | outSeed | outK | outP | outDeg | encResult
  | decMode | decCdfK | decK | decP | decResolved | decPendCount | inSeed | inK | inP | decResult | decOutcome
  | decNewly
deriving DecidableEq, Repr

/-- The register map of R67: byte offset and register. -/
def registerMap : List (Nat × Reg) :=
  [(0x000, .id), (0x004, .cfgS), (0x008, .cfgKmax), (0x00C, .cfgNpend), (0x010, .cfgDegtabLen),
   (0x020, .cmd), (0x024, .arg0), (0x028, .arg1), (0x02C, .arg2), (0x030, .status), (0x034, .err),
   (0x038, .lastErr), (0x03C, .ctrl)] ++
  [(0x100, .encMode), (0x104, .encCdfK), (0x108, .encL), (0x10C, .encK), (0x110, .encP), (0x114, .encSeedNext),
   (0x118, .outSeed), (0x11C, .outK), (0x120, .outP), (0x124, .outDeg), (0x128, .encResult)] ++
  [(0x200, .decMode), (0x204, .decCdfK), (0x208, .decK), (0x20C, .decP), (0x210, .decResolved),
   (0x214, .decPendCount), (0x218, .inSeed), (0x21C, .inK), (0x220, .inP), (0x224, .decResult),
   (0x228, .decOutcome), (0x22C, .decNewly)]

/-- What an address names: a register, word `w` of a window, or nothing (R81, R86). -/
inductive Loc where
  | reg (r : Reg)
  | src (w : Nat)
  | out (w : Nat)
  | ecdf (d : Nat)
  | edeg (i : Nat)
  | emask (w : Nat)
  | inBuf (w : Nat)
  | dcdf (d : Nat)
  | ddeg (i : Nat)
  | dmask (w : Nat)
  | known (w : Nat)
  | unmapped
deriving DecidableEq, Repr

/-- A word of a window of `n` words; at or beyond its size it is unmapped (R81, R86). -/
def windowLoc (n : Nat) (l : Nat → Loc) (w : Nat) : Loc := if w < n then l w else .unmapped

/-- `addr[31:24]`, the region (R81). -/
def regionOf (a : Word) : Nat := (a.extractLsb' 24 8).toNat

/-- `addr[23:2]`, the word index; `addr[1:0]` is ignored (R87, R130). -/
def wordIndexOf (a : Word) : Nat := (a.extractLsb' 2 22).toNat

/-- The register at word `w` of region 0 (R67); other offsets are unmapped (R86). -/
def registerLoc (w : Nat) : Loc :=
  match registerMap.lookup (4 * w) with
  | some r => .reg r
  | none => .unmapped

/-- The address map of R81. -/
def locOf (p : Params) (a : Word) : Loc :=
  let w := wordIndexOf a
  match regionOf a with
  | 0x00 => registerLoc w
  | 0x01 => windowLoc (ceilDiv (p.kMax * p.chunkSize) 4) .src w
  | 0x02 => windowLoc p.payloadWords .out w
  | 0x03 => windowLoc p.kMax .ecdf w
  | 0x04 => windowLoc p.degtabLen .edeg w
  | 0x05 => windowLoc p.maskWords .emask w
  | 0x08 => windowLoc p.payloadWords .inBuf w
  | 0x09 => windowLoc p.kMax .dcdf w
  | 0x0A => windowLoc p.degtabLen .ddeg w
  | 0x0B => windowLoc p.maskWords .dmask w
  | 0x0C => windowLoc p.maskWords .known w
  | _ => .unmapped

/-- The address of `CMD` (R67). -/
def cmdAddr : Word := 0x00000020

/-! ### Reads -/

/-- The value a register holds (R31–R54). A write-only register reads 0 (R67). -/
def readReg (s : State) : Reg → Word
  | .id => 0x464E5437
  | .cfgS => BitVec.ofNat 32 s.params.chunkSize
  | .cfgKmax => BitVec.ofNat 32 s.params.kMax
  | .cfgNpend => BitVec.ofNat 32 s.params.nPend
  | .cfgDegtabLen => BitVec.ofNat 32 s.params.degtabLen
  | .cmd => 0
  | .arg0 => s.arg0
  | .arg1 => s.arg1
  | .arg2 => s.arg2
  | .status => s.status.word
  | .err => s.err
  | .lastErr => lastErrWord s.lastErr
  | .ctrl => 0
  | .encMode => s.enc.degMode.word
  | .encCdfK => s.enc.cdfK
  | .encL => s.enc.len
  | .encK => s.enc.k
  | .encP => s.enc.pad
  | .encSeedNext => s.enc.seedNext
  | .outSeed => s.enc.outSeed
  | .outK => s.enc.outK
  | .outP => s.enc.outPad
  | .outDeg => s.enc.outDeg
  | .encResult => s.enc.result
  | .decMode => s.dec.degMode.word
  | .decCdfK => s.dec.cdfK
  | .decK => s.dec.k
  | .decP => s.dec.pad
  | .decResolved => s.dec.resolved
  | .decPendCount => s.dec.pendCount
  | .inSeed => s.dec.inSeed
  | .inK => s.dec.inK
  | .inP => s.dec.inPad
  | .decResult => s.dec.result
  | .decOutcome => s.dec.outcome.word
  | .decNewly => s.dec.newly

/-- Word `d` of a CDF window: entry `d` for `1 ≤ d`, and word 0 reads 0 (R85). -/
def cdfWord (t : Memory 32) (d : Nat) : Word := if d = 0 then 0 else t.read d

/-- The value a location holds (R83–R89). -/
def readLoc (s : State) : Loc → Word
  | .reg r => readReg s r
  | .src w =>
    if s.enc.phase = .idle then 0 else bufferWord (s.params.kMax * s.params.chunkSize) s.enc.src w
  | .out w => bufferWord s.params.chunkSize s.enc.outBuf w
  | .ecdf d => cdfWord s.enc.cdf d
  | .edeg i => s.enc.degTab.read i
  | .emask w => maskWord s.params.kMax s.enc.mask w
  | .inBuf w => bufferWord s.params.chunkSize s.dec.inBuf w
  | .dcdf d => cdfWord s.dec.cdf d
  | .ddeg i => s.dec.degTab.read i
  | .dmask w => maskWord s.params.kMax s.dec.mask w
  | .known w => maskWord s.params.kMax s.dec.known w
  | .unmapped => 0

/-! ### The issue step and the host's writes -/

/-- The issue step of R122: an illegal word raises `ILLEGAL_CMD`, a busy unit `UNIT_BUSY`; otherwise the unit's
latches are filled and it is busy. -/
def issue (v : Word) (s : State) : State :=
  let opc := v.extractLsb' 0 8
  match decode v with
  | .error _ => s.raise .illegalCmd opc
  | .ok i => if (s.latchOf i.unit).busy then s.raise .unitBusy opc else s.setLatch i.unit (s.issueLatch opc)

/-- A write to `CTRL` (R38): each bit at 1 resets its unit at once, busy or not. -/
def writeCtrl (v : Word) (s : State) : State :=
  let s := if v.getLsbD 0 then s.encSoftReset else s
  if v.getLsbD 1 then s.decSoftReset else s

/-- The guard of the encoder's configuration (R39, R40, R85): `UNIT_BUSY`, then `BAD_STATE` in RUNNING. An error of a
host access has `SRC` 0. -/
def guardEncConfig (s effect : State) : State :=
  if s.enc.latch.busy then s.raise .unitBusy 0
  else if s.enc.phase = .running then s.raise .badState 0
  else effect

/-- The guard of the decoder's configuration (R46, R47, R85): `UNIT_BUSY`, then `BAD_STATE` once the parameters are
learned. -/
def guardDecConfig (s effect : State) : State :=
  if s.dec.latch.busy then s.raise .unitBusy 0
  else if s.dec.paramsSet then s.raise .badState 0
  else effect

/-- The guard of the decoder's input (R51, R89): `UNIT_BUSY`. -/
def guardDecInput (s effect : State) : State :=
  if s.dec.latch.busy then s.raise .unitBusy 0 else effect

/-- A host write to a register (R32–R54). A write to a read-only register is ignored (R67). -/
def writeReg (s : State) (v : Word) : Reg → State
  | .cmd => issue v s
  | .ctrl => writeCtrl v s
  | .err => s.ackErr v
  | .arg0 => { s with arg0 := v }
  | .arg1 => { s with arg1 := v }
  | .arg2 => { s with arg2 := v }
  | .encMode => guardEncConfig s { s with enc := { s.enc with degMode := DegMode.ofWord v } }
  | .encCdfK => guardEncConfig s { s with enc := { s.enc with cdfK := v } }
  | .decMode => guardDecConfig s { s with dec := { s.dec with degMode := DegMode.ofWord v } }
  | .decCdfK => guardDecConfig s { s with dec := { s.dec with cdfK := v } }
  | .inSeed => guardDecInput s { s with dec := { s.dec with inSeed := v } }
  | .inK => guardDecInput s { s with dec := { s.dec with inK := v } }
  | .inP => guardDecInput s { s with dec := { s.dec with inPad := v } }
  | .id | .cfgS | .cfgKmax | .cfgNpend | .cfgDegtabLen | .status | .lastErr => s
  | .encL | .encK | .encP | .encSeedNext | .outSeed | .outK | .outP | .outDeg | .encResult => s
  | .decK | .decP | .decResolved | .decPendCount | .decResult | .decOutcome | .decNewly => s

/-- A host write to `W_SRC[w]`, in the order of R83. -/
def writeSrc (s : State) (w : Nat) (v : Word) : State :=
  if s.enc.latch.busy then s.raise .unitBusy 0
  else if s.enc.phase ≠ .loading then s.raise .badState 0
  else if s.enc.len.toNat ≤ 4 * w then s.raise .badArg 0
  else { s with enc := { s.enc with src := writeBufferWord s.enc.len.toNat s.enc.src w v } }

/-- A host write to a location (R83–R89). Read-only windows, word 0 of a CDF window and unmapped locations ignore it. -/
def writeLoc (s : State) (v : Word) : Loc → State
  | .reg r => writeReg s v r
  | .src w => writeSrc s w v
  | .ecdf d =>
    if d = 0 then s else guardEncConfig s { s with enc := { s.enc with cdf := s.enc.cdf.write d v } }
  | .edeg i => guardEncConfig s { s with enc := { s.enc with degTab := s.enc.degTab.write i v } }
  | .dcdf d =>
    if d = 0 then s else guardDecConfig s { s with dec := { s.dec with cdf := s.dec.cdf.write d v } }
  | .ddeg i => guardDecConfig s { s with dec := { s.dec with degTab := s.dec.degTab.write i v } }
  | .inBuf w =>
    guardDecInput s { s with dec := { s.dec with inBuf := writeBufferWord s.params.chunkSize s.dec.inBuf w v } }
  | .out _ | .emask _ | .dmask _ | .known _ | .unmapped => s

/-- A host write (R80, R87). -/
def hostWrite (s : State) (a v : Word) : State := writeLoc s v (locOf s.params a)

end Sys2Proof.Machine
end

