-- ==== Sys2Proof/Machine/Decoder.lean ====
section
/-!
DEFINITION. The decoder's ingest (43_decoder.md R240–R249): the header check, parameter learning, the reduction, the
peeling engine and the dependency matrix; and `DEC_RESET`.
-/

namespace Sys2Proof.Machine

open Sys2Proof

/-- `DEC_RESET` (R248): the decoder soft reset. It has no error at completion. -/
def execDecReset (s : State) : Host.Outcome State Fault Refusal := .next s.decSoftReset

/-- `CHECK(K, P)`, in the order of R241. -/
def ingestCheck (s : State) : Option ErrCode :=
  let d := s.dec
  if badChunkCount s.params d.inK || decide (s.params.chunkSize ≤ d.inPad.toNat) then some .malformedDroplet
  else if d.paramsSet && (d.inK != d.k || d.inPad != d.pad) then some .inconsistentParams
  else if degTableMismatch d.degMode d.cdfK d.inK then some .degTableMismatch
  else none

/-- Parameter learning (R242): once, from the first accepted droplet. -/
def Decoder.learn (d : Decoder) : Decoder :=
  if d.paramsSet then d else { d with k := d.inK, pad := d.inPad, paramsSet := true }

/-- The payload of `REDUCE(M, pl)` (R243): the known chunks of `M` XORed out, for `i` in `0 … K−1`, ascending. -/
def reducePayload (p : Params) (d : Decoder) (k : Nat) (m : Mask) (pl : Memory 8) : Memory 8 :=
  (List.range k).foldl
    (fun x i => if m.testBit i && d.known.testBit i then xorBytes p.chunkSize x (chunkOf p d.chunk i) else x) pl

/-- The mask of `REDUCE(M, pl)` (R243). -/
def reduceMask (d : Decoder) (m : Mask) : Mask := Mask.without m d.known

/-- An entry of the peeling worklist: a chunk index and its value (R246). -/
abbrev WorkItem := Nat × Memory 8

/-- One slot's part of the scan of R246, when chunk `j` resolves to `v`: the slot afterwards, and the worklist entry
it becomes if it is newly reduced to one index. -/
def peelSlot (p : Params) (j : Nat) (v : Memory 8) (sl : Slot) : Slot × Option WorkItem :=
  if sl.valid && sl.mask.testBit j then
    let mask := Mask.clear sl.mask j
    let pay := xorBytes p.chunkSize sl.pay v
    if popcount p.kMax mask = 1 then
      ({ valid := false, mask := mask, pay := pay }, some (firstIndex p.kMax mask, pay))
    else ({ sl with mask := mask, pay := pay }, none)
  else (sl, none)

/-- Resolving chunk `j` to `v` (R246): `CHUNK`, `KNOWN`, `DEC_RESOLVED`, and the ascending scan of the slots. -/
def resolveChunk (p : Params) (d : Decoder) (j : Nat) (v : Memory 8) : Decoder × List WorkItem :=
  let scan := d.pend.map (peelSlot p j v)
  let queued := scan.filterMap Prod.snd
  ({ d with
      chunk := setChunk p d.chunk j v, known := Mask.insert d.known j, resolved := d.resolved + 1,
      pend := scan.map Prod.fst, pendCount := d.pendCount - BitVec.ofNat 32 queued.length }, queued)

/-- The worklist loop of R246, FIFO: the decoder, the worklist left and the chunks resolved after at most `fuel`
entries. -/
def peelLoop (p : Params) : Nat → Decoder → List WorkItem → Nat → Decoder × List WorkItem × Nat
  | 0, d, w, n => (d, w, n)
  | _ + 1, d, [], n => (d, [], n)
  | fuel + 1, d, (j, v) :: w, n =>
    if d.known.testBit j then peelLoop p fuel d w n
    else peelLoop p fuel (resolveChunk p d j v).1 (w ++ (resolveChunk p d j v).2) (n + 1)

/-- `PEEL(j, v)` of R246. Every entry after the first frees a slot, so the loop runs at most `N_PEND + 1` times
(R246; log 17): the bound leaves no entry behind. -/
def peel (p : Params) (d : Decoder) (j : Nat) (v : Memory 8) : Decoder × List WorkItem × Nat :=
  peelLoop p (d.pend.length + 1) d [(j, v)] 0

/-- The lowest valid slot whose mask is `m` (R245). -/
def findSameMask (d : Decoder) (m : Mask) : Option Nat := d.pend.findIdx? fun sl => sl.valid && sl.mask == m

/-- The lowest free slot (R245). -/
def findFree (d : Decoder) : Option Nat := d.pend.findIdx? fun sl => !sl.valid

/-- `PEND_STORE(M', p)` of R245, and the error it raises if no slot takes the droplet. -/
def pendStore (d : Decoder) (m : Mask) (pay : Memory 8) : Decoder × Option ErrCode :=
  match findSameMask d m with
  | some e =>
    ({ d with
        pend := d.pend.modify e fun sl => { sl with pay := pay }, outcome := .replaced (BitVec.ofNat 16 e) }, none)
  | none =>
    match findFree d with
    | some e =>
      ({ d with
          pend := d.pend.set e { valid := true, mask := m, pay := pay }, pendCount := d.pendCount + 1,
          outcome := .pending (BitVec.ofNat 16 e) }, none)
    | none => ({ d with outcome := .dropped }, some .pendingOverflow)

/-- The selection of the droplet in the input registers (R240). -/
def ingestSelection (p : Params) (d : Decoder) : Selection := degreeFunction p d.degConfig d.inSeed d.inK.toNat

/-- What an accepted droplet does to the decoder (R240, after `CHECK`), and the error it may end with. -/
def ingestAccepted (p : Params) (d : Decoder) : Decoder × Option ErrCode :=
  let r := ingestSelection p d
  let d := { d.learn with mask := r.mask, clamped := r.clamped, newly := 0 }
  let m := reduceMask d r.mask
  let pay := reducePayload p d d.inK.toNat r.mask d.inBuf
  if popcount p.kMax m = 0 then ({ d with outcome := .discarded }, none)
  else if popcount p.kMax m = 1 then
    let res := peel p d (firstIndex p.kMax m) pay
    ({ res.1 with newly := BitVec.ofNat 32 res.2.2, outcome := .resolved }, none)
  else pendStore d m pay

/-- `REJECT(E)` of R241: besides the error, only `DEC_OUTCOME` and `DEC_NEWLY` are written. -/
def Decoder.reject (d : Decoder) : Decoder := { d with outcome := .rejected, newly := 0 }

/-- Recording the error a command ended with, if any. -/
def State.raiseIf (opc : Opcode) : Option ErrCode → State → State
  | some e, s => s.raise e opc
  | none, s => s

/-- The whole completion step of `DEC_INGEST` but for the busy flag (R240, R241). -/
def ingest (s : State) : State :=
  match ingestCheck s with
  | some e => State.raiseIf Instr.decIngest.opcode (some e) { s with dec := s.dec.reject }
  | none =>
    State.raiseIf Instr.decIngest.opcode (ingestAccepted s.params s.dec).2
      { s with dec := (ingestAccepted s.params s.dec).1 }

/-- `DEC_INGEST` (R240). -/
def execDecIngest (s : State) : Host.Outcome State Fault Refusal := .next ((ingest s).finish .dec)

end Sys2Proof.Machine
end

