-- ==== Sys2Proof/Machine/Readout.lean ====
section
/-!
DEFINITION. Reconstruction and the readouts (43_decoder.md R250–R253): `DEC_RECON`, `DEC_READ_OUT`, `DEC_READ_CHUNK`
and `DEC_READ_PEND`.
-/

namespace Sys2Proof.Machine

open Sys2Proof

/-- Writing `DEC_RESULT` (R52). -/
def State.setDecResult (s : State) (v : Word) : State := { s with dec := { s.dec with result := v } }

/-- `Lout = DEC_K·S − DEC_P`, the length after truncating the pad (R250, R251). -/
def outLength (s : State) : Nat := s.dec.k.toNat * s.params.chunkSize - s.dec.pad.toNat

/-- The check of `DEC_RECON` (R250). -/
def decReconCheck (s : State) : Option ErrCode :=
  if s.dec.complete then none else some .reconstructBeforeComplete

/-- The effect of `DEC_RECON` (R250). -/
def decReconEffect (s : State) : State := s.setDecResult (BitVec.ofNat 32 (outLength s))

/-- `DEC_RECON` (R250). -/
def execDecRecon (s : State) : Host.Outcome State Fault Refusal :=
  .next (s.complete .dec Instr.decRecon.opcode (decReconCheck s) (decReconEffect s))

/-- `OB(o)` of R251, below `Lout`: byte `o` of the chunks in index order. -/
def outByte (s : State) (o : Nat) : Byte :=
  chunkByte s.params s.dec.chunk (o / s.params.chunkSize) (o % s.params.chunkSize)

/-- The checks of `DEC_READ_OUT`, in the order of R251; `4w` is exact. -/
def decReadOutCheck (s : State) : Option ErrCode :=
  if ¬ s.dec.complete then some .reconstructBeforeComplete
  else if outLength s ≤ 4 * s.dec.latch.a0.toNat then some .badArg
  else none

/-- The effect of `DEC_READ_OUT` (R251). -/
def decReadOutEffect (s : State) : State :=
  s.setDecResult (packWord (limitBytes (outLength s) (outByte s)) s.dec.latch.a0.toNat)

/-- `DEC_READ_OUT` (R251). -/
def execDecReadOut (s : State) : Host.Outcome State Fault Refusal :=
  .next (s.complete .dec Instr.decReadOut.opcode (decReadOutCheck s) (decReadOutEffect s))

/-- The checks of `DEC_READ_CHUNK`, in the order of R252. -/
def decReadChunkCheck (s : State) : Option ErrCode :=
  if ¬ s.dec.paramsSet ∨ s.dec.k ≤ s.dec.latch.a0 then some .badArg
  else if s.params.chunkSize ≤ 4 * s.dec.latch.a1.toNat then some .badArg
  else if ¬ s.dec.known.testBit s.dec.latch.a0.toNat then some .chunkUnresolved
  else none

/-- The effect of `DEC_READ_CHUNK` (R252). -/
def decReadChunkEffect (s : State) : State :=
  s.setDecResult
    (packWord (limitBytes s.params.chunkSize (chunkByte s.params s.dec.chunk s.dec.latch.a0.toNat))
      s.dec.latch.a1.toNat)

/-- `DEC_READ_CHUNK` (R252). -/
def execDecReadChunk (s : State) : Host.Outcome State Fault Refusal :=
  .next (s.complete .dec Instr.decReadChunk.opcode (decReadChunkCheck s) (decReadChunkEffect s))

/-- The check of `DEC_READ_PEND` (R253). -/
def decReadPendCheck (s : State) : Option ErrCode :=
  if s.params.nPend ≤ s.dec.latch.a0.toNat ∨
      s.params.maskWords + s.params.payloadWords < s.dec.latch.a1.toNat then some .badArg
  else none

/-- Slot `e`; beyond the slots there is no row (R253 refuses it). -/
def Decoder.slot (d : Decoder) (e : Nat) : Slot := d.pend.getD e { valid := false, mask := 0, pay := [] }

/-- Word `w` of a dependency-matrix row (R253); an invalid slot reads all zeros. -/
def pendRowWord (p : Params) (sl : Slot) (w : Nat) : Word :=
  if ¬ sl.valid then 0
  else if w = 0 then (1 <<< 31) ||| BitVec.ofNat 32 (popcount p.kMax sl.mask)
  else if w ≤ p.maskWords then maskWord p.kMax sl.mask (w - 1)
  else bufferWord p.chunkSize sl.pay (w - 1 - p.maskWords)

/-- The effect of `DEC_READ_PEND` (R253). -/
def decReadPendEffect (s : State) : State :=
  s.setDecResult (pendRowWord s.params (s.dec.slot s.dec.latch.a0.toNat) s.dec.latch.a1.toNat)

/-- `DEC_READ_PEND` (R253). -/
def execDecReadPend (s : State) : Host.Outcome State Fault Refusal :=
  .next (s.complete .dec Instr.decReadPend.opcode (decReadPendCheck s) (decReadPendEffect s))

end Sys2Proof.Machine
end

