-- ==== Sys2Proof/Machine/BusyRead.lean ====
section
/-!
DEFINITION. Host reads (20_memory.md R80, R92): a location that a busy unit's command writes returns a free value
within the bounds of R92; every other location returns its current value.
-/

namespace Sys2Proof.Machine

open Sys2Proof

/-- The command a unit is executing, if any (R55). -/
def executing (s : State) (u : UnitId) : Option Instr :=
  if (s.latchOf u).busy then decodeOpcode (s.latchOf u).op else none

/-- The error a command will end with at its completion. Its inputs are locked while it runs (R97), so the state of
now decides it. -/
def commandError (s : State) : Instr → Option ErrCode
  | .encReset => none
  | .encConfig => encConfigCheck s
  | .encSeed => encSeedCheck s
  | .encNext => encNextCheck s
  | .encDegq => encDegqCheck s
  | .encSelq => encSelqCheck s
  | .decReset => none
  | .decIngest =>
    match ingestCheck s with
    | some e => some e
    | none => (ingestAccepted s.params s.dec).2
  | .decRecon => decReconCheck s
  | .decReadOut => decReadOutCheck s
  | .decReadChunk => decReadChunkCheck s
  | .decDegq => decDegqCheck s
  | .decReadPend => decReadPendCheck s

/-- Whether a command runs past its checks. A `DEC_INGEST` that overflows does (R245). -/
def passesChecks (s : State) (i : Instr) : Bool :=
  if i = .decIngest then (ingestCheck s).isNone else (commandError s i).isNone

/-- Whether a location is one of these registers. -/
def Loc.isReg (rs : List Reg) : Loc → Bool
  | .reg r => rs.contains r
  | _ => false

/-- Whether a location is a word of `W_SRC`. -/
def Loc.isSrc : Loc → Bool
  | .src _ => true
  | _ => false

/-- Whether a location is a word of `W_OUT`. -/
def Loc.isOut : Loc → Bool
  | .out _ => true
  | _ => false

/-- Whether a location is a word of `W_EMASK`. -/
def Loc.isEmask : Loc → Bool
  | .emask _ => true
  | _ => false

/-- Whether a location is a word of `W_DMASK`. -/
def Loc.isDmask : Loc → Bool
  | .dmask _ => true
  | _ => false

/-- The locations a command writes once past its checks, but for those R92 gives bounds of their own (cases 1 to 5),
`STATUS`, `ERR` and `LAST_ERR`. `W_SRC` is written by `ENC_CONFIG` (R202) and becomes unspecified at an encoder reset
(R68; log 14). -/
def effectWrites (s : State) (i : Instr) (l : Loc) : Bool :=
  match i with
  | .encReset =>
    l.isReg [.encL, .encK, .encP, .encSeedNext, .outSeed, .outK, .outP, .outDeg, .encResult] ||
      l.isSrc || l.isOut || l.isEmask
  | .encConfig => l.isReg [.encL, .encK, .encP] || l.isSrc
  | .encSeed => l.isReg [.encSeedNext]
  | .encNext => l.isReg [.outSeed, .outK, .outP, .outDeg, .encSeedNext] || l.isOut || l.isEmask
  | .encDegq => l.isReg [.encResult] || l.isEmask
  | .encSelq => l.isReg [.encResult] || l.isEmask
  | .decReset => l.isReg [.decK, .decP, .decResult, .decOutcome, .decNewly] || l.isDmask
  | .decIngest =>
    l.isReg [.decOutcome, .decNewly] || (!s.dec.paramsSet && l.isReg [.decK, .decP]) || l.isDmask
  | .decRecon => l.isReg [.decResult]
  | .decReadOut => l.isReg [.decResult]
  | .decReadChunk => l.isReg [.decResult]
  | .decDegq => l.isReg [.decResult] || l.isDmask
  | .decReadPend => l.isReg [.decResult]

/-- The locations a command writes when a check ends it, but for `ERR` and `LAST_ERR`: a rejected droplet writes its
outcome (R241). -/
def errorWrites (i : Instr) (l : Loc) : Bool := i == .decIngest && l.isReg [.decOutcome, .decNewly]

/-- The locations of R92 case 6 that the command a unit executes writes. -/
def writtenBy (s : State) (u : UnitId) (l : Loc) : Bool :=
  match executing s u with
  | some i => if passesChecks s i then effectWrites s i l else errorWrites i l
  | none => false

/-- The locations of R92 case 6. -/
def isWritten (s : State) (l : Loc) : Bool := writtenBy s .enc l || writtenBy s .dec l

/-- Whether the command a unit executes runs past its checks and is one of `l`. -/
def effectIsIn (s : State) (u : UnitId) (l : List Instr) : Bool :=
  match executing s u with
  | some i => l.contains i && passesChecks s i
  | none => false

/-- The decoder as it will be after the completion of the command it executes: the "post" of R92. Only `DEC_INGEST` and
`DEC_RESET` change what R92 asks it for. -/
def decPost (s : State) : Decoder :=
  match executing s .dec with
  | some .decIngest => (ingest s).dec
  | some .decReset => s.dec.softReset
  | _ => s.dec

/-- The error a unit's executing command will raise. -/
def pendingError (s : State) (u : UnitId) : Option ErrCode := (executing s u).bind (commandError s)

/-- The bit of `ERR` an error writes; none for no error. -/
def errorBit : Option ErrCode → Word
  | some e => e.bit
  | none => 0

/-- `ERR` while a command that will raise an error runs: that error's bit is free, the others are current (R92, R93). -/
def busyErr (s : State) (f : Word) : Word :=
  let b := errorBit (pendingError s .enc) ||| errorBit (pendingError s .dec)
  (s.err &&& ~~~b) ||| (f &&& b)

/-- A free `LAST_ERR`, within its format: CODE 0 to 10 (R37, U13). -/
def freeLastErr (f : Word) : Word :=
  (0 : BitVec 16) ++ f.extractLsb' 0 8 ++ BitVec.ofNat 8 ((f.extractLsb' 16 16).toNat % 11)

/-- `LAST_ERR` while a command runs: free if that command will raise an error (R92 case 6). -/
def busyLastErr (s : State) (f : Word) : Word :=
  if (pendingError s .enc).isSome || (pendingError s .dec).isSome then freeLastErr f else lastErrWord s.lastErr

/-- A free `ENC_PHASE`, never 3 (R35). -/
def freePhase (f : Word) : Phase :=
  match (f.extractLsb' 4 12).toNat % 3 with
  | 0 => .idle
  | 1 => .loading
  | _ => .running

/-- `STATUS` while commands run (R92 cases 1, 5, 6 and 7, field by field): `DEC_COMPLETE` is its value before or after
the command, a field the command writes is free, the others are current. -/
def busyStatus (s : State) (f : Word) : StatusFields where
  encBusy := s.enc.latch.busy
  decBusy := s.dec.latch.busy
  phase := if effectIsIn s .enc [.encReset, .encConfig, .encSeed] then freePhase f else s.enc.phase
  paramsSet :=
    if effectIsIn s .dec [.decReset] || (effectIsIn s .dec [.decIngest] && !s.dec.paramsSet) then f.getLsbD 1
    else s.dec.paramsSet
  complete := if f.getLsbD 0 then (decPost s).complete else s.dec.complete
  encClamped :=
    if effectIsIn s .enc [.encReset, .encNext, .encDegq, .encSelq] then f.getLsbD 2 else s.enc.clamped
  decClamped := if effectIsIn s .dec [.decReset, .decIngest, .decDegq] then f.getLsbD 3 else s.dec.clamped
  errAny := errAny (busyErr s (f >>> 16))

/-- A value between two counts, both included (R92 case 2, D15). -/
def between (pre post f : Nat) : Nat := min pre post + f % (max pre post - min pre post + 1)

/-- A mask word between two, bit by bit (R92 case 4, D15). -/
def betweenBits (pre post f : Word) : Word := (pre &&& post) ||| (f &&& (pre ||| post))

/-- A free `DEC_OUTCOME`, within its format: CODE 0 to 6, SLOT a slot number for codes 2 and 3 (R53, U13). -/
def freeOutcome (p : Params) (f : Word) : IngestOutcome :=
  let e := BitVec.ofNat 16 ((f.extractLsb' 16 16).toNat % p.nPend)
  match (f.extractLsb' 0 16).toNat % 7 with
  | 0 => .none
  | 1 => .resolved
  | 2 => .pending e
  | 3 => .replaced e
  | 4 => .discarded
  | 5 => .rejected
  | _ => .dropped

/-- A free value of a location, within the bounds every read of it obeys (R82, R88, R53): bytes and bits beyond the
buffer or mask read 0. -/
def freeLoc (s : State) (f : Word) : Loc → Word
  | .src w => packWord (limitBytes (s.params.kMax * s.params.chunkSize) fun o => wordByte f (o % 4)) w
  | .out w => packWord (limitBytes s.params.chunkSize fun o => wordByte f (o % 4)) w
  | .emask w | .dmask w => f &&& maskWord s.params.kMax (2 ^ s.params.kMax - 1) w
  | .reg .decOutcome => (freeOutcome s.params f).word
  | _ => f

/-- What a read of a location returns, `f` being the free word drawn for this read (R92, R94). -/
def readValue (s : State) (f : Word) : Loc → Word
  | .reg .status => (busyStatus s f).word
  | .reg .err => busyErr s f
  | .reg .lastErr => busyLastErr s f
  | .reg .decResolved =>
    BitVec.ofNat 32 (between s.dec.resolved.toNat (decPost s).resolved.toNat f.toNat)
  | .reg .decPendCount =>
    if effectIsIn s .dec [.decReset, .decIngest] then BitVec.ofNat 32 (f.toNat % (s.params.nPend + 1))
    else s.dec.pendCount
  | .known w =>
    betweenBits (maskWord s.params.kMax s.dec.known w) (maskWord s.params.kMax (decPost s).known w) f
  | l => if isWritten s l then freeLoc s f l else readLoc s l

/-- A host read (R80): it returns data and changes nothing of the block (R98). The model counts the reads, one draw each (log 9). -/
def hostRead (s : State) (a : Word) : State :=
  { s with rdata := readValue s (Config.freeWord s.draws) (locOf s.params a), draws := s.draws + 1 }

/-- A host access (R80, R90). -/
def hostAccess (s : State) : Access → State
  | .read a => hostRead s a
  | .write a v => hostWrite s a v

end Sys2Proof.Machine
end

