-- ==== Sys2Proof/Machine/Dispatch.lean ====
section
/-!
DEFINITION. The meaning of each command: its completion step (20_memory.md R91).
-/

namespace Sys2Proof.Machine

open Sys2Proof

/-- The completion step of a command. -/
def exec (i : Instr) (s : State) : Host.Outcome State Fault Refusal :=
  match i with
  | .encReset => Sys2Proof.Machine.execEncReset s
  | .encConfig => Sys2Proof.Machine.execEncConfig s
  | .encSeed => Sys2Proof.Machine.execEncSeed s
  | .encNext => Sys2Proof.Machine.execEncNext s
  | .encDegq => Sys2Proof.Machine.execEncDegq s
  | .encSelq => Sys2Proof.Machine.execEncSelq s
  | .decReset => Sys2Proof.Machine.execDecReset s
  | .decIngest => Sys2Proof.Machine.execDecIngest s
  | .decRecon => Sys2Proof.Machine.execDecRecon s
  | .decReadOut => Sys2Proof.Machine.execDecReadOut s
  | .decReadChunk => Sys2Proof.Machine.execDecReadChunk s
  | .decDegq => Sys2Proof.Machine.execDecDegq s
  | .decReadPend => Sys2Proof.Machine.execDecReadPend s

end Sys2Proof.Machine
end

