-- ==== Sys2Proof/Machine/Step.lean ====
section
/-!
DEFINITION. One step of the block: one host access or one unit's completion step (60_exceptions.md R304,
20_memory.md R90, R91).
-/

namespace Sys2Proof.Machine

open Sys2Proof

/-- The completion step of unit `u` (R91): the command in its op latch has its whole effect. An idle unit does nothing
(R313), so a completion that a reset has abandoned never happens (R343). -/
def completeUnit (u : UnitId) (s : State) : Host.Outcome State Fault Refusal :=
  if (s.latchOf u).busy then
    match decodeOpcode (s.latchOf u).op with
    | some i => if i.unit = u then exec i s else .fault (.latchUnreadable u)
    | none => .fault (.latchUnreadable u)
  else .next s

/-- The step when no event is listed (log 6): a busy unit completes (weak fairness, R91, R355); which of two, the spec
leaves free. With both units idle nothing happens (R313). -/
def quietStep (s : State) : Host.Outcome State Fault Refusal :=
  if s.enc.latch.busy && s.dec.latch.busy then
    completeUnit (if Config.freeUnit s.draws then .enc else .dec) { s with draws := s.draws + 1 }
  else if s.enc.latch.busy then completeUnit .enc s
  else completeUnit .dec s

/-- One step: the oldest event happens, a host access or a completion step (R304). -/
def step (s : State) : Host.Outcome State Fault Refusal :=
  match s.events with
  | [] => quietStep s
  | .access a :: es => .next (hostAccess { s with events := es } a)
  | .complete u :: es => completeUnit u { s with events := es }

/-- Host interface: `s` with the instruction whose bits are `w` where the next step takes its instruction from. A command
is taken from its unit's latches, filled as its issue step fills them (R122), and its completion is the next event. A word
that is no command stays a host's write to `CMD`, which is then the next event (R122, R124). -/
def State.withFetchWord (s : State) (nbits w : Nat) : State :=
  match decodeTableWord nbits w with
  | some i => { s.setLatch i.unit (s.issueLatch i.opcode) with events := .complete i.unit :: s.events }
  | none => { s with events := .access (.write cmdAddr (BitVec.ofNat 32 (w % 2 ^ nbits))) :: s.events }

end Sys2Proof.Machine
end

