-- ==== Sys2Proof/Safety.lean ====
section
/-!
DEFINITION. What counts as a sound state of the block (10_state.md R65, R56–R61, R12) and the terms in which claims
about whole steps, transfers and droplets are stated.
-/

namespace Sys2Proof.Machine

open Sys2Proof

/-! ### The invariant -/

/-- A RAM of `n` entries: nothing is listed at or beyond `n`. -/
abbrev Memory.below {w : Nat} (n : Nat) (m : Memory w) : Prop := ∀ c ∈ m, c.1 < n

/-- A RAM of `n` entries in its canonical form. -/
abbrev Memory.sound {w : Nat} (n : Nat) (m : Memory w) : Prop := m.wf ∧ Memory.below n m

/-- A busy unit's op latch holds an opcode of that unit (R55, R122). -/
abbrev Latch.readable (u : UnitId) (l : Latch) : Prop :=
  l.busy = true → (decodeOpcode l.op).map Instr.unit = some u

/-- R65 item 7. -/
abbrev Encoder.idleClear (e : Encoder) : Prop := e.phase = .idle → e.len = 0 ∧ e.k = 0 ∧ e.pad = 0

/-- R65 item 8. -/
abbrev Encoder.chunked (p : Params) (e : Encoder) : Prop :=
  e.phase ≠ .idle →
    1 ≤ e.len.toNat ∧ e.len.toNat ≤ p.kMax * p.chunkSize ∧ e.k.toNat = ceilDiv e.len.toNat p.chunkSize ∧
      e.pad.toNat = e.k.toNat * p.chunkSize - e.len.toNat

/-- R56: in LOADING and RUNNING every byte of `SRC` at or beyond `ENC_L` is 0. -/
abbrev Encoder.padZero (e : Encoder) : Prop := e.phase ≠ .idle → Memory.below e.len.toNat e.src

/-- The encoder's part of the invariant. -/
abbrev Encoder.Inv (p : Params) (e : Encoder) : Prop :=
  e.latch.readable .enc ∧ e.idleClear ∧ e.chunked p ∧ e.padZero ∧ e.mask < 2 ^ p.kMax ∧
    Memory.sound (p.kMax * p.chunkSize) e.src ∧ Memory.sound p.chunkSize e.outBuf ∧
    Memory.sound p.kMax e.cdf ∧ Memory.sound p.degtabLen e.degTab

/-- R65 item 1. -/
abbrev Decoder.freshClear (d : Decoder) : Prop :=
  d.paramsSet = false →
    d.known = 0 ∧ (∀ sl ∈ d.pend, sl.valid = false) ∧ d.resolved = 0 ∧ d.pendCount = 0 ∧ d.k = 0 ∧ d.pad = 0

/-- R65 item 2. -/
abbrev Decoder.paramsLegal (p : Params) (d : Decoder) : Prop :=
  d.paramsSet = true → 1 ≤ d.k.toNat ∧ d.k.toNat ≤ p.kMax ∧ d.pad.toNat < p.chunkSize

/-- R65 items 3 and 4. -/
abbrev Decoder.knownCounted (p : Params) (d : Decoder) : Prop :=
  d.known < 2 ^ d.k.toNat ∧ d.resolved.toNat = popcount p.kMax d.known ∧ d.resolved.toNat ≤ d.k.toNat

/-- R65 item 5. -/
abbrev Decoder.slotsOpen (p : Params) (d : Decoder) : Prop :=
  ∀ sl ∈ d.pend, sl.valid = true →
    2 ≤ popcount p.kMax sl.mask ∧ sl.mask &&& d.known = 0 ∧ sl.mask < 2 ^ d.k.toNat

/-- R61 and R65 item 6. -/
abbrev Decoder.slotsCounted (p : Params) (d : Decoder) : Prop :=
  d.pend.length = p.nPend ∧ d.pendCount.toNat = d.pend.countP (·.valid)

/-- The decoder's part of the invariant. -/
abbrev Decoder.Inv (p : Params) (d : Decoder) : Prop :=
  d.latch.readable .dec ∧ d.freshClear ∧ d.paramsLegal p ∧ d.knownCounted p ∧ d.slotsOpen p ∧ d.slotsCounted p ∧
    d.mask < 2 ^ p.kMax ∧ Memory.sound (p.kMax * p.chunkSize) d.chunk ∧ Memory.sound p.chunkSize d.inBuf ∧
    Memory.sound p.kMax d.cdf ∧ Memory.sound p.degtabLen d.degTab ∧
    ∀ sl ∈ d.pend, Memory.sound p.chunkSize sl.pay

/-- The invariant of the block: a legal build, no bit of `ERR` that does not exist, and R65 with what R12, R55, R56 and
R61 say of masks, latches and RAMs. -/
abbrev State.Inv (s : State) : Prop :=
  s.params.wf ∧ s.err &&& ~~~errBits = 0 ∧ s.enc.Inv s.params ∧ s.dec.Inv s.params

/-- Contents that a build's RAMs can hold at power-on (R68). -/
abbrev PorContents.wf (p : Params) (d : PorContents) : Prop :=
  Memory.sound (p.kMax * p.chunkSize) d.src ∧ Memory.sound p.kMax d.ecdf ∧ Memory.sound p.degtabLen d.edegTab ∧
    Memory.sound p.kMax d.dcdf ∧ Memory.sound p.degtabLen d.ddegTab ∧ Memory.sound p.chunkSize d.inBuf ∧
    Memory.sound (p.kMax * p.chunkSize) d.chunk ∧ ∀ c ∈ d.slot, Memory.sound p.chunkSize c.2

/-! ### What a step is -/

/-- The unit whose completion step this step is, if it is one. -/
def completing (s : State) : Option UnitId :=
  match s.events with
  | .access _ :: _ => none
  | .complete u :: _ => if (s.latchOf u).busy then some u else none
  | [] =>
    if s.enc.latch.busy && s.dec.latch.busy then some (if Config.freeUnit s.draws then .enc else .dec)
    else if s.enc.latch.busy then some .enc
    else if s.dec.latch.busy then some .dec
    else none

/-- The size in words of the window in a region (R81), if there is one. -/
def windowSize (p : Params) (region : Nat) : Option Nat :=
  List.lookup region
    [(0x01, ceilDiv (p.kMax * p.chunkSize) 4), (0x02, p.payloadWords), (0x03, p.kMax), (0x04, p.degtabLen),
     (0x05, p.maskWords), (0x08, p.payloadWords), (0x09, p.kMax), (0x0A, p.degtabLen), (0x0B, p.maskWords),
     (0x0C, p.maskWords)]

/-- The command whose completion step this step is, if it is one. -/
def completingCommand (s : State) : Option Instr := (completing s).bind (executing s)

/-- This step is the host's write of `v` to location `l`. -/
def writesNext (s : State) (l : Loc) (v : Word) : Prop :=
  ∃ a es, s.events = .access (.write a v) :: es ∧ locOf s.params a = l

/-- This step resets the encoder: `ENC_RESET` completes, or the host writes 1 to `CTRL.ENC_SRST` (R341). -/
def resetsEncoder (s : State) : Prop :=
  completingCommand s = some .encReset ∨ ∃ v : Word, writesNext s (.reg .ctrl) v ∧ v.getLsbD 0 = true

/-- This step resets the decoder: `DEC_RESET` completes, or the host writes 1 to `CTRL.DEC_SRST` (R342). -/
def resetsDecoder (s : State) : Prop :=
  completingCommand s = some .decReset ∨ ∃ v : Word, writesNext s (.reg .ctrl) v ∧ v.getLsbD 1 = true

/-- The degree configuration lets a degree be drawn for `k` (R156): STUB mode, or a CDF table built for `k`. -/
abbrev tableReady (mode : DegMode) (cdfK k : Word) : Prop := mode = .stub ∨ cdfK = k

/-- The header of the droplet in the input registers passes every check of R241. -/
abbrev headerAccepted (s : State) : Prop :=
  1 ≤ s.dec.inK.toNat ∧ s.dec.inK.toNat ≤ s.params.kMax ∧ s.dec.inPad.toNat < s.params.chunkSize ∧
    (s.dec.paramsSet = true → s.dec.inK = s.dec.k ∧ s.dec.inPad = s.dec.pad) ∧
    tableReady s.dec.degMode s.dec.cdfK s.dec.inK

/-! ### What a running command writes -/

/-- Unit `u` executes command `i`, and none of its checks will end it (R301). A droplet that overflows passes them (R245). -/
def runsPast (s : State) (u : UnitId) (i : Instr) : Prop :=
  executing s u = some i ∧ if i = .decIngest then headerAccepted s else commandError s i = none

/-- The registers a command's rule names as written, besides `STATUS`, `ERR` and `LAST_ERR` (R158, R159, R184, R201 to
R204, R240 to R248, R250 to R253). `DEC_K` and `DEC_P` are learned once (R242). -/
def outputRegs (s : State) : Instr → List Reg
  | .encReset => [.encL, .encK, .encP, .encSeedNext, .outSeed, .outK, .outP, .outDeg, .encResult]
  | .encConfig => [.encL, .encK, .encP]
  | .encSeed => [.encSeedNext]
  | .encNext => [.outSeed, .outK, .outP, .outDeg, .encSeedNext]
  | .encDegq | .encSelq => [.encResult]
  | .decReset => [.decK, .decP, .decResolved, .decPendCount, .decResult, .decOutcome, .decNewly]
  | .decIngest => [.decResolved, .decPendCount, .decOutcome, .decNewly] ++ if s.dec.paramsSet then [] else [.decK, .decP]
  | .decRecon | .decReadOut | .decReadChunk | .decDegq | .decReadPend => [.decResult]

/-- The regions (R81) of the windows on what a command's rule names as written. -/
def outputRegions : Instr → List Nat
  | .encReset => [0x01, 0x02, 0x05]
  | .encConfig => [0x01]
  | .encNext => [0x02, 0x05]
  | .encDegq | .encSelq => [0x05]
  | .decReset | .decIngest => [0x0B, 0x0C]
  | .decDegq => [0x0B]
  | .encSeed | .decRecon | .decReadOut | .decReadChunk | .decReadPend => []

/-- The command unit `u` executes, if any, does not write address `a` (R92 item 7): its rule does not name the location, or
a check will end it before it writes; a rejected droplet writes its outcome alone (R241). `STATUS`, `ERR` and `LAST_ERR`
are a matter of their own. -/
def leavesAlone (s : State) (u : UnitId) (a : Word) : Prop :=
  (∀ i, runsPast s u i → (∀ r ∈ outputRegs s i, locOf s.params a ≠ .reg r) ∧ regionOf a ∉ outputRegions i) ∧
  (executing s u = some .decIngest → locOf s.params a ≠ .reg .decOutcome ∧ locOf s.params a ≠ .reg .decNewly)

/-- `n` completions of one command, one after another. -/
def execMany (i : Instr) : Nat → State → Host.Outcome State Fault Refusal
  | 0, s => .next s
  | n + 1, s =>
    match exec i s with
    | .next t => execMany i n t
    | o => o

/-! ### Droplets and transfers -/

/-- Two degree configurations agree in what a degree for chunk count `k` depends on: the mode, and the table of that
mode, entries `1 … k − 1` of a CDF table or all of a stub table (R353). -/
def DegConfig.agrees (p : Params) (k : Nat) (c c' : DegConfig) : Prop :=
  c.mode = c'.mode ∧
  (c.mode = .robust → ∀ d, 1 ≤ d → d < k → c.cdf.read d = c'.cdf.read d) ∧
  (c.mode = .stub → ∀ i, i < p.degtabLen → c.degTab.read i = c'.degTab.read i)

/-- All that an encoder's droplet depends on besides its seed agrees (R206): the buffer, and the mode with the table of
that mode, `ENC_CDF_K` with a CDF table. -/
def Encoder.sameTransfer (p : Params) (e e' : Encoder) : Prop :=
  e.len = e'.len ∧ (∀ o, e.src.read o = e'.src.read o) ∧ DegConfig.agrees p e.k.toNat e.degConfig e'.degConfig ∧
    (e.degMode = .robust → e.cdfK = e'.cdfK)

/-- Two encoders hold the same emitted droplet (R44, R57, R62). -/
def Encoder.sameDroplet (e e' : Encoder) : Prop :=
  e.outSeed = e'.outSeed ∧ e.outK = e'.outK ∧ e.outPad = e'.outPad ∧ e.outDeg = e'.outDeg ∧ e.outBuf = e'.outBuf ∧
    e.mask = e'.mask

/-- A payload is the XOR of the source chunks in a mask (R205). -/
def payloadMatches (p : Params) (source : Memory 8) (m : Mask) (pay : Memory 8) : Prop :=
  ∀ b, b < p.chunkSize → pay.read b = xorcByte p source m b

/-- A pending slot whose chunks are all in `l` but for one, `i` (R246: its mask has one index left when those of `l` are
resolved). -/
def Slot.reducedTo (sl : Slot) (i : Nat) (l : List Nat) : Prop :=
  sl.valid = true ∧ sl.mask.testBit i = true ∧ ∀ i', sl.mask.testBit i' = true → i' ≠ i → i' ∈ l

/-- A decoder agrees with a source buffer: every resolved chunk has the source chunk's value, and every pending payload
is the XOR of the source chunks still unknown in it (R256). -/
def Decoder.agrees (p : Params) (source : Memory 8) (d : Decoder) : Prop :=
  (∀ i, i < p.kMax → d.known.testBit i = true → ∀ b, b < p.chunkSize →
    chunkByte p d.chunk i b = chunkByte p source i b) ∧
  ∀ sl ∈ d.pend, sl.valid = true → payloadMatches p source sl.mask sl.pay

end Sys2Proof.Machine
end

