-- ==== Sys2Proof/Certificates/Slice0/Obligations.lean ====
section
/-!
DEFINITION. The statements for the provers, in the order of OBLIGATIONS.json. Unless a docstring says otherwise a
statement is about every state, also one no run reaches.
-/

open Sys2Proof Sys2Proof.Machine

/-! ### Command words, the issue step and the step function -/

/-- R120, R121, R124: a word decodes to a command exactly if it is that command's word; the decoder reads every bit. -/
def Obligations.DecodeAndEncodeAgree : Prop :=
  ∀ (v : Word) (i : Instr), decode v = .ok i ↔ v = encode i

/-- R121, R124: words written out from the opcode map, and some that it does not hold. -/
def Obligations.OpcodeMapWordsDecode : Prop :=
  decode 0x00000001 = .ok .encReset ∧ decode 0x00000002 = .ok .encConfig ∧ decode 0x00000003 = .ok .encSeed ∧
  decode 0x00000004 = .ok .encNext ∧ decode 0x00000005 = .ok .encDegq ∧ decode 0x00000006 = .ok .encSelq ∧
  decode 0x00000011 = .ok .decReset ∧ decode 0x00000012 = .ok .decIngest ∧ decode 0x00000013 = .ok .decRecon ∧
  decode 0x00000014 = .ok .decReadOut ∧ decode 0x00000015 = .ok .decReadChunk ∧ decode 0x00000016 = .ok .decDegq ∧
  decode 0x00000017 = .ok .decReadPend ∧
  decode 0x00000000 = .error .unknownOpcode ∧ decode 0x00000007 = .error .unknownOpcode ∧
  decode 0x00000010 = .error .unknownOpcode ∧ decode 0x00000018 = .error .unknownOpcode ∧
  decode 0x00000104 = .error .reservedBits

/-- R91: a completion step of a busy unit is `exec` of the command its op latch decodes to, at the state whose oldest
event is taken away. The list of events is the model's input (log 5). -/
def Obligations.StepRunsTheLatchedCommand : Prop :=
  ∀ (s : State) (u : UnitId) (es : List Event) (i : Instr),
    s.events = .complete u :: es → (s.latchOf u).busy = true → decode ((s.latchOf u).op.setWidth 32) = .ok i →
    i.unit = u → i.wf → step s = exec i { s with events := es }

/-- R90, R304, R343, R313: the oldest event is the step. A host access is one step, complete before the next begins; the
completion of a unit that is not busy (its command was abandoned by a reset) has no effect. The list of events is the
model's input (log 5); the last clause is DEDUCED (log 7). -/
def Obligations.StepTakesTheOldestEvent : Prop :=
  ∀ (s : State) (es : List Event) (a v : Word) (u : UnitId),
    (s.events = .access (.read a) :: es → step s = .next (hostRead { s with events := es } a)) ∧
    (s.events = .access (.write a v) :: es → step s = .next (hostWrite { s with events := es } a v)) ∧
    (s.events = .complete u :: es → (s.latchOf u).busy = false → step s = .next { s with events := es })

/-- R91, R313, R355, under the model's reading of weak fairness (log 6): a step with no event listed is `exec` of a busy
unit's latched command, of either unit's if both are busy, and nothing if none is. Two such steps leave both units free. -/
def Obligations.QuietBlockFinishesItsCommands : Prop :=
  ∀ s : State, s.events = [] →
    (s.enc.latch.busy = false → s.dec.latch.busy = false → step s = .next s) ∧
    (∀ (u v : UnitId) (i : Instr), u ≠ v → (s.latchOf u).busy = true → (s.latchOf v).busy = false →
      decode ((s.latchOf u).op.setWidth 32) = .ok i → i.unit = u → step s = exec i s) ∧
    (∀ i j : Instr, s.enc.latch.busy = true → s.dec.latch.busy = true →
      decode (s.enc.latch.op.setWidth 32) = .ok i → i.unit = .enc →
      decode (s.dec.latch.op.setWidth 32) = .ok j → j.unit = .dec →
      step s = exec i { s with draws := s.draws + 1 } ∨ step s = exec j { s with draws := s.draws + 1 }) ∧
    (s.Inv →
      ∃ t, Host.Core.run Sys2Proof.core 2 s = .next t ∧ t.enc.latch.busy = false ∧ t.dec.latch.busy = false)

/-- R122: the whole issue step, at a write to any address of `CMD`. -/
def Obligations.CommandWriteIsTheIssueStep : Prop :=
  ∀ (s : State) (a v : Word), locOf s.params a = .reg .cmd →
    ((v.extractLsb' 8 24 ≠ 0 ∨ decodeOpcode (v.extractLsb' 0 8) = none) →
      hostWrite s a v = s.raise .illegalCmd (v.extractLsb' 0 8)) ∧
    (∀ i, v.extractLsb' 8 24 = 0 → decodeOpcode (v.extractLsb' 0 8) = some i → (s.latchOf i.unit).busy = true →
      hostWrite s a v = s.raise .unitBusy (v.extractLsb' 0 8)) ∧
    (∀ i, v.extractLsb' 8 24 = 0 → decodeOpcode (v.extractLsb' 0 8) = some i → (s.latchOf i.unit).busy = false →
      hostWrite s a v =
        s.setLatch i.unit
          { busy := true, op := v.extractLsb' 0 8, a0 := s.arg0, a1 := s.arg1, a2 := s.arg2 })

/-- R32, R97: a command does not see a later write to `ARG0`–`ARG2`, nor the model's own inputs; it leaves them as they
are. -/
def Obligations.IssuedCommandIgnoresLaterArguments : Prop :=
  ∀ (i : Instr) (s t : State) (x0 x1 x2 x3 : Word) (es : List Event) (n : Nat), exec i s = .next t →
    exec i { s with arg0 := x0, arg1 := x1, arg2 := x2, rdata := x3, events := es, draws := n } =
      .next { t with arg0 := x0, arg1 := x1, arg2 := x2, rdata := x3, events := es, draws := n }

/-! ### Errors -/

/-- R300, R301 steps 1 and 2, R36, R37: the ten errors and their codes. Raising an error sets its sticky bit, overwrites both
fields of `LAST_ERR`, and changes nothing else. -/
def Obligations.RaisingRecordsTheError : Prop :=
  let codes : List (ErrCode × Nat) :=
    [(.illegalCmd, 1), (.unitBusy, 2), (.badState, 3), (.badArg, 4), (.malformedDroplet, 5), (.inconsistentParams, 6),
      (.degTableMismatch, 7), (.pendingOverflow, 8), (.reconstructBeforeComplete, 9), (.chunkUnresolved, 10)]
  (∀ e : ErrCode, ∃ c, (e, c) ∈ codes) ∧
  ∀ (e : ErrCode) (c : Nat) (src : Opcode) (s : State), (e, c) ∈ codes →
    e.code = c ∧
    (∀ n, n < 32 → (s.raise e src).err.getLsbD n = (s.err.getLsbD n || decide (n = c))) ∧
    (readReg (s.raise e src) .lastErr).extractLsb' 0 8 = BitVec.ofNat 8 c ∧
    (readReg (s.raise e src) .lastErr).extractLsb' 8 8 = src ∧
    (readReg (s.raise e src) .lastErr).extractLsb' 16 16 = 0 ∧
    s.raise e src = { s with err := (s.raise e src).err, lastErr := some { src := src, code := e } }

/-- R36, R307: a write to `ERR` clears exactly the bits 1 to 10 written as 1, and changes nothing else. -/
def Obligations.ErrorBitsAreWriteOneToClear : Prop :=
  ∀ (s : State) (a v : Word), locOf s.params a = .reg .err →
    (∀ n, n < 32 →
      (hostWrite s a v).err.getLsbD n = (s.err.getLsbD n && !(v.getLsbD n && decide (1 ≤ n ∧ n ≤ 10)))) ∧
    hostWrite s a v = { s with err := (hostWrite s a v).err }

/-- R202, R203, R204, R158, R184, R303: when an encoder command ends in an error, which one, and that nothing but the error
is recorded (`State.fail`: the error is raised, the unit is free). -/
def Obligations.EncoderCommandRefusals : Prop :=
  ∀ s : State,
    (s.enc.phase ≠ .idle → exec .encConfig s = .next (s.fail .enc .badState 0x02)) ∧
    (s.enc.phase = .idle →
      (s.enc.latch.a0.toNat = 0 ∨ s.params.kMax * s.params.chunkSize < s.enc.latch.a0.toNat) →
      exec .encConfig s = .next (s.fail .enc .badArg 0x02)) ∧
    (s.enc.phase = .idle → exec .encSeed s = .next (s.fail .enc .badState 0x03)) ∧
    (s.enc.phase ≠ .running → exec .encNext s = .next (s.fail .enc .badState 0x04)) ∧
    (s.enc.phase = .running → s.enc.degMode = .robust → s.enc.cdfK ≠ s.enc.k →
      exec .encNext s = .next (s.fail .enc .degTableMismatch 0x04)) ∧
    ((s.enc.latch.a1.toNat = 0 ∨ s.params.kMax < s.enc.latch.a1.toNat) →
      exec .encDegq s = .next (s.fail .enc .badArg 0x05)) ∧
    (1 ≤ s.enc.latch.a1.toNat → s.enc.latch.a1.toNat ≤ s.params.kMax → s.enc.degMode = .robust →
      s.enc.cdfK ≠ s.enc.latch.a1 → exec .encDegq s = .next (s.fail .enc .degTableMismatch 0x05)) ∧
    ((s.enc.latch.a2.toNat = 0 ∨ s.params.kMax < s.enc.latch.a2.toNat) →
      exec .encSelq s = .next (s.fail .enc .badArg 0x06))

/-- R159, R250 to R253, R303: when a decoder query or readout ends in an error, which one, and that nothing but the
error is recorded: `DEC_RESULT` keeps its value. -/
def Obligations.DecoderReadoutRefusals : Prop :=
  ∀ s : State,
    (s.dec.complete = false → exec .decRecon s = .next (s.fail .dec .reconstructBeforeComplete 0x13)) ∧
    (s.dec.complete = false → exec .decReadOut s = .next (s.fail .dec .reconstructBeforeComplete 0x14)) ∧
    (s.dec.complete = true →
      s.dec.k.toNat * s.params.chunkSize - s.dec.pad.toNat ≤ 4 * s.dec.latch.a0.toNat →
      exec .decReadOut s = .next (s.fail .dec .badArg 0x14)) ∧
    ((s.dec.paramsSet = false ∨ s.dec.k.toNat ≤ s.dec.latch.a0.toNat ∨
        s.params.chunkSize ≤ 4 * s.dec.latch.a1.toNat) →
      exec .decReadChunk s = .next (s.fail .dec .badArg 0x15)) ∧
    (s.dec.paramsSet = true → s.dec.latch.a0.toNat < s.dec.k.toNat →
      4 * s.dec.latch.a1.toNat < s.params.chunkSize → s.dec.known.testBit s.dec.latch.a0.toNat = false →
      exec .decReadChunk s = .next (s.fail .dec .chunkUnresolved 0x15)) ∧
    ((s.dec.latch.a1.toNat = 0 ∨ s.params.kMax < s.dec.latch.a1.toNat) →
      exec .decDegq s = .next (s.fail .dec .badArg 0x16)) ∧
    (1 ≤ s.dec.latch.a1.toNat → s.dec.latch.a1.toNat ≤ s.params.kMax → s.dec.degMode = .robust →
      s.dec.cdfK ≠ s.dec.latch.a1 → exec .decDegq s = .next (s.fail .dec .degTableMismatch 0x16)) ∧
    ((s.params.nPend ≤ s.dec.latch.a0.toNat ∨
        ceilDiv s.params.kMax 32 + ceilDiv s.params.chunkSize 4 < s.dec.latch.a1.toNat) →
      exec .decReadPend s = .next (s.fail .dec .badArg 0x17))

/-- R241, R302: a droplet whose header fails a check is rejected with the first failing check's error; besides the error
only `DEC_OUTCOME`, `DEC_NEWLY` and the busy flag are written. -/
def Obligations.BadDropletIsRejected : Prop :=
  ∀ s : State,
    let rejected (e : ErrCode) : State :=
      ({ s with dec := { s.dec with outcome := .rejected, newly := 0, latch := s.dec.latch.idle } }).raise e 0x12
    let malformed : Prop :=
      s.dec.inK.toNat = 0 ∨ s.params.kMax < s.dec.inK.toNat ∨ s.params.chunkSize ≤ s.dec.inPad.toNat
    let inconsistent : Prop := s.dec.paramsSet = true ∧ (s.dec.inK ≠ s.dec.k ∨ s.dec.inPad ≠ s.dec.pad)
    (malformed → exec .decIngest s = .next (rejected .malformedDroplet)) ∧
    (¬ malformed → inconsistent → exec .decIngest s = .next (rejected .inconsistentParams)) ∧
    (¬ malformed → ¬ inconsistent → ¬ tableReady s.dec.degMode s.dec.cdfK s.dec.inK →
      exec .decIngest s = .next (rejected .degTableMismatch))

/-! ### Encoder commands: results and frames -/

/-- R201, R341: `ENC_RESET` completes in every state. Its registers, `OUTBUF` and `EMASK` are 0, the phase is IDLE; the
mode, `ENC_CDF_K`, the tables, the decoder, `ARGn`, `ERR` and `LAST_ERR` are kept. That `SRC` keeps its (unreadable)
contents is the model's choice (log 4). -/
def Obligations.EncResetReturnsToIdle : Prop :=
  ∀ s : State, exec .encReset s = .next
    { s with
      enc := {
        latch := s.enc.latch.idle, phase := .idle, clamped := false, degMode := s.enc.degMode, cdfK := s.enc.cdfK,
        len := 0, k := 0, pad := 0, seedNext := 0, outSeed := 0, outK := 0, outPad := 0, outDeg := 0, result := 0,
        src := s.enc.src, outBuf := [], cdf := s.enc.cdf, degTab := s.enc.degTab, mask := 0 } }

/-- R202: `ENC_CONFIG` in IDLE with `1 ≤ L ≤ K_MAX·S` establishes the buffer: `K` is the least count of chunks that holds
`L` bytes, `P` fills the last one, every byte of `SRC` is 0, the phase is LOADING; nothing else but the busy flag changes. -/
def Obligations.EncConfigEstablishesTheBuffer : Prop :=
  ∀ s : State, s.params.wf → s.enc.phase = .idle → 1 ≤ s.enc.latch.a0.toNat →
    s.enc.latch.a0.toNat ≤ s.params.kMax * s.params.chunkSize →
    ∃ t, exec .encConfig s = .next t ∧
      t.enc.len = s.enc.latch.a0 ∧ 1 ≤ t.enc.k.toNat ∧ t.enc.k.toNat ≤ s.params.kMax ∧
      t.enc.k.toNat * s.params.chunkSize = s.enc.latch.a0.toNat + t.enc.pad.toNat ∧
      t.enc.pad.toNat < s.params.chunkSize ∧ (∀ o, t.enc.src.read o = 0) ∧ t.enc.phase = .loading ∧
      t = { s with
        enc := { s.enc with
          latch := s.enc.latch.idle, len := t.enc.len, k := t.enc.k, pad := t.enc.pad, src := t.enc.src,
          phase := .loading } }

/-- R203: `ENC_SEED` in LOADING or RUNNING sets the seed source and seals the buffer; nothing else but the busy flag
changes. -/
def Obligations.EncSeedSetsTheSeedAndSeals : Prop :=
  ∀ s : State, s.enc.phase ≠ .idle →
    exec .encSeed s = .next
      { s with
        enc := { s.enc with latch := s.enc.latch.idle, seedNext := s.enc.latch.a0, phase := .running } }

/-- R204, R205: `ENC_NEXT` in RUNNING with its table ready emits the droplet of `ENC_SEED_NEXT` and advances the seed
modulo 2^32. Byte `b` of the payload is the XOR of byte `b` of the chunks in the mask. Nothing else but the busy flag
changes: `SRC` least of all. -/
def Obligations.EncNextEmitsTheDroplet : Prop :=
  ∀ s : State, s.enc.phase = .running → tableReady s.enc.degMode s.enc.cdfK s.enc.k →
    ∃ t, exec .encNext s = .next t ∧
      (∀ b, t.enc.outBuf.read b =
        if b < s.params.chunkSize then xorcByte s.params s.enc.src t.enc.mask b else 0) ∧
      t = { s with
        enc := { s.enc with
          latch := s.enc.latch.idle, outBuf := t.enc.outBuf, outSeed := s.enc.seedNext, outK := s.enc.k,
          outPad := s.enc.pad, seedNext := s.enc.seedNext + 1,
          outDeg := BitVec.ofNat 32
            (degreeFunction s.params s.enc.degConfig s.enc.seedNext s.enc.k.toNat).deg,
          mask := (degreeFunction s.params s.enc.degConfig s.enc.seedNext s.enc.k.toNat).mask,
          clamped := (degreeFunction s.params s.enc.degConfig s.enc.seedNext s.enc.k.toNat).clamped } }

/-- R158: `ENC_DEGQ` with a legal K and a ready table reports the encoder's degree function, in every phase. -/
def Obligations.EncDegqReportsTheDegree : Prop :=
  ∀ s : State, 1 ≤ s.enc.latch.a1.toNat → s.enc.latch.a1.toNat ≤ s.params.kMax →
    tableReady s.enc.degMode s.enc.cdfK s.enc.latch.a1 →
    let r := degreeFunction s.params { mode := s.enc.degMode, cdf := s.enc.cdf, degTab := s.enc.degTab }
      s.enc.latch.a0 s.enc.latch.a1.toNat
    exec .encDegq s = .next
      { s with
        enc := { s.enc with
          latch := s.enc.latch.idle, result := BitVec.ofNat 32 r.deg, mask := r.mask, clamped := r.clamped } }

/-- R184: `ENC_SELQ` with a legal K reports `select(seed, degree, K)`, in every phase and for every degree; it ignores the
mode and the tables. -/
def Obligations.EncSelqReportsTheSelection : Prop :=
  ∀ s : State, 1 ≤ s.enc.latch.a2.toNat → s.enc.latch.a2.toNat ≤ s.params.kMax →
    exec .encSelq s = .next
      { s with
        enc := { s.enc with
          latch := s.enc.latch.idle,
          result := BitVec.ofNat 32 (min s.enc.latch.a1.toNat s.enc.latch.a2.toNat),
          mask := (select s.enc.latch.a0 s.enc.latch.a1.toNat s.enc.latch.a2.toNat).mask,
          clamped := decide (s.enc.latch.a2.toNat < s.enc.latch.a1.toNat) } }

/-! ### Decoder commands: results and frames -/

/-- R248, R342: `DEC_RESET` completes in every state. Its registers, `KNOWN`, `DMASK` and every `valid` are 0; the mode,
`DEC_CDF_K`, the tables, `IN_*`, `INBUF`, the encoder, `ARGn`, `ERR` and `LAST_ERR` are kept. That `CHUNK` and the slots'
masks and payloads keep their (unobservable) contents is the model's choice (log 3). -/
def Obligations.DecResetForgetsTheTransfer : Prop :=
  ∀ s : State, exec .decReset s = .next
    { s with
      dec := {
        latch := s.dec.latch.idle, paramsSet := false, clamped := false, degMode := s.dec.degMode,
        cdfK := s.dec.cdfK, k := 0, pad := 0, resolved := 0, pendCount := 0, inSeed := s.dec.inSeed,
        inK := s.dec.inK, inPad := s.dec.inPad, result := 0, outcome := .none, newly := 0, known := 0,
        chunk := s.dec.chunk,
        pend := s.dec.pend.map fun sl => { valid := false, mask := sl.mask, pay := sl.pay },
        mask := 0, inBuf := s.dec.inBuf, cdf := s.dec.cdf, degTab := s.dec.degTab } }

/-- R250: `DEC_RECON` on a complete decoder reports `DEC_K·S − DEC_P`; nothing else but the busy flag changes. -/
def Obligations.DecReconReportsTheLength : Prop :=
  ∀ s : State, s.dec.complete = true →
    exec .decRecon s = .next
      { s with
        dec := { s.dec with
          latch := s.dec.latch.idle,
          result := BitVec.ofNat 32 (s.dec.k.toNat * s.params.chunkSize - s.dec.pad.toNat) } }

/-- R251: `DEC_READ_OUT w` on a complete decoder, with `4w < Lout`, returns bytes `4w … 4w+3` of the chunks in index order,
little-endian, 0 at or beyond `Lout`; nothing else but the busy flag changes. -/
def Obligations.DecReadOutReturnsTheStream : Prop :=
  ∀ s : State, s.dec.complete = true →
    4 * s.dec.latch.a0.toNat < s.dec.k.toNat * s.params.chunkSize - s.dec.pad.toNat →
    ∃ t, exec .decReadOut s = .next t ∧
      (∀ b, b < 4 → t.dec.result.extractLsb' (8 * b) 8 =
        if 4 * s.dec.latch.a0.toNat + b < s.dec.k.toNat * s.params.chunkSize - s.dec.pad.toNat
        then s.dec.chunk.read (4 * s.dec.latch.a0.toNat + b) else 0) ∧
      t = { s with dec := { s.dec with latch := s.dec.latch.idle, result := t.dec.result } }

/-- R252: `DEC_READ_CHUNK i, w` of a resolved chunk returns its bytes `4w … 4w+3`, little-endian, 0 beyond S, complete or
not; nothing else but the busy flag changes. -/
def Obligations.DecReadChunkReturnsTheChunk : Prop :=
  ∀ s : State, s.dec.paramsSet = true → s.dec.latch.a0.toNat < s.dec.k.toNat →
    4 * s.dec.latch.a1.toNat < s.params.chunkSize → s.dec.known.testBit s.dec.latch.a0.toNat = true →
    ∃ t, exec .decReadChunk s = .next t ∧
      (∀ b, b < 4 → t.dec.result.extractLsb' (8 * b) 8 =
        if 4 * s.dec.latch.a1.toNat + b < s.params.chunkSize
        then s.dec.chunk.read (s.dec.latch.a0.toNat * s.params.chunkSize + (4 * s.dec.latch.a1.toNat + b))
        else 0) ∧
      t = { s with dec := { s.dec with latch := s.dec.latch.idle, result := t.dec.result } }

/-- R159: `DEC_DEGQ` with a legal K and a ready table reports the decoder's degree function, whether or not the
parameters are learned. -/
def Obligations.DecDegqReportsTheDegree : Prop :=
  ∀ s : State, 1 ≤ s.dec.latch.a1.toNat → s.dec.latch.a1.toNat ≤ s.params.kMax →
    tableReady s.dec.degMode s.dec.cdfK s.dec.latch.a1 →
    let r := degreeFunction s.params { mode := s.dec.degMode, cdf := s.dec.cdf, degTab := s.dec.degTab }
      s.dec.latch.a0 s.dec.latch.a1.toNat
    exec .decDegq s = .next
      { s with
        dec := { s.dec with
          latch := s.dec.latch.idle, result := BitVec.ofNat 32 r.deg, mask := r.mask, clamped := r.clamped } }

/-- R253: `DEC_READ_PEND e, w` of an existing slot and row word: word 0 is the valid bit and the count, words 1 to MW the
mask, the rest the payload; an invalid slot reads 0; nothing else but the busy flag changes. -/
def Obligations.DecReadPendReturnsTheRow : Prop :=
  ∀ (s : State) (sl : Slot), s.dec.latch.a0.toNat < s.params.nPend →
    s.dec.pend[s.dec.latch.a0.toNat]? = some sl →
    s.dec.latch.a1.toNat ≤ ceilDiv s.params.kMax 32 + ceilDiv s.params.chunkSize 4 →
    let w := s.dec.latch.a1.toNat
    let mw := ceilDiv s.params.kMax 32
    ∃ t, exec .decReadPend s = .next t ∧
      (sl.valid = false → t.dec.result = 0) ∧
      (sl.valid = true → w = 0 →
        t.dec.result = (1 <<< 31) ||| BitVec.ofNat 32 (popcount s.params.kMax sl.mask)) ∧
      (sl.valid = true → 1 ≤ w → w ≤ mw → ∀ b, b < 32 → t.dec.result.getLsbD b =
        (decide (32 * (w - 1) + b < s.params.kMax) && sl.mask.testBit (32 * (w - 1) + b))) ∧
      (sl.valid = true → mw < w → ∀ b, b < 4 → t.dec.result.extractLsb' (8 * b) 8 =
        if 4 * (w - 1 - mw) + b < s.params.chunkSize then sl.pay.read (4 * (w - 1 - mw) + b) else 0) ∧
      t = { s with dec := { s.dec with latch := s.dec.latch.idle, result := t.dec.result } }

/-- R240 to R245: an accepted droplet that resolves nothing. The parameters are learned once, `DMASK` and `DEC_CLAMPED` are
written; an empty reduced set is DISCARDED; two or more unknowns REPLACE the payload of the lowest valid slot with the
same mask, else fill the lowest free slot (PENDING), else are DROPPED with `PENDING_OVERFLOW`. Nothing else but the busy
flag changes, and no resolved chunk at all. -/
def Obligations.AcceptedDropletIsStoredOrDropped : Prop :=
  ∀ s : State, headerAccepted s →
    let r := degreeFunction s.params { mode := s.dec.degMode, cdf := s.dec.cdf, degTab := s.dec.degTab }
      s.dec.inSeed s.dec.inK.toNat
    let m := Mask.without r.mask s.dec.known
    let pay := reducePayload s.params s.dec s.dec.inK.toNat r.mask s.dec.inBuf
    let d : Decoder := { s.dec with
      latch := s.dec.latch.idle, k := s.dec.inK, pad := s.dec.inPad, paramsSet := true, mask := r.mask,
      clamped := r.clamped, newly := 0 }
    (popcount s.params.kMax m = 0 →
      exec .decIngest s = .next { s with dec := { d with outcome := .discarded } }) ∧
    (∀ e sl, 2 ≤ popcount s.params.kMax m → s.dec.pend[e]? = some sl → sl.valid = true → sl.mask = m →
      (∀ e' sl', e' < e → s.dec.pend[e']? = some sl' → ¬ (sl'.valid = true ∧ sl'.mask = m)) →
      exec .decIngest s = .next
        { s with dec := { d with
            pend := s.dec.pend.set e { valid := true, mask := m, pay := pay },
            outcome := .replaced (BitVec.ofNat 16 e) } }) ∧
    (∀ e sl, 2 ≤ popcount s.params.kMax m → (∀ sl' ∈ s.dec.pend, ¬ (sl'.valid = true ∧ sl'.mask = m)) →
      s.dec.pend[e]? = some sl → sl.valid = false →
      (∀ e' sl', e' < e → s.dec.pend[e']? = some sl' → sl'.valid = true) →
      exec .decIngest s = .next
        { s with dec := { d with
            pend := s.dec.pend.set e { valid := true, mask := m, pay := pay }, pendCount := s.dec.pendCount + 1,
            outcome := .pending (BitVec.ofNat 16 e) } }) ∧
    (2 ≤ popcount s.params.kMax m → (∀ sl' ∈ s.dec.pend, sl'.valid = true ∧ sl'.mask ≠ m) →
      exec .decIngest s = .next (({ s with dec := { d with outcome := .dropped } }).raise .pendingOverflow 0x12))

/-- R240, R246, R247: an accepted droplet with one unknown resolves that chunk to the reduced payload and propagates. The
outcome is RESOLVED and `DEC_NEWLY` counts the resolved chunks, `order` from the first on. Each later one is the one index
of some slot that was not resolved before it, with that slot's payload less its other chunks as its value; of all slots
reduced to one unresolved index, the slot is the one reduced first, the lowest-numbered of those reduced by the same
chunk. A slot keeps at least two unknowns, with the resolved chunks gone from its mask and XORed out of its payload, or it
is freed and all its chunks are resolved. Nothing else changes but what every accepted droplet writes. -/
def Obligations.DropletOfOneUnknownResolves : Prop :=
  ∀ s : State, s.Inv → headerAccepted s →
    let r := degreeFunction s.params { mode := s.dec.degMode, cdf := s.dec.cdf, degTab := s.dec.degTab }
      s.dec.inSeed s.dec.inK.toNat
    let m := Mask.without r.mask s.dec.known
    popcount s.params.kMax m = 1 →
    ∃ (t : State) (order : List Nat), exec .decIngest s = .next t ∧
      (∀ j, m.testBit j = true → order.head? = some j ∧
        ∀ b, b < s.params.chunkSize → chunkByte s.params t.dec.chunk j b =
          (reducePayload s.params s.dec s.dec.inK.toNat r.mask s.dec.inBuf).read b) ∧
      (∀ n i : Nat, order[n + 1]? = some i → ∃ (e : Nat) (sl : Slot), s.dec.pend[e]? = some sl ∧
        sl.reducedTo i (order.take (n + 1)) ∧
        (∀ (e' i' m : Nat) (sl' : Slot), s.dec.pend[e']? = some sl' → i' ∉ order.take (n + 1) → m ≤ n + 1 →
          sl'.reducedTo i' (order.take m) →
          sl.reducedTo i (order.take m) ∧ (e ≤ e' ∨ ∃ m' < m, sl.reducedTo i (order.take m'))) ∧
        ∀ b, b < s.params.chunkSize → chunkByte s.params t.dec.chunk i b =
          sl.pay.read b ^^^ xorcByte s.params t.dec.chunk (Mask.clear sl.mask i) b) ∧
      order.Nodup ∧ t.dec.newly.toNat = order.length ∧
      t.dec.resolved.toNat = s.dec.resolved.toNat + t.dec.newly.toNat ∧
      (∀ i, t.dec.known.testBit i = (s.dec.known.testBit i || decide (i ∈ order)) ∧
        ¬ (s.dec.known.testBit i = true ∧ i ∈ order)) ∧
      (∀ i, s.dec.known.testBit i = true →
        ∀ b, b < s.params.chunkSize → chunkByte s.params t.dec.chunk i b = chunkByte s.params s.dec.chunk i b) ∧
      t.dec.pend.length = s.dec.pend.length ∧
      (∀ (e : Nat) (sl sl' : Slot), s.dec.pend[e]? = some sl → t.dec.pend[e]? = some sl' →
        (sl.valid = false → sl' = sl) ∧
        (sl.valid = true → sl'.valid = true →
          2 ≤ popcount s.params.kMax sl'.mask ∧ sl'.mask = Mask.without sl.mask t.dec.known ∧
          ∀ b, b < s.params.chunkSize →
            sl'.pay.read b = sl.pay.read b ^^^ xorcByte s.params t.dec.chunk (sl.mask &&& t.dec.known) b) ∧
        (sl.valid = true → sl'.valid = false → ∀ i, sl.mask.testBit i = true → t.dec.known.testBit i = true)) ∧
      t.dec.pendCount.toNat = t.dec.pend.countP (·.valid) ∧
      t.dec.newly.toNat + t.dec.pendCount.toNat ≤ s.dec.pendCount.toNat + 1 ∧
      t = { s with
        dec := { s.dec with
          latch := s.dec.latch.idle, k := s.dec.inK, pad := s.dec.inPad, paramsSet := true, mask := r.mask,
          clamped := r.clamped, outcome := .resolved, newly := t.dec.newly, chunk := t.dec.chunk,
          known := t.dec.known, resolved := t.dec.resolved, pend := t.dec.pend, pendCount := t.dec.pendCount } }

/-- R91, R301 step 3: every command completes in every state, freeing its own unit and leaving the other unit's latches
alone. -/
def Obligations.CompletionFreesTheUnit : Prop :=
  ∀ (i : Instr) (s : State), ∃ t, exec i s = .next t ∧ (t.latchOf i.unit).busy = false ∧
    ∀ u, u ≠ i.unit → t.latchOf u = s.latchOf u

/-! ### The generator, the selector and the degree function -/

/-- R180: the generator, `rng_init` with its finaliser and `rng_next` with its three shifts, written out. Its state never
becomes 0. -/
def Obligations.GeneratorStateIsNeverZero : Prop :=
  (∀ seed : Word,
    let x₁ := seed ^^^ (seed >>> 16)
    let x₂ := x₁ * 0x85EBCA6B
    let x₃ := x₂ ^^^ (x₂ >>> 13)
    let x₄ := x₃ * 0xC2B2AE35
    let x₅ := x₄ ^^^ (x₄ >>> 16)
    rngInit seed = (if x₅ = 0 then 0x6D2B79F5 else x₅) ∧ (x₅ = 0 ↔ seed = 0) ∧ rngInit seed ≠ 0) ∧
  ∀ s : Word,
    let y₁ := s ^^^ (s <<< 13)
    let y₂ := y₁ ^^^ (y₁ >>> 17)
    rngNext s = y₂ ^^^ (y₂ <<< 5) ∧ (s ≠ 0 → rngNext s ≠ 0)

/-- R153: the ROBUST lookup is the least degree whose entry exceeds the draw, else K, for any table; for a monotone table
it is the interval rule with inclusive lower bounds; for K = 1 it is 1. -/
def Obligations.RobustLookupIsTheLeastDegree : Prop :=
  ∀ (u : Word) (k : Nat) (t : Memory 32), 1 ≤ k →
    (∀ d, robust u k t = d ↔
      1 ≤ d ∧ d ≤ k ∧ (d < k → u < t.read d) ∧ ∀ e, 1 ≤ e → e < d → t.read e ≤ u) ∧
    ((∀ d e, 1 ≤ d → d ≤ e → e < k → t.read d ≤ t.read e) →
      ∀ d, robust u k t = d ↔ 1 ≤ d ∧ d ≤ k ∧ (d < k → u < t.read d) ∧ (1 < d → t.read (d - 1) ≤ u)) ∧
    robust u 1 t = 1

/-- R155, R157: the degree function. Draw 0 looks the degree up in the ROBUST table, the seed in the STUB table; it is
clamped to K, and the mask is the selection of that many chunks from the same stream. The range of the effective degree
in each mode, and what a degree of zero gives: the empty mask, a zero payload, a droplet the decoder discards. -/
def Obligations.EffectiveDegreeStaysInRange : Prop :=
  (∀ (p : Params) (c : DegConfig) (seed : Word) (k : Nat), p.wf → 1 ≤ k → k ≤ p.kMax →
    let r := degreeFunction p c seed k
    let u := rngNext (rngInit seed)
    let g := (c.degTab.read (seed.toNat % p.degtabLen)).toNat
    (c.mode = .robust → r.deg = min (robust u k c.cdf) k ∧ r.clamped = decide (k < robust u k c.cdf)) ∧
    (c.mode = .stub → r.deg = min g k ∧ r.clamped = decide (k < g)) ∧
    r.mask = fisherYates r.deg k u ∧ r.mask = (select seed r.deg k).mask ∧ popcount p.kMax r.mask = r.deg ∧
    (c.mode = .robust → 1 ≤ r.deg ∧ r.deg ≤ k ∧ r.clamped = false) ∧
    (c.mode = .stub → r.deg ≤ k ∧ (r.deg = 0 ↔ g = 0) ∧ (r.clamped = true ↔ k < g)) ∧
    (k = 1 → (r.deg = 0 ∨ r.deg = 1) ∧ (c.mode = .robust → r.deg = 1)) ∧
    (r.deg = 0 → r.mask = 0 ∧ ∀ (src : Memory 8) (b : Nat), (xorc p src r.mask).read b = 0)) ∧
  ∀ s : State, headerAccepted s → (ingestSelection s.params s.dec).deg = 0 →
    ∃ t, exec .decIngest s = .next t ∧ t.dec.outcome = .discarded ∧ t.dec.known = s.dec.known

/-- R182, R183, R185: the selector. Turn `i` of the shuffle exchanges entries `i` and `j = i + mulhi32(r, K − i)`, where `r`
is the next draw, draw 0 being discarded; the mask holds the first `min(degree, K)` entries. So the mask has
`min(degree, K)` bits, all below `K`, and is a function of `(seed, degree, K)` alone: `ENC_SELQ` with the same operands
returns the same mask in any two states. -/
def Obligations.SelectorMeetsItsContract : Prop :=
  (∀ (seed : Word) (degree k n : Nat), 1 ≤ k → k ≤ n →
    let r := select seed degree k
    r.deg = min degree k ∧ r.clamped = decide (k < degree) ∧
    (∃ a : Nat → Nat → Nat, (∀ x, a 0 x = x) ∧
      (∀ i, i < min degree k →
        let j := i + (rngNext^[i + 2] (rngInit seed)).toNat * (k - i) / 2 ^ 32
        j < k ∧ a (i + 1) i = a i j ∧ a (i + 1) j = a i i ∧ ∀ x, x ≠ i → x ≠ j → a (i + 1) x = a i x) ∧
      ∀ b, r.mask.testBit b = true ↔ ∃ i, i < min degree k ∧ a (min degree k) i = b) ∧
    popcount n r.mask = min degree k ∧ ∀ i, r.mask.testBit i = true → i < k) ∧
  ∀ s s' t t' : State, s.enc.latch.a0 = s'.enc.latch.a0 → s.enc.latch.a1 = s'.enc.latch.a1 →
    s.enc.latch.a2 = s'.enc.latch.a2 → 1 ≤ s.enc.latch.a2.toNat → s.enc.latch.a2.toNat ≤ s.params.kMax →
    s'.enc.latch.a2.toNat ≤ s'.params.kMax → exec .encSelq s = .next t → exec .encSelq s' = .next t' →
    t.enc.mask = t'.enc.mask ∧ popcount s.params.kMax t.enc.mask = t.enc.result.toNat

/-! ### The port -/

/-- R67, R81: each register stands at its offset of R67, each word of each window in its region. -/
def Obligations.AddressMapPlacesEveryLocation : Prop :=
  ∀ p : Params, p.wf →
    (∀ x ∈ ([(0x000, .id), (0x004, .cfgS), (0x008, .cfgKmax), (0x00C, .cfgNpend), (0x010, .cfgDegtabLen), (0x020, .cmd),
        (0x024, .arg0), (0x028, .arg1), (0x02C, .arg2), (0x030, .status), (0x034, .err), (0x038, .lastErr),
        (0x03C, .ctrl), (0x100, .encMode), (0x104, .encCdfK), (0x108, .encL), (0x10C, .encK), (0x110, .encP),
        (0x114, .encSeedNext), (0x118, .outSeed), (0x11C, .outK), (0x120, .outP), (0x124, .outDeg),
        (0x128, .encResult), (0x200, .decMode), (0x204, .decCdfK), (0x208, .decK), (0x20C, .decP),
        (0x210, .decResolved), (0x214, .decPendCount), (0x218, .inSeed), (0x21C, .inK), (0x220, .inP),
        (0x224, .decResult), (0x228, .decOutcome), (0x22C, .decNewly)] : List (Nat × Reg)),
      locOf p (BitVec.ofNat 32 x.1) = .reg x.2) ∧
    (∀ w, w < ceilDiv (p.kMax * p.chunkSize) 4 → locOf p (BitVec.ofNat 32 (0x01000000 + 4 * w)) = .src w) ∧
    (∀ w, w < ceilDiv p.chunkSize 4 → locOf p (BitVec.ofNat 32 (0x02000000 + 4 * w)) = .out w) ∧
    (∀ w, w < p.kMax → locOf p (BitVec.ofNat 32 (0x03000000 + 4 * w)) = .ecdf w) ∧
    (∀ w, w < p.degtabLen → locOf p (BitVec.ofNat 32 (0x04000000 + 4 * w)) = .edeg w) ∧
    (∀ w, w < ceilDiv p.kMax 32 → locOf p (BitVec.ofNat 32 (0x05000000 + 4 * w)) = .emask w) ∧
    (∀ w, w < ceilDiv p.chunkSize 4 → locOf p (BitVec.ofNat 32 (0x08000000 + 4 * w)) = .inBuf w) ∧
    (∀ w, w < p.kMax → locOf p (BitVec.ofNat 32 (0x09000000 + 4 * w)) = .dcdf w) ∧
    (∀ w, w < p.degtabLen → locOf p (BitVec.ofNat 32 (0x0A000000 + 4 * w)) = .ddeg w) ∧
    (∀ w, w < ceilDiv p.kMax 32 → locOf p (BitVec.ofNat 32 (0x0B000000 + 4 * w)) = .dmask w) ∧
    (∀ w, w < ceilDiv p.kMax 32 → locOf p (BitVec.ofNat 32 (0x0C000000 + 4 * w)) = .known w)

/-- R87: an access ignores `addr[1:0]`. -/
def Obligations.AccessesIgnoreTheLowAddressBits : Prop :=
  ∀ (s : State) (a v : Word),
    hostRead s a = hostRead s (a &&& 0xFFFFFFFC) ∧ hostWrite s a v = hostWrite s (a &&& 0xFFFFFFFC) v

/-- R86: a register offset not in R67, a window word at or beyond the window's size, and every other region read 0 and
ignore writes. -/
def Obligations.UnmappedLocationsAreInert : Prop :=
  ∀ (s : State) (a v : Word),
    ((regionOf a = 0 ∧ 4 * wordIndexOf a ∉
        [0x000, 0x004, 0x008, 0x00C, 0x010, 0x020, 0x024, 0x028, 0x02C, 0x030, 0x034, 0x038, 0x03C,
          0x100, 0x104, 0x108, 0x10C, 0x110, 0x114, 0x118, 0x11C, 0x120, 0x124, 0x128, 0x200, 0x204,
          0x208, 0x20C, 0x210, 0x214, 0x218, 0x21C, 0x220, 0x224, 0x228, 0x22C]) ∨
      (∃ n, windowSize s.params (regionOf a) = some n ∧ n ≤ wordIndexOf a) ∨
      (regionOf a ≠ 0 ∧ windowSize s.params (regionOf a) = none)) →
    (hostRead s a).rdata = 0 ∧ hostWrite s a v = s

/-- R31, R32, R33, R38, R67, R84, R88: the identification registers are constants, `CMD` and `CTRL` read 0, and `ARGn` read
back what was written. Every read-only register and every word of a read-only window ignores a write, which raises no
error. All whether or not a unit is busy. -/
def Obligations.ConstantAndArgumentRegisters : Prop :=
  ∀ (s : State) (a v : Word),
    (locOf s.params a = .reg .id → (hostRead s a).rdata = 0x464E5437 ∧ hostWrite s a v = s) ∧
    (locOf s.params a = .reg .cfgS →
      (hostRead s a).rdata = BitVec.ofNat 32 s.params.chunkSize ∧ hostWrite s a v = s) ∧
    (locOf s.params a = .reg .cfgKmax →
      (hostRead s a).rdata = BitVec.ofNat 32 s.params.kMax ∧ hostWrite s a v = s) ∧
    (locOf s.params a = .reg .cfgNpend →
      (hostRead s a).rdata = BitVec.ofNat 32 s.params.nPend ∧ hostWrite s a v = s) ∧
    (locOf s.params a = .reg .cfgDegtabLen →
      (hostRead s a).rdata = BitVec.ofNat 32 s.params.degtabLen ∧ hostWrite s a v = s) ∧
    ((locOf s.params a = .reg .cmd ∨ locOf s.params a = .reg .ctrl) → (hostRead s a).rdata = 0) ∧
    (locOf s.params a = .reg .arg0 →
      hostWrite s a v = { s with arg0 := v } ∧ (hostRead (hostWrite s a v) a).rdata = v) ∧
    (locOf s.params a = .reg .arg1 →
      hostWrite s a v = { s with arg1 := v } ∧ (hostRead (hostWrite s a v) a).rdata = v) ∧
    (locOf s.params a = .reg .arg2 →
      hostWrite s a v = { s with arg2 := v } ∧ (hostRead (hostWrite s a v) a).rdata = v) ∧
    (∀ r ∈ [Reg.status, .lastErr, .encL, .encK, .encP, .encSeedNext, .outSeed, .outK, .outP, .outDeg, .encResult, .decK,
        .decP, .decResolved, .decPendCount, .decResult, .decOutcome, .decNewly],
      locOf s.params a = .reg r → hostWrite s a v = s) ∧
    ∀ w, (locOf s.params a = .out w ∨ locOf s.params a = .emask w ∨ locOf s.params a = .dmask w ∨
      locOf s.params a = .known w) → hostWrite s a v = s

/-- R35, R249: the places of the fields of `STATUS`, with `DEC_COMPLETE` and `ERR_ANY` derived and bits 31:9 zero. -/
def Obligations.StatusFieldsStandInTheirPlaces : Prop :=
  ∀ s : State,
    let v := readReg s .status
    v.getLsbD 0 = s.enc.latch.busy ∧ v.getLsbD 1 = s.dec.latch.busy ∧
    (v.extractLsb' 2 2).toNat = (match s.enc.phase with | .idle => 0 | .loading => 1 | .running => 2) ∧
    v.getLsbD 4 = s.dec.paramsSet ∧ v.getLsbD 5 = (s.dec.paramsSet && decide (s.dec.resolved = s.dec.k)) ∧
    v.getLsbD 6 = s.enc.clamped ∧ v.getLsbD 7 = s.dec.clamped ∧ v.getLsbD 8 = decide (s.err ≠ 0) ∧
    ∀ i, 9 ≤ i → v.getLsbD i = false

/-- R94, R98, R92 item 7, R80 to R89, R37 to R54: a read changes nothing but the data it returns (log 8) and the model's
count of reads (log 9). With both units idle, and while a unit is busy at a location no running command writes, it
returns what the location holds. A command that a check will end writes only its error, and a droplet's outcome, and
`DEC_K` and `DEC_P` are written once (log 10, DEDUCED); an accepted droplet counts as writing `DEC_PEND_COUNT` (log 12,
DEDUCED); `STATUS` is read field by field and `ERR` bit by bit (log 15, DEDUCED). What a location holds: the bytes, bits
or entries of each window, and the value of each register. -/
def Obligations.IdleReadsReturnTheCurrentValue : Prop :=
  ∀ (s : State) (a : Word),
    let l := locOf s.params a
    let v := (hostRead s a).rdata
    hostRead s a = { s with rdata := v, draws := s.draws + 1 } ∧
    (s.enc.latch.busy = false → s.dec.latch.busy = false → v = readLoc s l) ∧
    (l ≠ .reg .status → l ≠ .reg .err → l ≠ .reg .lastErr → leavesAlone s .enc a → leavesAlone s .dec a →
      v = readLoc s l) ∧
    (l = .reg .err → ∀ n, n < 32 →
      (∀ u i e, executing s u = some i → commandError s i = some e → e.code ≠ n) → v.getLsbD n = s.err.getLsbD n) ∧
    (l = .reg .lastErr → (∀ u i, executing s u = some i → commandError s i = none) → v = readLoc s l) ∧
    (l = .reg .status →
      let current (n : Nat) : Prop := v.getLsbD n = (readReg s .status).getLsbD n
      (current 0 ∧ current 1) ∧
      ((∀ i ∈ [Instr.encReset, .encConfig, .encSeed], ¬ runsPast s .enc i) → current 2 ∧ current 3) ∧
      ((∀ i ∈ [Instr.encReset, .encNext, .encDegq, .encSelq], ¬ runsPast s .enc i) → current 6) ∧
      (¬ runsPast s .dec .decReset → (runsPast s .dec .decIngest → s.dec.paramsSet = true) → current 4) ∧
      ((∀ i ∈ [Instr.decReset, .decIngest], ¬ runsPast s .dec i) → current 5) ∧
      ((∀ i ∈ [Instr.decReset, .decIngest, .decDegq], ¬ runsPast s .dec i) → current 7) ∧
      ((∀ u i, executing s u = some i → commandError s i = none) → current 8)) ∧
    (∀ w, (s.enc.phase = .idle → readLoc s (.src w) = 0) ∧
      ∀ b, b < 4 →
        (s.enc.phase ≠ .idle → (readLoc s (.src w)).extractLsb' (8 * b) 8 =
          if 4 * w + b < s.params.kMax * s.params.chunkSize then s.enc.src.read (4 * w + b) else 0) ∧
        (readLoc s (.out w)).extractLsb' (8 * b) 8 =
          (if 4 * w + b < s.params.chunkSize then s.enc.outBuf.read (4 * w + b) else 0) ∧
        (readLoc s (.inBuf w)).extractLsb' (8 * b) 8 =
          (if 4 * w + b < s.params.chunkSize then s.dec.inBuf.read (4 * w + b) else 0)) ∧
    (∀ w b, b < 32 →
      (readLoc s (.emask w)).getLsbD b = (decide (32 * w + b < s.params.kMax) && s.enc.mask.testBit (32 * w + b)) ∧
      (readLoc s (.dmask w)).getLsbD b = (decide (32 * w + b < s.params.kMax) && s.dec.mask.testBit (32 * w + b)) ∧
      (readLoc s (.known w)).getLsbD b = (decide (32 * w + b < s.params.kMax) && s.dec.known.testBit (32 * w + b))) ∧
    (∀ d, readLoc s (.ecdf d) = (if d = 0 then 0 else s.enc.cdf.read d) ∧
      readLoc s (.dcdf d) = (if d = 0 then 0 else s.dec.cdf.read d) ∧
      readLoc s (.edeg d) = s.enc.degTab.read d ∧ readLoc s (.ddeg d) = s.dec.degTab.read d) ∧
    (let o := readLoc s (.reg .decOutcome);
      o.extractLsb' 4 12 = 0 ∧
      (o.extractLsb' 0 4, o.extractLsb' 16 16) =
        (match s.dec.outcome with
          | .none => ((0 : BitVec 4), (0 : BitVec 16))
          | .resolved => (1, 0)
          | .pending e => (2, e)
          | .replaced e => (3, e)
          | .discarded => (4, 0)
          | .rejected => (5, 0)
          | .dropped => (6, 0))) ∧
    (∀ x ∈ ([(.err, s.err), (.encMode, if s.enc.degMode = .stub then 1 else 0), (.encCdfK, s.enc.cdfK),
        (.encL, s.enc.len), (.encK, s.enc.k), (.encP, s.enc.pad), (.encSeedNext, s.enc.seedNext),
        (.outSeed, s.enc.outSeed), (.outK, s.enc.outK), (.outP, s.enc.outPad), (.outDeg, s.enc.outDeg),
        (.encResult, s.enc.result), (.decMode, if s.dec.degMode = .stub then 1 else 0), (.decCdfK, s.dec.cdfK),
        (.decK, s.dec.k), (.decP, s.dec.pad), (.decResolved, s.dec.resolved), (.decPendCount, s.dec.pendCount),
        (.inSeed, s.dec.inSeed), (.inK, s.dec.inK), (.inP, s.dec.inPad), (.decResult, s.dec.result),
        (.decNewly, s.dec.newly)] : List (Reg × Word)), readLoc s (.reg x.1) = x.2) ∧
    (s.lastErr = none → readLoc s (.reg .lastErr) = 0) ∧
    ∀ e : ErrRecord, s.lastErr = some e →
      readLoc s (.reg .lastErr) = (e.src.setWidth 32 <<< 8) + BitVec.ofNat 32 e.code.code

/-- R92 cases 1 to 5: while a `DEC_INGEST` runs, whatever the free value drawn, `DEC_BUSY` reads 1, `DEC_COMPLETE` reads its
value before or after, `DEC_RESOLVED` and `W_KNOWN` read between their values before and after, and `DEC_PEND_COUNT`
reads at most N_PEND. -/
def Obligations.ProgressReadsStayInBounds : Prop :=
  ∀ (s t : State) (a : Word), s.Inv → s.dec.latch.busy = true → decodeOpcode s.dec.latch.op = some .decIngest →
    exec .decIngest s = .next t →
    let v := (hostRead s a).rdata
    (locOf s.params a = .reg .status →
      v.getLsbD 1 = true ∧ (v.getLsbD 5 = s.dec.complete ∨ v.getLsbD 5 = t.dec.complete)) ∧
    (locOf s.params a = .reg .decResolved →
      s.dec.resolved.toNat ≤ v.toNat ∧ v.toNat ≤ t.dec.resolved.toNat) ∧
    (locOf s.params a = .reg .decPendCount → v.toNat ≤ s.params.nPend) ∧
    ∀ w, locOf s.params a = .known w → ∀ b, b < 32 →
      (s.dec.known.testBit (32 * w + b) = true → v.getLsbD b = true) ∧
      (v.getLsbD b = true → t.dec.known.testBit (32 * w + b) = true)

/-- R39, R40, R46, R47, R51, R83, R85, R89, R97, R351: while a unit is busy, a write to one of its inputs raises `UNIT_BUSY`
and is lost; no host write but one to `CTRL` changes anything of the unit. -/
def Obligations.BusyUnitInputsAreLocked : Prop :=
  ∀ (s : State) (a v : Word),
    (s.enc.latch.busy = true →
      (locOf s.params a ≠ .reg .ctrl → (hostWrite s a v).enc = s.enc) ∧
      ((locOf s.params a = .reg .encMode ∨ locOf s.params a = .reg .encCdfK ∨ (∃ w, locOf s.params a = .src w) ∨
          (∃ d, d ≠ 0 ∧ locOf s.params a = .ecdf d) ∨ ∃ i, locOf s.params a = .edeg i) →
        hostWrite s a v = s.raise .unitBusy 0)) ∧
    (s.dec.latch.busy = true →
      (locOf s.params a ≠ .reg .ctrl → (hostWrite s a v).dec = s.dec) ∧
      ((locOf s.params a = .reg .decMode ∨ locOf s.params a = .reg .decCdfK ∨ locOf s.params a = .reg .inSeed ∨
          locOf s.params a = .reg .inK ∨ locOf s.params a = .reg .inP ∨ (∃ w, locOf s.params a = .inBuf w) ∨
          (∃ d, d ≠ 0 ∧ locOf s.params a = .dcdf d) ∨ ∃ i, locOf s.params a = .ddeg i) →
        hostWrite s a v = s.raise .unitBusy 0))

/-- R39, R40, R85: with the encoder not busy, its mode, `ENC_CDF_K` and tables are written in IDLE and LOADING, and refused
with `BAD_STATE` in RUNNING; word 0 of `W_ECDF` ignores the write in every phase. -/
def Obligations.EncoderConfigurationWrites : Prop :=
  ∀ (s : State) (a v : Word), s.enc.latch.busy = false → s.enc.cdf.wf → s.enc.degTab.wf →
    (s.enc.phase = .running →
      (locOf s.params a = .reg .encMode ∨ locOf s.params a = .reg .encCdfK ∨
        (∃ d, d ≠ 0 ∧ locOf s.params a = .ecdf d) ∨ ∃ i, locOf s.params a = .edeg i) →
      hostWrite s a v = s.raise .badState 0) ∧
    (locOf s.params a = .ecdf 0 → hostWrite s a v = s) ∧
    (s.enc.phase ≠ .running →
      let t := hostWrite s a v
      (locOf s.params a = .reg .encMode →
        t = { s with enc := { s.enc with degMode := t.enc.degMode } } ∧
          (t.enc.degMode = .stub ↔ v.getLsbD 0 = true)) ∧
      (locOf s.params a = .reg .encCdfK → t = { s with enc := { s.enc with cdfK := v } }) ∧
      (∀ d, d ≠ 0 → locOf s.params a = .ecdf d →
        t = { s with enc := { s.enc with cdf := t.enc.cdf } } ∧
          ∀ x, t.enc.cdf.read x = if x = d then v else s.enc.cdf.read x) ∧
      (∀ i, locOf s.params a = .edeg i →
        t = { s with enc := { s.enc with degTab := t.enc.degTab } } ∧
          ∀ x, t.enc.degTab.read x = if x = i then v else s.enc.degTab.read x))

/-- R46, R47, R51, R85: with the decoder not busy, its mode, `DEC_CDF_K` and tables are written until the parameters are
learned and refused with `BAD_STATE` afterwards; `IN_SEED`, `IN_K` and `IN_P` are written always. -/
def Obligations.DecoderConfigurationWrites : Prop :=
  ∀ (s : State) (a v : Word), s.dec.latch.busy = false → s.dec.cdf.wf → s.dec.degTab.wf →
    (s.dec.paramsSet = true →
      (locOf s.params a = .reg .decMode ∨ locOf s.params a = .reg .decCdfK ∨
        (∃ d, d ≠ 0 ∧ locOf s.params a = .dcdf d) ∨ ∃ i, locOf s.params a = .ddeg i) →
      hostWrite s a v = s.raise .badState 0) ∧
    (locOf s.params a = .dcdf 0 → hostWrite s a v = s) ∧
    (locOf s.params a = .reg .inSeed → hostWrite s a v = { s with dec := { s.dec with inSeed := v } }) ∧
    (locOf s.params a = .reg .inK → hostWrite s a v = { s with dec := { s.dec with inK := v } }) ∧
    (locOf s.params a = .reg .inP → hostWrite s a v = { s with dec := { s.dec with inPad := v } }) ∧
    (s.dec.paramsSet = false →
      let t := hostWrite s a v
      (locOf s.params a = .reg .decMode →
        t = { s with dec := { s.dec with degMode := t.dec.degMode } } ∧
          (t.dec.degMode = .stub ↔ v.getLsbD 0 = true)) ∧
      (locOf s.params a = .reg .decCdfK → t = { s with dec := { s.dec with cdfK := v } }) ∧
      (∀ d, d ≠ 0 → locOf s.params a = .dcdf d →
        t = { s with dec := { s.dec with cdf := t.dec.cdf } } ∧
          ∀ x, t.dec.cdf.read x = if x = d then v else s.dec.cdf.read x) ∧
      (∀ i, locOf s.params a = .ddeg i →
        t = { s with dec := { s.dec with degTab := t.dec.degTab } } ∧
          ∀ x, t.dec.degTab.read x = if x = i then v else s.dec.degTab.read x))

/-- R83: a write to `W_SRC[w]` with the encoder not busy. It is refused outside LOADING (`BAD_STATE`) and for a word beyond
`ENC_L` (`BAD_ARG`); otherwise exactly the bytes of the word below `ENC_L` are written, little-endian. -/
def Obligations.SourceWindowWritesTheBuffer : Prop :=
  ∀ (s : State) (a v : Word) (w : Nat), locOf s.params a = .src w → s.enc.latch.busy = false →
    (s.enc.phase ≠ .loading → hostWrite s a v = s.raise .badState 0) ∧
    (s.enc.phase = .loading → s.enc.len.toNat ≤ 4 * w → hostWrite s a v = s.raise .badArg 0) ∧
    (s.enc.phase = .loading → 4 * w < s.enc.len.toNat → s.enc.src.wf →
      let t := hostWrite s a v
      t = { s with enc := { s.enc with src := t.enc.src } } ∧
      ∀ o, t.enc.src.read o =
        if 4 * w ≤ o ∧ o < 4 * w + 4 ∧ o < s.enc.len.toNat then v.extractLsb' (8 * (o - 4 * w)) 8
        else s.enc.src.read o)

/-- R89, R82: a write to `W_IN[w]` with the decoder not busy writes exactly the bytes of the word below S, little-endian,
and with both units idle the word reads back with the bytes beyond S as 0. -/
def Obligations.InputWindowWritesThePayload : Prop :=
  ∀ (s : State) (a v : Word) (w : Nat), locOf s.params a = .inBuf w → s.dec.latch.busy = false → s.dec.inBuf.wf →
    let t := hostWrite s a v
    t = { s with dec := { s.dec with inBuf := t.dec.inBuf } } ∧
    (∀ o, t.dec.inBuf.read o =
      if 4 * w ≤ o ∧ o < 4 * w + 4 ∧ o < s.params.chunkSize then v.extractLsb' (8 * (o - 4 * w)) 8
      else s.dec.inBuf.read o) ∧
    (s.enc.latch.busy = false → ∀ b, b < 4 →
      (hostRead t a).rdata.extractLsb' (8 * b) 8 =
        if 4 * w + b < s.params.chunkSize then v.extractLsb' (8 * b) 8 else 0)

/-- R38: a write to `CTRL` performs the reset of `ENC_RESET` or `DEC_RESET` for each unit whose bit is 1, at once and busy
or not, and changes nothing else; a read returns 0. -/
def Obligations.ControlWriteResetsTheUnits : Prop :=
  ∀ (s : State) (a v : Word), locOf s.params a = .reg .ctrl →
    ∃ te td, exec .encReset s = .next te ∧ exec .decReset s = .next td ∧
      hostWrite s a v =
        { s with
          enc := if v.getLsbD 0 = true then te.enc else s.enc
          dec := if v.getLsbD 1 = true then td.dec else s.dec } ∧
      (hostRead s a).rdata = 0

/-! ### Invariants and rules of the whole block -/

/-- R68, R340: the POR column, for every legal build and any RAM contents: every register but the constant ones reads 0 (so
both units are idle, the phase IDLE, no parameters, ROBUST mode, no error), the latches, `OUTBUF`, `EMASK`, `DMASK`,
`KNOWN` and every `valid` are 0, the other RAMs hold the contents drawn, and the invariant holds. `State.reset` is one of
these; its build and contents are the model's choice (log 1, log 2). -/
def Obligations.PowerOnHasTheInvariant : Prop :=
  (∀ (p : Params) (d : PorContents), p.wf → d.wf p →
    let s := State.por p d
    s.Inv ∧ s.params = p ∧
    (∀ r, r ∉ [Reg.id, .cfgS, .cfgKmax, .cfgNpend, .cfgDegtabLen] → readReg s r = 0) ∧
    (∀ u, s.latchOf u = { busy := false, op := 0, a0 := 0, a1 := 0, a2 := 0 }) ∧
    (∀ w, readLoc s (.src w) = 0 ∧ readLoc s (.out w) = 0 ∧ readLoc s (.emask w) = 0 ∧ readLoc s (.dmask w) = 0 ∧
      readLoc s (.known w) = 0) ∧
    s.dec.pend.length = p.nPend ∧ (∀ sl ∈ s.dec.pend, sl.valid = false) ∧
    s.enc.src = d.src ∧ s.enc.cdf = d.ecdf ∧ s.enc.degTab = d.edegTab ∧ s.dec.cdf = d.dcdf ∧
    s.dec.degTab = d.ddegTab ∧ s.dec.inBuf = d.inBuf ∧ s.dec.chunk = d.chunk) ∧
  (∃ p d, p.wf ∧ d.wf p ∧ State.reset = State.por p d) ∧ State.reset.Inv

/-- R65, with R12, R55, R56, R61: every step from a state with the invariant leads to a state with the invariant. -/
def Obligations.StepKeepsTheInvariant : Prop :=
  ∀ s t : State, s.Inv → step s = .next t → t.Inv

/-- 60_exceptions.md: there is no fatal error. From a state with the invariant every step has a next state, whatever the
host does. -/
def Obligations.SoundBlockNeverStops : Prop :=
  ∀ s : State, s.Inv → ∃ t, step s = .next t

/-- R49, R60, R249: only a decoder reset un-resolves a chunk, changes a resolved chunk, lowers `DEC_RESOLVED` or takes
`DEC_COMPLETE` back. -/
def Obligations.OnlyResetsForgetResolvedChunks : Prop :=
  ∀ s t : State, s.Inv → step s = .next t →
    ((∃ i, s.dec.known.testBit i = true ∧ t.dec.known.testBit i = false) ∨
      (∃ i b, s.dec.known.testBit i = true ∧ b < s.params.chunkSize ∧
        chunkByte s.params t.dec.chunk i b ≠ chunkByte s.params s.dec.chunk i b) ∨
      t.dec.resolved.toNat < s.dec.resolved.toNat ∨
      (s.dec.complete = true ∧ t.dec.complete = false)) →
    resetsDecoder s

/-- R200: the encoder's phase changes only as the table lists: to IDLE at a reset, from IDLE to LOADING at an `ENC_CONFIG`
with a legal length, from LOADING to RUNNING at an `ENC_SEED`. -/
def Obligations.PhaseChangesOnlyAsListed : Prop :=
  ∀ s t : State, step s = .next t → t.enc.phase ≠ s.enc.phase →
    (t.enc.phase = .idle ∧ resetsEncoder s) ∨
    (s.enc.phase = .idle ∧ t.enc.phase = .loading ∧ completingCommand s = some .encConfig ∧
      1 ≤ s.enc.latch.a0.toNat ∧ s.enc.latch.a0.toNat ≤ s.params.kMax * s.params.chunkSize) ∨
    (s.enc.phase = .loading ∧ t.enc.phase = .running ∧ completingCommand s = some .encSeed)

/-- R56, R83: no step changes the buffer of an encoder that stays in RUNNING. -/
def Obligations.SealedBufferNeverChanges : Prop :=
  ∀ s t : State, step s = .next t → s.enc.phase = .running → t.enc.phase = .running →
    t.enc.src = s.enc.src ∧ t.enc.len = s.enc.len ∧ t.enc.k = s.enc.k ∧ t.enc.pad = s.enc.pad

/-- R93: an encoder and a decoder command complete in either order with the same effect, each leaving the other unit alone;
only `LAST_ERR` depends on the order, and it ends with the later command's error if that command raises one. -/
def Obligations.UnitsCompleteInEitherOrder : Prop :=
  ∀ (i j : Instr) (s : State), i.unit = .enc → j.unit = .dec →
    ∃ t t' u u', exec i s = .next t ∧ exec j t = .next t' ∧ exec j s = .next u ∧ exec i u = .next u' ∧
      t.dec = s.dec ∧ u.enc = s.enc ∧ t' = { u' with lastErr := t'.lastErr } ∧
      (∀ e, commandError s j = some e → t'.lastErr = some { src := j.opcode, code := e }) ∧
      (∀ e, commandError s i = some e → u'.lastErr = some { src := i.opcode, code := e })

/-- R246: peeling ends with an empty worklist after at most one entry more than there are slots, in every state: the
bound of the model's loop (log 17, DEDUCED) leaves nothing behind. -/
def Obligations.PeelingEmptiesTheWorklist : Prop :=
  ∀ (p : Params) (d : Decoder) (j : Nat) (v : Memory 8), (peel p d j v).2.1 = []

/-- R255 item 4: after an accepted droplet whose selected set is `{i}`, chunk `i` is resolved, whatever the state was. -/
def Obligations.DegreeOneDropletResolvesItsChunk : Prop :=
  ∀ (s : State) (i : Nat), headerAccepted s → (ingestSelection s.params s.dec).mask = 2 ^ i →
    ∃ t, exec .decIngest s = .next t ∧ t.dec.known.testBit i = true

/-- R255 item 5: with K = 1, the first accepted droplet with a non-empty set completes the transfer, also after empty
droplets that have set the parameters. -/
def Obligations.SingleChunkTransferCompletes : Prop :=
  ∀ s : State, s.Inv → s.dec.resolved = 0 → headerAccepted s → s.dec.inK = 1 →
    (ingestSelection s.params s.dec).mask ≠ 0 →
    ∃ t, exec .decIngest s = .next t ∧ t.dec.complete = true ∧ t.dec.outcome = .resolved ∧ t.dec.newly = 1

/-- R255 item 2: a droplet ingested twice in a row. The second resolves nothing and changes neither the Chunk Knowledge Set
nor the Pending Droplet Set, and its outcome follows from the first's. -/
def Obligations.ImmediateDuplicateChangesNothing : Prop :=
  ∀ s t u : State, s.Inv → headerAccepted s → exec .decIngest s = .next t → exec .decIngest t = .next u →
    u.dec.newly = 0 ∧ u.dec.known = t.dec.known ∧ u.dec.chunk = t.dec.chunk ∧ u.dec.resolved = t.dec.resolved ∧
    u.dec.pendCount = t.dec.pendCount ∧ u.dec.pend = t.dec.pend ∧
    ((t.dec.outcome = .resolved ∨ t.dec.outcome = .discarded) → u.dec.outcome = .discarded) ∧
    (∀ e, (t.dec.outcome = .pending e ∨ t.dec.outcome = .replaced e) → u.dec.outcome = .replaced e) ∧
    (t.dec.outcome = .dropped → u.dec.outcome = .dropped)

/-! ### The transfer -/

/-- R206: two streams started at the same seed on the same buffer and configuration are identical, and droplet `n` of a
stream started at `s` has seed `s + n` modulo 2^32. -/
def Obligations.EncoderStreamIsRestartable : Prop :=
  ∀ (n : Nat) (s s' : State), s.Inv → s'.Inv → s.params = s'.params → s.enc.phase ≠ .idle → s'.enc.phase ≠ .idle →
    Encoder.sameTransfer s.params s.enc s'.enc → tableReady s.enc.degMode s.enc.cdfK s.enc.k →
    s.enc.latch.a0 = s'.enc.latch.a0 →
    ∃ t t' u u', exec .encSeed s = .next t ∧ exec .encSeed s' = .next t' ∧
      execMany .encNext (n + 1) t = .next u ∧ execMany .encNext (n + 1) t' = .next u' ∧
      Encoder.sameDroplet u.enc u'.enc ∧ u.enc.outSeed = s.enc.latch.a0 + BitVec.ofNat 32 n

/-- R207: a droplet of degree 1 with `EMASK = {i}` carries the bytes of chunk `i`, the last chunk's pad as zeros. -/
def Obligations.DegreeOnePayloadIsTheChunk : Prop :=
  ∀ (s t : State) (i : Nat), s.Inv → s.enc.phase = .running → tableReady s.enc.degMode s.enc.cdfK s.enc.k →
    exec .encNext s = .next t → t.enc.outDeg = 1 → t.enc.mask = 2 ^ i →
    ∀ b, b < s.params.chunkSize →
      t.enc.outBuf.read b = s.enc.src.read (i * s.params.chunkSize + b) ∧
      (s.enc.len.toNat ≤ i * s.params.chunkSize + b → t.enc.outBuf.read b = 0)

/-- R205, R353, R256: a decoder that holds an emitted droplet in its input registers, with a degree configuration that agrees
with the encoder's, selects the set the encoder combined: the payload is the XOR of those source chunks. -/
def Obligations.EmittedDropletMatchesTheSource : Prop :=
  ∀ (s t : State) (d : Decoder), s.Inv → s.enc.phase = .running → tableReady s.enc.degMode s.enc.cdfK s.enc.k →
    exec .encNext s = .next t → DegConfig.agrees s.params s.enc.k.toNat s.enc.degConfig d.degConfig →
    d.inSeed = t.enc.outSeed → d.inK = t.enc.outK →
    (∀ b, b < s.params.chunkSize → d.inBuf.read b = t.enc.outBuf.read b) →
    (ingestSelection s.params d).mask = t.enc.mask ∧
    payloadMatches s.params s.enc.src (ingestSelection s.params d).mask d.inBuf

/-- R256: a `DEC_INGEST` of a droplet that matches a source buffer keeps the decoder in agreement with that buffer: every
resolved chunk, old or new, has the source chunk's value, and every pending payload is the XOR of its unknown chunks. -/
def Obligations.IngestKeepsAgreementWithTheSource : Prop :=
  ∀ (s t : State) (source : Memory 8), s.Inv → s.dec.agrees s.params source →
    payloadMatches s.params source (ingestSelection s.params s.dec).mask s.dec.inBuf →
    exec .decIngest s = .next t → t.dec.agrees s.params source

/-- R256, R251: a complete decoder that agrees with a source buffer reads that buffer out, byte for byte up to `Lout`. -/
def Obligations.CompleteOutputEqualsTheSource : Prop :=
  ∀ (s : State) (source : Memory 8), s.Inv → s.dec.agrees s.params source → s.dec.complete = true →
    4 * s.dec.latch.a0.toNat < s.dec.k.toNat * s.params.chunkSize - s.dec.pad.toNat →
    ∃ t, exec .decReadOut s = .next t ∧
      ∀ b, b < 4 → t.dec.result.extractLsb' (8 * b) 8 =
        if 4 * s.dec.latch.a0.toNat + b < s.dec.k.toNat * s.params.chunkSize - s.dec.pad.toNat
        then source.read (4 * s.dec.latch.a0.toNat + b) else 0
end

