-- ==== Sys2Proof/Laws/State.lean ====
section
/-!
SUPPORT. One lemma per field per named update of the state, each true by unfolding, so that no later proof unfolds a
record update.
-/

namespace Sys2Proof.Laws

open Sys2Proof Sys2Proof.Machine


/-! ### `State.raise` -/

@[simp] theorem raise_params (e : ErrCode) (src : Opcode) (s : State) : (s.raise e src).params = s.params := rfl
@[simp] theorem raise_arg0 (e : ErrCode) (src : Opcode) (s : State) : (s.raise e src).arg0 = s.arg0 := rfl
@[simp] theorem raise_arg1 (e : ErrCode) (src : Opcode) (s : State) : (s.raise e src).arg1 = s.arg1 := rfl
@[simp] theorem raise_arg2 (e : ErrCode) (src : Opcode) (s : State) : (s.raise e src).arg2 = s.arg2 := rfl
@[simp] theorem raise_err (e : ErrCode) (src : Opcode) (s : State) : (s.raise e src).err = s.err ||| e.bit := rfl
@[simp] theorem raise_lastErr (e : ErrCode) (src : Opcode) (s : State) : (s.raise e src).lastErr = some { src := src, code := e } := rfl
@[simp] theorem raise_enc (e : ErrCode) (src : Opcode) (s : State) : (s.raise e src).enc = s.enc := rfl
@[simp] theorem raise_dec (e : ErrCode) (src : Opcode) (s : State) : (s.raise e src).dec = s.dec := rfl
@[simp] theorem raise_rdata (e : ErrCode) (src : Opcode) (s : State) : (s.raise e src).rdata = s.rdata := rfl
@[simp] theorem raise_events (e : ErrCode) (src : Opcode) (s : State) : (s.raise e src).events = s.events := rfl
@[simp] theorem raise_draws (e : ErrCode) (src : Opcode) (s : State) : (s.raise e src).draws = s.draws := rfl

/-! ### `State.ackErr` -/

@[simp] theorem ackErr_params (v : Word) (s : State) : (s.ackErr v).params = s.params := rfl
@[simp] theorem ackErr_arg0 (v : Word) (s : State) : (s.ackErr v).arg0 = s.arg0 := rfl
@[simp] theorem ackErr_arg1 (v : Word) (s : State) : (s.ackErr v).arg1 = s.arg1 := rfl
@[simp] theorem ackErr_arg2 (v : Word) (s : State) : (s.ackErr v).arg2 = s.arg2 := rfl
@[simp] theorem ackErr_err (v : Word) (s : State) : (s.ackErr v).err = s.err &&& ~~~(v &&& errBits) := rfl
@[simp] theorem ackErr_lastErr (v : Word) (s : State) : (s.ackErr v).lastErr = s.lastErr := rfl
@[simp] theorem ackErr_enc (v : Word) (s : State) : (s.ackErr v).enc = s.enc := rfl
@[simp] theorem ackErr_dec (v : Word) (s : State) : (s.ackErr v).dec = s.dec := rfl
@[simp] theorem ackErr_rdata (v : Word) (s : State) : (s.ackErr v).rdata = s.rdata := rfl
@[simp] theorem ackErr_events (v : Word) (s : State) : (s.ackErr v).events = s.events := rfl
@[simp] theorem ackErr_draws (v : Word) (s : State) : (s.ackErr v).draws = s.draws := rfl

/-! ### `State.finish` -/

@[simp] theorem finishEnc_params (s : State) : (s.finish .enc).params = s.params := rfl
@[simp] theorem finishEnc_arg0 (s : State) : (s.finish .enc).arg0 = s.arg0 := rfl
@[simp] theorem finishEnc_arg1 (s : State) : (s.finish .enc).arg1 = s.arg1 := rfl
@[simp] theorem finishEnc_arg2 (s : State) : (s.finish .enc).arg2 = s.arg2 := rfl
@[simp] theorem finishEnc_err (s : State) : (s.finish .enc).err = s.err := rfl
@[simp] theorem finishEnc_lastErr (s : State) : (s.finish .enc).lastErr = s.lastErr := rfl
@[simp] theorem finishEnc_enc (s : State) : (s.finish .enc).enc = { s.enc with latch := s.enc.latch.idle } := rfl
@[simp] theorem finishEnc_dec (s : State) : (s.finish .enc).dec = s.dec := rfl
@[simp] theorem finishEnc_rdata (s : State) : (s.finish .enc).rdata = s.rdata := rfl
@[simp] theorem finishEnc_events (s : State) : (s.finish .enc).events = s.events := rfl
@[simp] theorem finishEnc_draws (s : State) : (s.finish .enc).draws = s.draws := rfl
@[simp] theorem finishDec_params (s : State) : (s.finish .dec).params = s.params := rfl
@[simp] theorem finishDec_arg0 (s : State) : (s.finish .dec).arg0 = s.arg0 := rfl
@[simp] theorem finishDec_arg1 (s : State) : (s.finish .dec).arg1 = s.arg1 := rfl
@[simp] theorem finishDec_arg2 (s : State) : (s.finish .dec).arg2 = s.arg2 := rfl
@[simp] theorem finishDec_err (s : State) : (s.finish .dec).err = s.err := rfl
@[simp] theorem finishDec_lastErr (s : State) : (s.finish .dec).lastErr = s.lastErr := rfl
@[simp] theorem finishDec_enc (s : State) : (s.finish .dec).enc = s.enc := rfl
@[simp] theorem finishDec_dec (s : State) : (s.finish .dec).dec = { s.dec with latch := s.dec.latch.idle } := rfl
@[simp] theorem finishDec_rdata (s : State) : (s.finish .dec).rdata = s.rdata := rfl
@[simp] theorem finishDec_events (s : State) : (s.finish .dec).events = s.events := rfl
@[simp] theorem finishDec_draws (s : State) : (s.finish .dec).draws = s.draws := rfl

/-! ### `State.fail` -/

@[simp] theorem failEnc_params (e : ErrCode) (src : Opcode) (s : State) : (s.fail .enc e src).params = s.params := rfl
@[simp] theorem failEnc_arg0 (e : ErrCode) (src : Opcode) (s : State) : (s.fail .enc e src).arg0 = s.arg0 := rfl
@[simp] theorem failEnc_arg1 (e : ErrCode) (src : Opcode) (s : State) : (s.fail .enc e src).arg1 = s.arg1 := rfl
@[simp] theorem failEnc_arg2 (e : ErrCode) (src : Opcode) (s : State) : (s.fail .enc e src).arg2 = s.arg2 := rfl
@[simp] theorem failEnc_err (e : ErrCode) (src : Opcode) (s : State) : (s.fail .enc e src).err = s.err ||| e.bit := rfl
@[simp] theorem failEnc_lastErr (e : ErrCode) (src : Opcode) (s : State) : (s.fail .enc e src).lastErr = some { src := src, code := e } := rfl
@[simp] theorem failEnc_enc (e : ErrCode) (src : Opcode) (s : State) : (s.fail .enc e src).enc = { s.enc with latch := s.enc.latch.idle } := rfl
@[simp] theorem failEnc_dec (e : ErrCode) (src : Opcode) (s : State) : (s.fail .enc e src).dec = s.dec := rfl
@[simp] theorem failEnc_rdata (e : ErrCode) (src : Opcode) (s : State) : (s.fail .enc e src).rdata = s.rdata := rfl
@[simp] theorem failEnc_events (e : ErrCode) (src : Opcode) (s : State) : (s.fail .enc e src).events = s.events := rfl
@[simp] theorem failEnc_draws (e : ErrCode) (src : Opcode) (s : State) : (s.fail .enc e src).draws = s.draws := rfl
@[simp] theorem failDec_params (e : ErrCode) (src : Opcode) (s : State) : (s.fail .dec e src).params = s.params := rfl
@[simp] theorem failDec_arg0 (e : ErrCode) (src : Opcode) (s : State) : (s.fail .dec e src).arg0 = s.arg0 := rfl
@[simp] theorem failDec_arg1 (e : ErrCode) (src : Opcode) (s : State) : (s.fail .dec e src).arg1 = s.arg1 := rfl
@[simp] theorem failDec_arg2 (e : ErrCode) (src : Opcode) (s : State) : (s.fail .dec e src).arg2 = s.arg2 := rfl
@[simp] theorem failDec_err (e : ErrCode) (src : Opcode) (s : State) : (s.fail .dec e src).err = s.err ||| e.bit := rfl
@[simp] theorem failDec_lastErr (e : ErrCode) (src : Opcode) (s : State) : (s.fail .dec e src).lastErr = some { src := src, code := e } := rfl
@[simp] theorem failDec_enc (e : ErrCode) (src : Opcode) (s : State) : (s.fail .dec e src).enc = s.enc := rfl
@[simp] theorem failDec_dec (e : ErrCode) (src : Opcode) (s : State) : (s.fail .dec e src).dec = { s.dec with latch := s.dec.latch.idle } := rfl
@[simp] theorem failDec_rdata (e : ErrCode) (src : Opcode) (s : State) : (s.fail .dec e src).rdata = s.rdata := rfl
@[simp] theorem failDec_events (e : ErrCode) (src : Opcode) (s : State) : (s.fail .dec e src).events = s.events := rfl
@[simp] theorem failDec_draws (e : ErrCode) (src : Opcode) (s : State) : (s.fail .dec e src).draws = s.draws := rfl

/-! ### `State.setLatch`, `State.latchOf` -/

@[simp] theorem setLatchEnc_params (l : Latch) (s : State) : (s.setLatch .enc l).params = s.params := rfl
@[simp] theorem setLatchEnc_arg0 (l : Latch) (s : State) : (s.setLatch .enc l).arg0 = s.arg0 := rfl
@[simp] theorem setLatchEnc_arg1 (l : Latch) (s : State) : (s.setLatch .enc l).arg1 = s.arg1 := rfl
@[simp] theorem setLatchEnc_arg2 (l : Latch) (s : State) : (s.setLatch .enc l).arg2 = s.arg2 := rfl
@[simp] theorem setLatchEnc_err (l : Latch) (s : State) : (s.setLatch .enc l).err = s.err := rfl
@[simp] theorem setLatchEnc_lastErr (l : Latch) (s : State) : (s.setLatch .enc l).lastErr = s.lastErr := rfl
@[simp] theorem setLatchEnc_enc (l : Latch) (s : State) : (s.setLatch .enc l).enc = { s.enc with latch := l } := rfl
@[simp] theorem setLatchEnc_dec (l : Latch) (s : State) : (s.setLatch .enc l).dec = s.dec := rfl
@[simp] theorem setLatchEnc_rdata (l : Latch) (s : State) : (s.setLatch .enc l).rdata = s.rdata := rfl
@[simp] theorem setLatchEnc_events (l : Latch) (s : State) : (s.setLatch .enc l).events = s.events := rfl
@[simp] theorem setLatchEnc_draws (l : Latch) (s : State) : (s.setLatch .enc l).draws = s.draws := rfl
@[simp] theorem setLatchDec_params (l : Latch) (s : State) : (s.setLatch .dec l).params = s.params := rfl
@[simp] theorem setLatchDec_arg0 (l : Latch) (s : State) : (s.setLatch .dec l).arg0 = s.arg0 := rfl
@[simp] theorem setLatchDec_arg1 (l : Latch) (s : State) : (s.setLatch .dec l).arg1 = s.arg1 := rfl
@[simp] theorem setLatchDec_arg2 (l : Latch) (s : State) : (s.setLatch .dec l).arg2 = s.arg2 := rfl
@[simp] theorem setLatchDec_err (l : Latch) (s : State) : (s.setLatch .dec l).err = s.err := rfl
@[simp] theorem setLatchDec_lastErr (l : Latch) (s : State) : (s.setLatch .dec l).lastErr = s.lastErr := rfl
@[simp] theorem setLatchDec_enc (l : Latch) (s : State) : (s.setLatch .dec l).enc = s.enc := rfl
@[simp] theorem setLatchDec_dec (l : Latch) (s : State) : (s.setLatch .dec l).dec = { s.dec with latch := l } := rfl
@[simp] theorem setLatchDec_rdata (l : Latch) (s : State) : (s.setLatch .dec l).rdata = s.rdata := rfl
@[simp] theorem setLatchDec_events (l : Latch) (s : State) : (s.setLatch .dec l).events = s.events := rfl
@[simp] theorem setLatchDec_draws (l : Latch) (s : State) : (s.setLatch .dec l).draws = s.draws := rfl
@[simp] theorem latchOf_enc (s : State) : s.latchOf .enc = s.enc.latch := rfl
@[simp] theorem latchOf_dec (s : State) : s.latchOf .dec = s.dec.latch := rfl

/-! ### Soft resets of the block -/

@[simp] theorem encSoftReset_params (s : State) : (s.encSoftReset).params = s.params := rfl
@[simp] theorem encSoftReset_arg0 (s : State) : (s.encSoftReset).arg0 = s.arg0 := rfl
@[simp] theorem encSoftReset_arg1 (s : State) : (s.encSoftReset).arg1 = s.arg1 := rfl
@[simp] theorem encSoftReset_arg2 (s : State) : (s.encSoftReset).arg2 = s.arg2 := rfl
@[simp] theorem encSoftReset_err (s : State) : (s.encSoftReset).err = s.err := rfl
@[simp] theorem encSoftReset_lastErr (s : State) : (s.encSoftReset).lastErr = s.lastErr := rfl
@[simp] theorem encSoftReset_enc (s : State) : (s.encSoftReset).enc = s.enc.softReset := rfl
@[simp] theorem encSoftReset_dec (s : State) : (s.encSoftReset).dec = s.dec := rfl
@[simp] theorem encSoftReset_rdata (s : State) : (s.encSoftReset).rdata = s.rdata := rfl
@[simp] theorem encSoftReset_events (s : State) : (s.encSoftReset).events = s.events := rfl
@[simp] theorem encSoftReset_draws (s : State) : (s.encSoftReset).draws = s.draws := rfl
@[simp] theorem decSoftReset_params (s : State) : (s.decSoftReset).params = s.params := rfl
@[simp] theorem decSoftReset_arg0 (s : State) : (s.decSoftReset).arg0 = s.arg0 := rfl
@[simp] theorem decSoftReset_arg1 (s : State) : (s.decSoftReset).arg1 = s.arg1 := rfl
@[simp] theorem decSoftReset_arg2 (s : State) : (s.decSoftReset).arg2 = s.arg2 := rfl
@[simp] theorem decSoftReset_err (s : State) : (s.decSoftReset).err = s.err := rfl
@[simp] theorem decSoftReset_lastErr (s : State) : (s.decSoftReset).lastErr = s.lastErr := rfl
@[simp] theorem decSoftReset_enc (s : State) : (s.decSoftReset).enc = s.enc := rfl
@[simp] theorem decSoftReset_dec (s : State) : (s.decSoftReset).dec = s.dec.softReset := rfl
@[simp] theorem decSoftReset_rdata (s : State) : (s.decSoftReset).rdata = s.rdata := rfl
@[simp] theorem decSoftReset_events (s : State) : (s.decSoftReset).events = s.events := rfl
@[simp] theorem decSoftReset_draws (s : State) : (s.decSoftReset).draws = s.draws := rfl

/-! ### `State.setDecResult` -/

@[simp] theorem setDecResult_params (s : State) (v : Word) : (s.setDecResult v).params = s.params := rfl
@[simp] theorem setDecResult_arg0 (s : State) (v : Word) : (s.setDecResult v).arg0 = s.arg0 := rfl
@[simp] theorem setDecResult_arg1 (s : State) (v : Word) : (s.setDecResult v).arg1 = s.arg1 := rfl
@[simp] theorem setDecResult_arg2 (s : State) (v : Word) : (s.setDecResult v).arg2 = s.arg2 := rfl
@[simp] theorem setDecResult_err (s : State) (v : Word) : (s.setDecResult v).err = s.err := rfl
@[simp] theorem setDecResult_lastErr (s : State) (v : Word) : (s.setDecResult v).lastErr = s.lastErr := rfl
@[simp] theorem setDecResult_enc (s : State) (v : Word) : (s.setDecResult v).enc = s.enc := rfl
@[simp] theorem setDecResult_dec (s : State) (v : Word) : (s.setDecResult v).dec = { s.dec with result := v } := rfl
@[simp] theorem setDecResult_rdata (s : State) (v : Word) : (s.setDecResult v).rdata = s.rdata := rfl
@[simp] theorem setDecResult_events (s : State) (v : Word) : (s.setDecResult v).events = s.events := rfl
@[simp] theorem setDecResult_draws (s : State) (v : Word) : (s.setDecResult v).draws = s.draws := rfl

/-! ### `Latch.idle` -/

@[simp] theorem idle_busy (l : Latch) : (l.idle).busy = false := rfl
@[simp] theorem idle_op (l : Latch) : (l.idle).op = l.op := rfl
@[simp] theorem idle_a0 (l : Latch) : (l.idle).a0 = l.a0 := rfl
@[simp] theorem idle_a1 (l : Latch) : (l.idle).a1 = l.a1 := rfl
@[simp] theorem idle_a2 (l : Latch) : (l.idle).a2 = l.a2 := rfl

/-! ### `Encoder.softReset` -/

@[simp] theorem encReset_latch (e : Encoder) : (e.softReset).latch = e.latch.idle := rfl
@[simp] theorem encReset_phase (e : Encoder) : (e.softReset).phase = .idle := rfl
@[simp] theorem encReset_clamped (e : Encoder) : (e.softReset).clamped = false := rfl
@[simp] theorem encReset_degMode (e : Encoder) : (e.softReset).degMode = e.degMode := rfl
@[simp] theorem encReset_cdfK (e : Encoder) : (e.softReset).cdfK = e.cdfK := rfl
@[simp] theorem encReset_len (e : Encoder) : (e.softReset).len = 0 := rfl
@[simp] theorem encReset_k (e : Encoder) : (e.softReset).k = 0 := rfl
@[simp] theorem encReset_pad (e : Encoder) : (e.softReset).pad = 0 := rfl
@[simp] theorem encReset_seedNext (e : Encoder) : (e.softReset).seedNext = 0 := rfl
@[simp] theorem encReset_outSeed (e : Encoder) : (e.softReset).outSeed = 0 := rfl
@[simp] theorem encReset_outK (e : Encoder) : (e.softReset).outK = 0 := rfl
@[simp] theorem encReset_outPad (e : Encoder) : (e.softReset).outPad = 0 := rfl
@[simp] theorem encReset_outDeg (e : Encoder) : (e.softReset).outDeg = 0 := rfl
@[simp] theorem encReset_result (e : Encoder) : (e.softReset).result = 0 := rfl
@[simp] theorem encReset_src (e : Encoder) : (e.softReset).src = e.src := rfl
@[simp] theorem encReset_outBuf (e : Encoder) : (e.softReset).outBuf = [] := rfl
@[simp] theorem encReset_cdf (e : Encoder) : (e.softReset).cdf = e.cdf := rfl
@[simp] theorem encReset_degTab (e : Encoder) : (e.softReset).degTab = e.degTab := rfl
@[simp] theorem encReset_mask (e : Encoder) : (e.softReset).mask = 0 := rfl

/-! ### `Decoder.softReset` -/

@[simp] theorem decReset_latch (d : Decoder) : (d.softReset).latch = d.latch.idle := rfl
@[simp] theorem decReset_paramsSet (d : Decoder) : (d.softReset).paramsSet = false := rfl
@[simp] theorem decReset_clamped (d : Decoder) : (d.softReset).clamped = false := rfl
@[simp] theorem decReset_degMode (d : Decoder) : (d.softReset).degMode = d.degMode := rfl
@[simp] theorem decReset_cdfK (d : Decoder) : (d.softReset).cdfK = d.cdfK := rfl
@[simp] theorem decReset_k (d : Decoder) : (d.softReset).k = 0 := rfl
@[simp] theorem decReset_pad (d : Decoder) : (d.softReset).pad = 0 := rfl
@[simp] theorem decReset_resolved (d : Decoder) : (d.softReset).resolved = 0 := rfl
@[simp] theorem decReset_pendCount (d : Decoder) : (d.softReset).pendCount = 0 := rfl
@[simp] theorem decReset_inSeed (d : Decoder) : (d.softReset).inSeed = d.inSeed := rfl
@[simp] theorem decReset_inK (d : Decoder) : (d.softReset).inK = d.inK := rfl
@[simp] theorem decReset_inPad (d : Decoder) : (d.softReset).inPad = d.inPad := rfl
@[simp] theorem decReset_result (d : Decoder) : (d.softReset).result = 0 := rfl
@[simp] theorem decReset_outcome (d : Decoder) : (d.softReset).outcome = .none := rfl
@[simp] theorem decReset_newly (d : Decoder) : (d.softReset).newly = 0 := rfl
@[simp] theorem decReset_known (d : Decoder) : (d.softReset).known = 0 := rfl
@[simp] theorem decReset_chunk (d : Decoder) : (d.softReset).chunk = d.chunk := rfl
@[simp] theorem decReset_pend (d : Decoder) : (d.softReset).pend = d.pend.map fun sl => { sl with valid := false } := rfl
@[simp] theorem decReset_mask (d : Decoder) : (d.softReset).mask = 0 := rfl
@[simp] theorem decReset_inBuf (d : Decoder) : (d.softReset).inBuf = d.inBuf := rfl
@[simp] theorem decReset_cdf (d : Decoder) : (d.softReset).cdf = d.cdf := rfl
@[simp] theorem decReset_degTab (d : Decoder) : (d.softReset).degTab = d.degTab := rfl

/-! ### `Encoder.recordSelection`, `Decoder.recordSelection`, `Decoder.reject` -/

@[simp] theorem encRecord_latch (e : Encoder) (r : Selection) : (e.recordSelection r).latch = e.latch := rfl
@[simp] theorem encRecord_phase (e : Encoder) (r : Selection) : (e.recordSelection r).phase = e.phase := rfl
@[simp] theorem encRecord_clamped (e : Encoder) (r : Selection) : (e.recordSelection r).clamped = r.clamped := rfl
@[simp] theorem encRecord_degMode (e : Encoder) (r : Selection) : (e.recordSelection r).degMode = e.degMode := rfl
@[simp] theorem encRecord_cdfK (e : Encoder) (r : Selection) : (e.recordSelection r).cdfK = e.cdfK := rfl
@[simp] theorem encRecord_len (e : Encoder) (r : Selection) : (e.recordSelection r).len = e.len := rfl
@[simp] theorem encRecord_k (e : Encoder) (r : Selection) : (e.recordSelection r).k = e.k := rfl
@[simp] theorem encRecord_pad (e : Encoder) (r : Selection) : (e.recordSelection r).pad = e.pad := rfl
@[simp] theorem encRecord_seedNext (e : Encoder) (r : Selection) : (e.recordSelection r).seedNext = e.seedNext := rfl
@[simp] theorem encRecord_outSeed (e : Encoder) (r : Selection) : (e.recordSelection r).outSeed = e.outSeed := rfl
@[simp] theorem encRecord_outK (e : Encoder) (r : Selection) : (e.recordSelection r).outK = e.outK := rfl
@[simp] theorem encRecord_outPad (e : Encoder) (r : Selection) : (e.recordSelection r).outPad = e.outPad := rfl
@[simp] theorem encRecord_outDeg (e : Encoder) (r : Selection) : (e.recordSelection r).outDeg = e.outDeg := rfl
@[simp] theorem encRecord_result (e : Encoder) (r : Selection) : (e.recordSelection r).result = BitVec.ofNat 32 r.deg := rfl
@[simp] theorem encRecord_src (e : Encoder) (r : Selection) : (e.recordSelection r).src = e.src := rfl
@[simp] theorem encRecord_outBuf (e : Encoder) (r : Selection) : (e.recordSelection r).outBuf = e.outBuf := rfl
@[simp] theorem encRecord_cdf (e : Encoder) (r : Selection) : (e.recordSelection r).cdf = e.cdf := rfl
@[simp] theorem encRecord_degTab (e : Encoder) (r : Selection) : (e.recordSelection r).degTab = e.degTab := rfl
@[simp] theorem encRecord_mask (e : Encoder) (r : Selection) : (e.recordSelection r).mask = r.mask := rfl
@[simp] theorem decRecord_latch (d : Decoder) (r : Selection) : (d.recordSelection r).latch = d.latch := rfl
@[simp] theorem decRecord_paramsSet (d : Decoder) (r : Selection) : (d.recordSelection r).paramsSet = d.paramsSet := rfl
@[simp] theorem decRecord_clamped (d : Decoder) (r : Selection) : (d.recordSelection r).clamped = r.clamped := rfl
@[simp] theorem decRecord_degMode (d : Decoder) (r : Selection) : (d.recordSelection r).degMode = d.degMode := rfl
@[simp] theorem decRecord_cdfK (d : Decoder) (r : Selection) : (d.recordSelection r).cdfK = d.cdfK := rfl
@[simp] theorem decRecord_k (d : Decoder) (r : Selection) : (d.recordSelection r).k = d.k := rfl
@[simp] theorem decRecord_pad (d : Decoder) (r : Selection) : (d.recordSelection r).pad = d.pad := rfl
@[simp] theorem decRecord_resolved (d : Decoder) (r : Selection) : (d.recordSelection r).resolved = d.resolved := rfl
@[simp] theorem decRecord_pendCount (d : Decoder) (r : Selection) : (d.recordSelection r).pendCount = d.pendCount := rfl
@[simp] theorem decRecord_inSeed (d : Decoder) (r : Selection) : (d.recordSelection r).inSeed = d.inSeed := rfl
@[simp] theorem decRecord_inK (d : Decoder) (r : Selection) : (d.recordSelection r).inK = d.inK := rfl
@[simp] theorem decRecord_inPad (d : Decoder) (r : Selection) : (d.recordSelection r).inPad = d.inPad := rfl
@[simp] theorem decRecord_result (d : Decoder) (r : Selection) : (d.recordSelection r).result = BitVec.ofNat 32 r.deg := rfl
@[simp] theorem decRecord_outcome (d : Decoder) (r : Selection) : (d.recordSelection r).outcome = d.outcome := rfl
@[simp] theorem decRecord_newly (d : Decoder) (r : Selection) : (d.recordSelection r).newly = d.newly := rfl
@[simp] theorem decRecord_known (d : Decoder) (r : Selection) : (d.recordSelection r).known = d.known := rfl
@[simp] theorem decRecord_chunk (d : Decoder) (r : Selection) : (d.recordSelection r).chunk = d.chunk := rfl
@[simp] theorem decRecord_pend (d : Decoder) (r : Selection) : (d.recordSelection r).pend = d.pend := rfl
@[simp] theorem decRecord_mask (d : Decoder) (r : Selection) : (d.recordSelection r).mask = r.mask := rfl
@[simp] theorem decRecord_inBuf (d : Decoder) (r : Selection) : (d.recordSelection r).inBuf = d.inBuf := rfl
@[simp] theorem decRecord_cdf (d : Decoder) (r : Selection) : (d.recordSelection r).cdf = d.cdf := rfl
@[simp] theorem decRecord_degTab (d : Decoder) (r : Selection) : (d.recordSelection r).degTab = d.degTab := rfl
@[simp] theorem reject_latch (d : Decoder) : (d.reject).latch = d.latch := rfl
@[simp] theorem reject_paramsSet (d : Decoder) : (d.reject).paramsSet = d.paramsSet := rfl
@[simp] theorem reject_clamped (d : Decoder) : (d.reject).clamped = d.clamped := rfl
@[simp] theorem reject_degMode (d : Decoder) : (d.reject).degMode = d.degMode := rfl
@[simp] theorem reject_cdfK (d : Decoder) : (d.reject).cdfK = d.cdfK := rfl
@[simp] theorem reject_k (d : Decoder) : (d.reject).k = d.k := rfl
@[simp] theorem reject_pad (d : Decoder) : (d.reject).pad = d.pad := rfl
@[simp] theorem reject_resolved (d : Decoder) : (d.reject).resolved = d.resolved := rfl
@[simp] theorem reject_pendCount (d : Decoder) : (d.reject).pendCount = d.pendCount := rfl
@[simp] theorem reject_inSeed (d : Decoder) : (d.reject).inSeed = d.inSeed := rfl
@[simp] theorem reject_inK (d : Decoder) : (d.reject).inK = d.inK := rfl
@[simp] theorem reject_inPad (d : Decoder) : (d.reject).inPad = d.inPad := rfl
@[simp] theorem reject_result (d : Decoder) : (d.reject).result = d.result := rfl
@[simp] theorem reject_outcome (d : Decoder) : (d.reject).outcome = .rejected := rfl
@[simp] theorem reject_newly (d : Decoder) : (d.reject).newly = 0 := rfl
@[simp] theorem reject_known (d : Decoder) : (d.reject).known = d.known := rfl
@[simp] theorem reject_chunk (d : Decoder) : (d.reject).chunk = d.chunk := rfl
@[simp] theorem reject_pend (d : Decoder) : (d.reject).pend = d.pend := rfl
@[simp] theorem reject_mask (d : Decoder) : (d.reject).mask = d.mask := rfl
@[simp] theorem reject_inBuf (d : Decoder) : (d.reject).inBuf = d.inBuf := rfl
@[simp] theorem reject_cdf (d : Decoder) : (d.reject).cdf = d.cdf := rfl
@[simp] theorem reject_degTab (d : Decoder) : (d.reject).degTab = d.degTab := rfl

/-! ### `Decoder.learn` -/

@[simp] theorem learn_latch (d : Decoder) : d.learn.latch = d.latch := by
  unfold Decoder.learn
  split <;> rfl
@[simp] theorem learn_clamped (d : Decoder) : d.learn.clamped = d.clamped := by
  unfold Decoder.learn
  split <;> rfl
@[simp] theorem learn_degMode (d : Decoder) : d.learn.degMode = d.degMode := by
  unfold Decoder.learn
  split <;> rfl
@[simp] theorem learn_cdfK (d : Decoder) : d.learn.cdfK = d.cdfK := by
  unfold Decoder.learn
  split <;> rfl
@[simp] theorem learn_resolved (d : Decoder) : d.learn.resolved = d.resolved := by
  unfold Decoder.learn
  split <;> rfl
@[simp] theorem learn_pendCount (d : Decoder) : d.learn.pendCount = d.pendCount := by
  unfold Decoder.learn
  split <;> rfl
@[simp] theorem learn_inSeed (d : Decoder) : d.learn.inSeed = d.inSeed := by
  unfold Decoder.learn
  split <;> rfl
@[simp] theorem learn_inK (d : Decoder) : d.learn.inK = d.inK := by
  unfold Decoder.learn
  split <;> rfl
@[simp] theorem learn_inPad (d : Decoder) : d.learn.inPad = d.inPad := by
  unfold Decoder.learn
  split <;> rfl
@[simp] theorem learn_result (d : Decoder) : d.learn.result = d.result := by
  unfold Decoder.learn
  split <;> rfl
@[simp] theorem learn_outcome (d : Decoder) : d.learn.outcome = d.outcome := by
  unfold Decoder.learn
  split <;> rfl
@[simp] theorem learn_newly (d : Decoder) : d.learn.newly = d.newly := by
  unfold Decoder.learn
  split <;> rfl
@[simp] theorem learn_known (d : Decoder) : d.learn.known = d.known := by
  unfold Decoder.learn
  split <;> rfl
@[simp] theorem learn_chunk (d : Decoder) : d.learn.chunk = d.chunk := by
  unfold Decoder.learn
  split <;> rfl
@[simp] theorem learn_pend (d : Decoder) : d.learn.pend = d.pend := by
  unfold Decoder.learn
  split <;> rfl
@[simp] theorem learn_mask (d : Decoder) : d.learn.mask = d.mask := by
  unfold Decoder.learn
  split <;> rfl
@[simp] theorem learn_inBuf (d : Decoder) : d.learn.inBuf = d.inBuf := by
  unfold Decoder.learn
  split <;> rfl
@[simp] theorem learn_cdf (d : Decoder) : d.learn.cdf = d.cdf := by
  unfold Decoder.learn
  split <;> rfl
@[simp] theorem learn_degTab (d : Decoder) : d.learn.degTab = d.degTab := by
  unfold Decoder.learn
  split <;> rfl
@[simp] theorem learn_paramsSet (d : Decoder) : d.learn.paramsSet = true := by
  unfold Decoder.learn
  split
  · assumption
  · rfl
theorem learn_k (d : Decoder) : d.learn.k = if d.paramsSet then d.k else d.inK := by
  unfold Decoder.learn
  split <;> rfl
theorem learn_pad (d : Decoder) : d.learn.pad = if d.paramsSet then d.pad else d.inPad := by
  unfold Decoder.learn
  split <;> rfl

end Sys2Proof.Laws
end

