-- ==== Sys2Proof/Laws/Commands.lean ====
section
/-!
SUPPORT. What the shared operations, the meanings, the host's accesses and the step can do, each said once.
-/

namespace Sys2Proof.Laws

open Sys2Proof Sys2Proof.Machine

/-- The shape of a command (R301, R303): it ends at its first failing check, or has its effect; either way the unit is
freed. -/
theorem complete_cases (s : State) (u : UnitId) (opc : Opcode) (check : Option ErrCode) (effect : State) :
    (∃ e, check = some e ∧ s.complete u opc check effect = s.fail u e opc) ∨
    (check = none ∧ s.complete u opc check effect = effect.finish u) := by
  cases check with
  | none => exact .inr ⟨rfl, rfl⟩
  | some e => exact .inl ⟨e, rfl, rfl⟩

@[simp] theorem complete_some (s : State) (u : UnitId) (opc : Opcode) (e : ErrCode) (effect : State) :
    s.complete u opc (some e) effect = s.fail u e opc := rfl

@[simp] theorem complete_none (s : State) (u : UnitId) (opc : Opcode) (effect : State) :
    s.complete u opc none effect = effect.finish u := rfl

/-! ### `exec`, one equation per command -/

theorem exec_encReset (s : State) : exec .encReset s = .next s.encSoftReset := rfl
theorem exec_encConfig (s : State) :
    exec .encConfig s = .next (s.complete .enc 0x02 (encConfigCheck s) (encConfigEffect s)) := rfl
theorem exec_encSeed (s : State) :
    exec .encSeed s = .next (s.complete .enc 0x03 (encSeedCheck s) (encSeedEffect s)) := rfl
theorem exec_encNext (s : State) :
    exec .encNext s = .next (s.complete .enc 0x04 (encNextCheck s) (encNextEffect s)) := rfl
theorem exec_encDegq (s : State) :
    exec .encDegq s = .next (s.complete .enc 0x05 (encDegqCheck s) (encDegqEffect s)) := rfl
theorem exec_encSelq (s : State) :
    exec .encSelq s = .next (s.complete .enc 0x06 (encSelqCheck s) (encSelqEffect s)) := rfl
theorem exec_decReset (s : State) : exec .decReset s = .next s.decSoftReset := rfl
theorem exec_decIngest (s : State) : exec .decIngest s = .next ((ingest s).finish .dec) := rfl
theorem exec_decRecon (s : State) :
    exec .decRecon s = .next (s.complete .dec 0x13 (decReconCheck s) (decReconEffect s)) := rfl
theorem exec_decReadOut (s : State) :
    exec .decReadOut s = .next (s.complete .dec 0x14 (decReadOutCheck s) (decReadOutEffect s)) := rfl
theorem exec_decReadChunk (s : State) :
    exec .decReadChunk s = .next (s.complete .dec 0x15 (decReadChunkCheck s) (decReadChunkEffect s)) := rfl
theorem exec_decDegq (s : State) :
    exec .decDegq s = .next (s.complete .dec 0x16 (decDegqCheck s) (decDegqEffect s)) := rfl
theorem exec_decReadPend (s : State) :
    exec .decReadPend s = .next (s.complete .dec 0x17 (decReadPendCheck s) (decReadPendEffect s)) := rfl

/-- No command of the block stops. -/
theorem exec_total (i : Instr) (s : State) : ∃ t, exec i s = .next t := by
  cases i <;> exact ⟨_, rfl⟩

/-- What `DEC_INGEST` can do (R240, R241): reject and record only that, or accept. -/
theorem ingest_cases (s : State) :
    (∃ e, ingestCheck s = some e ∧ ingest s = ({ s with dec := s.dec.reject }).raise e 0x12) ∨
    (ingestCheck s = none ∧ (ingestAccepted s.params s.dec).2 = none ∧
      ingest s = { s with dec := (ingestAccepted s.params s.dec).1 }) ∨
    (∃ e, ingestCheck s = none ∧ (ingestAccepted s.params s.dec).2 = some e ∧
      ingest s = ({ s with dec := (ingestAccepted s.params s.dec).1 }).raise e 0x12) := by
  unfold ingest
  cases h : ingestCheck s with
  | some e => exact .inl ⟨e, rfl, rfl⟩
  | none =>
    cases h2 : (ingestAccepted s.params s.dec).2 with
    | none => exact .inr (.inl ⟨rfl, rfl, rfl⟩)
    | some e => exact .inr (.inr ⟨e, rfl, rfl, rfl⟩)

/-- What storing a droplet can do (R245): replace, insert, or drop. -/
theorem pendStore_cases (d : Decoder) (m : Mask) (pay : Memory 8) :
    (∃ e, findSameMask d m = some e ∧ pendStore d m pay =
      ({ d with pend := d.pend.modify e fun sl => { sl with pay := pay },
                outcome := .replaced (BitVec.ofNat 16 e) }, none)) ∨
    (∃ e, findSameMask d m = none ∧ findFree d = some e ∧ pendStore d m pay =
      ({ d with pend := d.pend.set e { valid := true, mask := m, pay := pay }, pendCount := d.pendCount + 1,
                outcome := .pending (BitVec.ofNat 16 e) }, none)) ∨
    (findSameMask d m = none ∧ findFree d = none ∧
      pendStore d m pay = ({ d with outcome := .dropped }, some .pendingOverflow)) := by
  unfold pendStore
  cases h : findSameMask d m with
  | some e => exact .inl ⟨e, rfl, rfl⟩
  | none =>
    cases h2 : findFree d with
    | some e => exact .inr (.inl ⟨e, rfl, rfl, rfl⟩)
    | none => exact .inr (.inr ⟨rfl, rfl, rfl⟩)

/-! ### The host's writes -/

/-- The issue step (R122): an error recorded, or a free unit's latches filled with an opcode of that unit. -/
theorem issue_cases (v : Word) (s : State) :
    (∃ e, issue v s = s.raise e (v.extractLsb' 0 8)) ∨
    (∃ i, decodeOpcode (v.extractLsb' 0 8) = some i ∧ (s.latchOf i.unit).busy = false ∧
      issue v s = s.setLatch i.unit (s.issueLatch (v.extractLsb' 0 8))) := by
  unfold issue decode
  by_cases hr : v.extractLsb' 8 24 ≠ 0
  · simp only [hr, ne_eq, not_false_eq_true, if_true]
    exact .inl ⟨_, rfl⟩
  · simp only [hr, if_false]
    cases hd : decodeOpcode (v.extractLsb' 0 8) with
    | none => exact .inl ⟨_, rfl⟩
    | some i =>
      simp only
      cases hb : (s.latchOf i.unit).busy with
      | true => exact .inl ⟨_, rfl⟩
      | false => exact .inr ⟨i, rfl, hb, by simp⟩

theorem guardEncConfig_cases (s effect : State) :
    (∃ e, guardEncConfig s effect = s.raise e 0) ∨
    (s.enc.latch.busy = false ∧ s.enc.phase ≠ .running ∧ guardEncConfig s effect = effect) := by
  unfold guardEncConfig
  split
  · exact .inl ⟨_, rfl⟩
  · split
    · exact .inl ⟨_, rfl⟩
    · exact .inr ⟨Bool.eq_false_of_not_eq_true ‹_›, ‹_›, rfl⟩

theorem guardDecConfig_cases (s effect : State) :
    (∃ e, guardDecConfig s effect = s.raise e 0) ∨
    (s.dec.latch.busy = false ∧ s.dec.paramsSet = false ∧ guardDecConfig s effect = effect) := by
  unfold guardDecConfig
  split
  · exact .inl ⟨_, rfl⟩
  · split
    · exact .inl ⟨_, rfl⟩
    · exact .inr ⟨Bool.eq_false_of_not_eq_true ‹_›, Bool.eq_false_of_not_eq_true ‹_›, rfl⟩

theorem guardDecInput_cases (s effect : State) :
    (∃ e, guardDecInput s effect = s.raise e 0) ∨
    (s.dec.latch.busy = false ∧ guardDecInput s effect = effect) := by
  unfold guardDecInput
  split
  · exact .inl ⟨_, rfl⟩
  · exact .inr ⟨Bool.eq_false_of_not_eq_true ‹_›, rfl⟩

theorem writeSrc_cases (s : State) (w : Nat) (v : Word) :
    (∃ e, writeSrc s w v = s.raise e 0) ∨
    (s.enc.latch.busy = false ∧ s.enc.phase = .loading ∧ 4 * w < s.enc.len.toNat ∧ writeSrc s w v =
      { s with enc := { s.enc with src := writeBufferWord s.enc.len.toNat s.enc.src w v } }) := by
  unfold writeSrc
  split
  · exact .inl ⟨_, rfl⟩
  · split
    · exact .inl ⟨_, rfl⟩
    · split
      · exact .inl ⟨_, rfl⟩
      · exact .inr ⟨Bool.eq_false_of_not_eq_true ‹_›, not_not.1 ‹_›, by omega, rfl⟩

/-! ### The step -/

/-- What a step can do (R304): a host access; the completion of a busy unit's command, at the state with the oldest event
taken away (or one more choice drawn); or nothing. -/
theorem step_cases {s t : State} (h : step s = .next t) :
    (∃ a es, s.events = .access a :: es ∧ t = hostAccess { s with events := es } a) ∨
    (∃ u i es n, completing s = some u ∧ completingCommand s = some i ∧ i.unit = u ∧ (s.latchOf u).busy = true ∧
      decodeOpcode (s.latchOf u).op = some i ∧ exec i { s with events := es, draws := n } = .next t) ∨
    (completing s = none ∧ ∃ es, t = { s with events := es }) := by
  have key : ∀ (u : UnitId) (s' : State), s'.latchOf u = s.latchOf u → (s.latchOf u).busy = true →
      completeUnit u s' = .next t →
      ∃ i, executing s u = some i ∧ i.unit = u ∧ decodeOpcode (s.latchOf u).op = some i ∧ exec i s' = .next t := by
    intro u s' hl hb hc
    unfold completeUnit at hc
    rw [hl, if_pos hb] at hc
    cases hd : decodeOpcode (s.latchOf u).op with
    | none => rw [hd] at hc; cases hc
    | some i =>
      rw [hd] at hc
      simp only at hc
      split at hc
      · exact ⟨i, by simp [executing, hb, hd], ‹_›, rfl, hc⟩
      · cases hc
  unfold step at h
  cases he : s.events with
  | cons ev es =>
    rw [he] at h
    cases ev with
    | access a =>
      left
      exact ⟨a, es, rfl, by simpa using h.symm⟩
    | complete u =>
      simp only at h
      cases hb : (s.latchOf u).busy with
      | true =>
        obtain ⟨i, h1, h2, h3, h4⟩ := key u { s with events := es } (by cases u <;> rfl) hb h
        have hcu : completing s = some u := by simp [completing, he, hb]
        exact .inr (.inl ⟨u, i, es, s.draws, hcu, by simp [completingCommand, hcu, h1], h2, hb, h3, h4⟩)
      | false =>
        right; right
        have hb' : (State.latchOf { s with events := es } u).busy = false := by cases u <;> exact hb
        unfold completeUnit at h
        rw [if_neg (by simp [hb'])] at h
        exact ⟨by simp [completing, he, hb], es, by simpa using h.symm⟩
  | nil =>
    rw [he] at h
    simp only [quietStep] at h
    cases h1 : s.enc.latch.busy with
    | true =>
      cases h2 : s.dec.latch.busy with
      | true =>
        simp only [h1, h2, Bool.and_self, if_true] at h
        have hcu : completing s = some (if Config.freeUnit s.draws then .enc else .dec) := by
          simp [completing, he, h1, h2]
        have hb : (s.latchOf (if Config.freeUnit s.draws then .enc else .dec)).busy = true := by
          split <;> simp [h1, h2]
        obtain ⟨i, k1, k2, k3, k4⟩ := key _ _ (by split <;> rfl) hb h
        exact .inr (.inl ⟨_, i, s.events, s.draws + 1, hcu, by simp [completingCommand, hcu, k1], k2, hb, k3, k4⟩)
      | false =>
        simp only [h1, h2, Bool.and_false, if_true, Bool.false_eq_true, if_false] at h
        have hcu : completing s = some .enc := by simp [completing, he, h1, h2]
        obtain ⟨i, k1, k2, k3, k4⟩ := key .enc s rfl h1 h
        exact .inr (.inl ⟨_, i, s.events, s.draws, hcu, by simp [completingCommand, hcu, k1], k2, h1, k3, k4⟩)
    | false =>
      simp only [h1, Bool.false_and, Bool.false_eq_true, if_false] at h
      cases h2 : s.dec.latch.busy with
      | true =>
        have hcu : completing s = some .dec := by simp [completing, he, h1, h2]
        obtain ⟨i, k1, k2, k3, k4⟩ := key .dec s rfl h2 h
        exact .inr (.inl ⟨_, i, s.events, s.draws, hcu, by simp [completingCommand, hcu, k1], k2, h2, k3, k4⟩)
      | false =>
        right; right
        unfold completeUnit at h
        rw [if_neg (by simp [h2])] at h
        refine ⟨by simp [completing, he, h1, h2], s.events, ?_⟩
        simpa using h.symm

end Sys2Proof.Laws
end

