-- ==== Sys2Proof/Laws/Mask.lean ====
section
/-!
SUPPORT. The laws of masks (00_scope.md R12): bits after each operation, and `popcount`.
-/

namespace Sys2Proof.Laws

open Sys2Proof Sys2Proof.Machine

@[simp] theorem testBit_insert (m : Mask) (i j : Nat) :
    (Mask.insert m i).testBit j = (m.testBit j || decide (i = j)) := by
  simp [Mask.insert, Nat.testBit_or, Nat.testBit_two_pow]

@[simp] theorem testBit_without (m k : Mask) (j : Nat) :
    (Mask.without m k).testBit j = (m.testBit j && !k.testBit j) := by
  simp only [Mask.without, Nat.testBit_xor, Nat.testBit_and]
  cases m.testBit j <;> cases k.testBit j <;> rfl

@[simp] theorem testBit_clear (m : Mask) (i j : Nat) :
    (Mask.clear m i).testBit j = (m.testBit j && !decide (i = j)) := by
  simp [Mask.clear, Nat.testBit_two_pow]

theorem without_lt {m k : Mask} {n : Nat} (h : m < 2 ^ n) : Mask.without m k < 2 ^ n :=
  Nat.xor_lt_two_pow h (lt_of_le_of_lt Nat.and_le_left h)

theorem clear_lt {m : Mask} {i n : Nat} (h : m < 2 ^ n) : Mask.clear m i < 2 ^ n := without_lt h

theorem insert_lt {m : Mask} {i n : Nat} (h : m < 2 ^ n) (hi : i < n) : Mask.insert m i < 2 ^ n :=
  Nat.or_lt_two_pow h (Nat.pow_lt_pow_right (by omega) hi)

theorem lt_of_testBit {m : Mask} {n i : Nat} (h : m < 2 ^ n) (hi : m.testBit i = true) : i < n := by
  by_contra hc
  have := Nat.testBit_lt_two_pow (lt_of_lt_of_le h (Nat.pow_le_pow_right (by omega) (Nat.le_of_not_lt hc)))
  simp [this] at hi

theorem disjoint_iff {m k : Mask} : m &&& k = 0 ↔ ∀ i, m.testBit i = true → k.testBit i = false := by
  constructor
  · intro h i hi
    have := congrArg (fun x => Nat.testBit x i) h
    simpa [Nat.testBit_and, hi] using this
  · intro h
    apply Nat.eq_of_testBit_eq
    intro i
    simp only [Nat.testBit_and, Nat.zero_testBit]
    cases hm : m.testBit i with
    | false => rfl
    | true => simp [h i hm]

@[simp] theorem popcount_zero (n : Nat) : popcount n 0 = 0 := by simp [popcount]

theorem popcount_succ (n : Nat) (m : Mask) :
    popcount (n + 1) m = popcount n m + if m.testBit n = true then 1 else 0 := by
  simp [popcount, List.range_succ, List.countP_append, List.countP_cons]

theorem popcount_le (n : Nat) (m : Mask) : popcount n m ≤ n := by
  have := List.countP_le_length (p := fun i => m.testBit i) (l := List.range n)
  simpa [popcount] using this

/-- Counting beyond the width of a mask adds nothing. -/
theorem popcount_of_le {k n : Nat} (h : k ≤ n) {m : Mask} (hm : m < 2 ^ k) : popcount n m = popcount k m := by
  induction n, h using Nat.le_induction with
  | base => rfl
  | succ n hn ih =>
    rw [popcount_succ, ih, if_neg]
    · rfl
    · intro hb
      have := lt_of_testBit hm hb
      omega

theorem popcount_eq_zero_iff {n : Nat} {m : Mask} : popcount n m = 0 ↔ ∀ i, i < n → m.testBit i = false := by
  simp [popcount, List.countP_eq_zero]

/-- Masks that agree below `n` have the same count. -/
theorem popcount_congr {n : Nat} {m m' : Mask} (h : ∀ i, i < n → m.testBit i = m'.testBit i) :
    popcount n m = popcount n m' := by
  unfold popcount
  apply List.countP_congr
  intro i hi
  rw [h i (List.mem_range.1 hi)]

theorem popcount_insert {n i : Nat} {m : Mask} (hi : i < n) (hm : m.testBit i = false) :
    popcount n (Mask.insert m i) = popcount n m + 1 := by
  induction n with
  | zero => omega
  | succ n ih =>
    rw [popcount_succ, popcount_succ, testBit_insert]
    by_cases hin : i = n
    · subst hin
      rw [popcount_congr (m := Mask.insert m i) (m' := m)]
      · simp [hm]
      · intro j hj
        simp [show i ≠ j by omega]
    · rw [ih (by omega)]
      simp [hin]
      omega

theorem popcount_clear {n i : Nat} {m : Mask} (hi : i < n) (hm : m.testBit i = true) :
    popcount n m = popcount n (Mask.clear m i) + 1 := by
  have h1 : popcount n (Mask.insert (Mask.clear m i) i) = popcount n m := by
    apply popcount_congr
    intro j _
    simp only [testBit_insert, testBit_clear]
    by_cases hij : i = j
    · subst hij
      simp [hm]
    · simp [hij]
  rw [← h1, popcount_insert hi (by simp)]

/-- A mask with a bit below `n` has its least one as `firstIndex`. -/
theorem firstIndex_spec {n : Nat} {m : Mask} (h : popcount n m ≠ 0) :
    firstIndex n m < n ∧ m.testBit (firstIndex n m) = true := by
  have hex : ∃ i ∈ List.range n, m.testBit i = true := by
    by_contra hc
    push Not at hc
    exact h (popcount_eq_zero_iff.2 fun i hi => by simpa using hc i (List.mem_range.2 hi))
  unfold firstIndex
  cases hf : (List.range n).find? fun i => m.testBit i with
  | none =>
    rw [List.find?_eq_none] at hf
    obtain ⟨i, hi, hb⟩ := hex
    exact absurd hb (hf i hi)
  | some i =>
    exact ⟨List.mem_range.1 (List.mem_of_find?_eq_some hf), List.find?_some hf⟩

/-- In a mask of one bit every set bit is `firstIndex`. -/
theorem eq_firstIndex_of_popcount_one {n : Nat} {m : Mask} (h : popcount n m = 1) {i : Nat} (hi : i < n)
    (hb : m.testBit i = true) : i = firstIndex n m := by
  by_contra hne
  obtain ⟨hf, hfb⟩ := firstIndex_spec (n := n) (m := m) (by omega)
  have h1 := popcount_clear hi hb
  have h2 := popcount_clear (m := Mask.clear m i) hf (by simp [hfb, hne])
  omega

/-- The mask of a list of indices. -/
theorem testBit_maskOf (l : List Nat) (i : Nat) : (maskOf l).testBit i = decide (i ∈ l) := by
  have h : ∀ (l : List Nat) (m : Mask),
      (l.foldl Mask.insert m).testBit i = (m.testBit i || decide (i ∈ l)) := by
    intro l
    induction l with
    | nil => simp
    | cons a l ih =>
      intro m
      rw [List.foldl_cons, ih, testBit_insert]
      by_cases hia : i = a
      · subst hia
        simp
      · have hai : a ≠ i := fun h => hia h.symm
        simp [hia, hai]
  simpa [maskOf] using h l 0

end Sys2Proof.Laws
end

