-- ==== Sys2Proof/Laws/Memory.lean ====
section
/-!
SUPPORT. The laws of the RAM operations of Machine/Ops.lean: what each one reads as afterwards, and that each keeps the
canonical form and the RAM's size.
-/

namespace Sys2Proof.Laws

open Sys2Proof Sys2Proof.Machine

variable {w : Nat}

@[simp] theorem read_nil (a : Nat) : Memory.read ([] : Memory w) a = 0 := rfl

theorem read_cons (k : Nat) (v : BitVec w) (m : Memory w) (a : Nat) :
    Memory.read ((k, v) :: m) a = if k = a then v else m.read a := rfl

theorem wf_nil : Memory.wf ([] : Memory w) := ⟨List.Pairwise.nil, by simp⟩

theorem wf_cons {k : Nat} {v : BitVec w} {m : Memory w} :
    Memory.wf ((k, v) :: m) ↔ (∀ c ∈ m, k < c.1) ∧ v ≠ 0 ∧ m.wf := by
  simp only [Memory.wf, List.pairwise_cons, List.mem_cons, forall_eq_or_imp]
  tauto

/-- A canonical RAM whose entries all lie above `a` reads 0 at `a`. -/
theorem read_eq_zero_of_lt {m : Memory w} {a : Nat} (h : ∀ c ∈ m, a < c.1) : m.read a = 0 := by
  induction m with
  | nil => rfl
  | cons c m ih =>
    obtain ⟨k, v⟩ := c
    have hk := h (k, v) (by simp)
    rw [read_cons, if_neg (by simp at hk; omega)]
    exact ih fun c hc => h c (List.mem_cons_of_mem _ hc)

/-- Beyond its size a RAM reads 0. -/
theorem read_eq_zero_of_below {n : Nat} {m : Memory w} (h : Memory.below n m) {a : Nat} (ha : n ≤ a) :
    m.read a = 0 := by
  induction m with
  | nil => rfl
  | cons c m ih =>
    obtain ⟨k, v⟩ := c
    have hk := h (k, v) (by simp)
    rw [read_cons, if_neg (by simp at hk; omega)]
    exact ih fun c hc => h c (List.mem_cons_of_mem _ hc)

/-- Entries after a write are old entries or the written one. -/
theorem mem_write {m : Memory w} {a : Nat} {v : BitVec w} {c : Nat × BitVec w} (h : c ∈ m.write a v) :
    c ∈ m ∨ (c = (a, v) ∧ v ≠ 0) := by
  induction m with
  | nil =>
    simp only [Memory.write] at h
    split at h <;> simp_all
  | cons d m ih =>
    obtain ⟨k, x⟩ := d
    simp only [Memory.write] at h
    split at h
    · split at h <;> simp_all [or_comm]
    · split at h
      · split at h
        · simp_all
        · simp_all
          tauto
      · rw [List.mem_cons] at h
        rcases h with rfl | h
        · simp
        · rcases ih h with h | h
          · exact .inl (List.mem_cons_of_mem _ h)
          · exact .inr h

theorem write_wf {m : Memory w} (h : m.wf) (a : Nat) (v : BitVec w) : (m.write a v).wf := by
  induction m with
  | nil =>
    simp only [Memory.write]
    split
    · exact wf_nil
    · exact wf_cons.2 ⟨by simp, by assumption, wf_nil⟩
  | cons c m ih =>
    obtain ⟨k, x⟩ := c
    obtain ⟨hlt, hx, hm⟩ := wf_cons.1 h
    simp only [Memory.write]
    split
    · rename_i hak
      split
      · exact h
      · rename_i hv
        refine wf_cons.2 ⟨?_, hv, h⟩
        intro c hc
        rcases List.mem_cons.1 hc with rfl | hc
        · exact hak
        · exact lt_trans hak (hlt c hc)
    · split
      · rename_i hak
        split
        · exact hm
        · rename_i hv
          exact wf_cons.2 ⟨by simpa [hak] using hlt, hv, hm⟩
      · refine wf_cons.2 ⟨?_, hx, ih hm⟩
        intro c hc
        rcases mem_write hc with hc | ⟨rfl, -⟩
        · exact hlt c hc
        · simp; omega

theorem write_below {n : Nat} {m : Memory w} (h : Memory.below n m) {a : Nat} (ha : a < n) (v : BitVec w) :
    Memory.below n (m.write a v) := by
  intro c hc
  rcases mem_write hc with hc | ⟨rfl, -⟩
  · exact h c hc
  · exact ha

theorem write_sound {n : Nat} {m : Memory w} (h : Memory.sound n m) {a : Nat} (ha : a < n) (v : BitVec w) :
    Memory.sound n (m.write a v) := ⟨write_wf h.1 a v, write_below h.2 ha v⟩

/-- Reading after a write: the written value at the written address, the old one elsewhere. -/
theorem read_write {m : Memory w} (h : m.wf) (a : Nat) (v : BitVec w) (b : Nat) :
    (m.write a v).read b = if a = b then v else m.read b := by
  induction m with
  | nil =>
    simp only [Memory.write]
    split
    · simp_all
    · simp [read_cons]
  | cons c m ih =>
    obtain ⟨k, x⟩ := c
    obtain ⟨hlt, hx, hm⟩ := wf_cons.1 h
    have ih := ih hm
    simp only [Memory.write]
    split
    · rename_i hak
      split
      · rename_i hv
        by_cases hab : a = b
        · subst hab
          rw [if_pos rfl, hv]
          apply read_eq_zero_of_lt
          intro c hc
          rcases List.mem_cons.1 hc with rfl | hc
          · exact hak
          · exact lt_trans hak (hlt c hc)
        · rw [if_neg hab]
      · rw [read_cons]
    · split
      · rename_i hak
        subst hak
        split
        · rename_i hv
          by_cases hab : a = b
          · subst hab
            rw [if_pos rfl, hv]
            exact read_eq_zero_of_lt hlt
          · rw [if_neg hab, read_cons, if_neg hab]
        · simp only [read_cons]
          split <;> rfl
      · simp only [read_cons, ih]
        split <;> split <;> first | rfl | omega

@[simp] theorem read_write_same {m : Memory w} (h : m.wf) (a : Nat) (v : BitVec w) : (m.write a v).read a = v := by
  rw [read_write h, if_pos rfl]

theorem read_write_other {m : Memory w} (h : m.wf) {a b : Nat} (hab : a ≠ b) (v : BitVec w) :
    (m.write a v).read b = m.read b := by
  rw [read_write h, if_neg hab]

/-- Two canonical RAMs that read the same everywhere are equal. -/
theorem eq_of_read_eq {m m' : Memory w} (h : m.wf) (h' : m'.wf) (he : ∀ a, m.read a = m'.read a) : m = m' := by
  induction m generalizing m' with
  | nil =>
    cases m' with
    | nil => rfl
    | cons c m' =>
      obtain ⟨k, v⟩ := c
      have := he k
      rw [read_cons, if_pos rfl] at this
      exact absurd this.symm (wf_cons.1 h').2.1
  | cons c m ih =>
    obtain ⟨k, v⟩ := c
    obtain ⟨hlt, hv, hm⟩ := wf_cons.1 h
    cases m' with
    | nil =>
      have := he k
      rw [read_cons, if_pos rfl] at this
      exact absurd this hv
    | cons c' m' =>
      obtain ⟨k', v'⟩ := c'
      obtain ⟨hlt', hv', hm'⟩ := wf_cons.1 h'
      have hkk : k = k' := by
        rcases lt_trichotomy k k' with hk | hk | hk
        · have h1 := he k
          rw [read_cons, if_pos rfl, read_cons, if_neg (by omega),
            read_eq_zero_of_lt fun c hc => lt_trans hk (hlt' c hc)] at h1
          exact absurd h1 hv
        · exact hk
        · have h1 := he k'
          rw [read_cons, if_neg (by omega), read_eq_zero_of_lt fun c hc => lt_trans hk (hlt c hc), read_cons,
            if_pos rfl] at h1
          exact absurd h1.symm hv'
      subst hkk
      have hvv : v = v' := by simpa [read_cons] using he k
      subst hvv
      rw [ih hm hm']
      intro a
      by_cases hka : k = a
      · subst hka
        rw [read_eq_zero_of_lt hlt, read_eq_zero_of_lt hlt']
      · simpa [read_cons, hka] using he a

/-! ### `Memory.fill` -/

theorem mem_fill {n : Nat} {f : Nat → BitVec w} {c : Nat × BitVec w} :
    c ∈ Memory.fill n f ↔ c.1 < n ∧ c.2 = f c.1 ∧ c.2 ≠ 0 := by
  obtain ⟨a, v⟩ := c
  simp only [Memory.fill, List.mem_filter, List.mem_map, List.mem_range, Prod.mk.injEq, bne_iff_ne, ne_eq]
  constructor
  · rintro ⟨⟨b, hb, rfl, rfl⟩, hv⟩
    exact ⟨hb, rfl, hv⟩
  · rintro ⟨ha, rfl, hv⟩
    exact ⟨⟨a, ha, rfl, rfl⟩, hv⟩

theorem fill_wf (n : Nat) (f : Nat → BitVec w) : (Memory.fill n f).wf := by
  constructor
  · apply List.Pairwise.filter
    rw [List.pairwise_map]
    exact List.pairwise_lt_range
  · intro c hc
    exact (mem_fill.1 hc).2.2

theorem fill_below (n : Nat) (f : Nat → BitVec w) : Memory.below n (Memory.fill n f) :=
  fun _ hc => (mem_fill.1 hc).1

theorem fill_sound (n : Nat) (f : Nat → BitVec w) : Memory.sound n (Memory.fill n f) := ⟨fill_wf n f, fill_below n f⟩

/-- A canonical RAM reads `v ≠ 0` at `a` exactly if it lists `(a, v)`. -/
theorem read_of_mem {m : Memory w} (h : m.wf) {a : Nat} {v : BitVec w} (hm : (a, v) ∈ m) : m.read a = v := by
  induction m with
  | nil => simp at hm
  | cons c m ih =>
    obtain ⟨k, x⟩ := c
    obtain ⟨hlt, hx, hw⟩ := wf_cons.1 h
    rcases List.mem_cons.1 hm with h1 | h1
    · obtain ⟨rfl, rfl⟩ := Prod.mk.inj h1
      rw [read_cons, if_pos rfl]
    · rw [read_cons, if_neg (by have := hlt _ h1; simp at this; omega), ih hw h1]

theorem mem_of_read_ne_zero {m : Memory w} {a : Nat} (h : m.read a ≠ 0) : (a, m.read a) ∈ m := by
  induction m with
  | nil => simp at h
  | cons c m ih =>
    obtain ⟨k, x⟩ := c
    rw [read_cons] at h ⊢
    split
    · simp_all
    · rename_i hk
      rw [if_neg hk] at h
      exact List.mem_cons_of_mem _ (ih h)

@[simp] theorem read_fill (n : Nat) (f : Nat → BitVec w) (a : Nat) :
    (Memory.fill n f).read a = if a < n then f a else 0 := by
  split
  · rename_i ha
    by_cases hf : f a = 0
    · rw [hf]
      by_contra hne
      have := (mem_fill.1 (mem_of_read_ne_zero hne)).2.1
      simp only at this
      rw [hf] at this
      exact hne this
    · exact read_of_mem (fill_wf n f) (mem_fill.2 ⟨ha, rfl, hf⟩)
  · rename_i ha
    exact read_eq_zero_of_below (fill_below n f) (by omega)

/-! ### `Memory.writeBlock` -/

theorem writeBlock_succ (m : Memory w) (base n : Nat) (f : Nat → BitVec w) :
    m.writeBlock base (n + 1) f = (m.writeBlock base n f).write (base + n) (f n) := by
  simp [Memory.writeBlock, List.range_succ]

theorem writeBlock_wf {m : Memory w} (h : m.wf) (base n : Nat) (f : Nat → BitVec w) : (m.writeBlock base n f).wf := by
  induction n with
  | zero => exact h
  | succ n ih =>
    rw [writeBlock_succ]
    exact write_wf ih _ _

theorem writeBlock_below {N : Nat} {m : Memory w} (h : Memory.below N m) {base n : Nat} (hb : base + n ≤ N)
    (f : Nat → BitVec w) : Memory.below N (m.writeBlock base n f) := by
  induction n with
  | zero => exact h
  | succ n ih =>
    rw [writeBlock_succ]
    exact write_below (ih (by omega)) (by omega) _

theorem read_writeBlock {m : Memory w} (h : m.wf) (base n : Nat) (f : Nat → BitVec w) (a : Nat) :
    (m.writeBlock base n f).read a = if base ≤ a ∧ a < base + n then f (a - base) else m.read a := by
  induction n with
  | zero =>
    rw [if_neg (by omega)]
    rfl
  | succ n ih =>
    rw [writeBlock_succ, read_write (writeBlock_wf h base n f), ih]
    by_cases ha : base + n = a
    · subst ha
      rw [if_pos rfl, if_pos (by omega)]
      congr 1
      omega
    · rw [if_neg ha]
      by_cases hb : base ≤ a ∧ a < base + n
      · rw [if_pos hb, if_pos (by omega)]
      · rw [if_neg hb, if_neg (by omega)]

/-! ### Payloads and chunks -/

theorem xorBytes_sound (n : Nat) (p q : Memory 8) : Memory.sound n (xorBytes n p q) := fill_sound _ _

@[simp] theorem read_xorBytes (n : Nat) (p q : Memory 8) (b : Nat) :
    (xorBytes n p q).read b = if b < n then p.read b ^^^ q.read b else 0 := read_fill _ _ _

@[simp] theorem read_chunkOf (p : Params) (m : Memory 8) (i b : Nat) :
    (chunkOf p m i).read b = if b < p.chunkSize then chunkByte p m i b else 0 := read_fill _ _ _

theorem setChunk_sound {p : Params} {m : Memory 8} (h : Memory.sound (p.kMax * p.chunkSize) m) {i : Nat}
    (hi : i < p.kMax) (v : Memory 8) : Memory.sound (p.kMax * p.chunkSize) (setChunk p m i v) := by
  refine ⟨writeBlock_wf h.1 _ _ _, writeBlock_below h.2 ?_ _⟩
  calc i * p.chunkSize + p.chunkSize = (i + 1) * p.chunkSize := by rw [Nat.succ_mul]
    _ ≤ p.kMax * p.chunkSize := Nat.mul_le_mul_right _ hi

/-- Writing one chunk: its bytes become the value's, every other chunk keeps its bytes. -/
theorem chunkByte_setChunk {p : Params} {m : Memory 8} (h : m.wf) (j : Nat) (v : Memory 8) {i b : Nat}
    (hb : b < p.chunkSize) : chunkByte p (setChunk p m j v) i b = if i = j then v.read b else chunkByte p m i b := by
  unfold chunkByte setChunk
  rw [read_writeBlock h]
  by_cases hij : i = j
  · subst hij
    rw [if_pos (by omega), if_pos rfl]
    congr 1
    omega
  · rw [if_neg hij, if_neg]
    rintro ⟨h1, h2⟩
    rcases lt_or_gt_of_ne hij with hlt | hlt
    · have : (i + 1) * p.chunkSize ≤ j * p.chunkSize := Nat.mul_le_mul_right _ hlt
      rw [Nat.succ_mul] at this
      omega
    · have : (j + 1) * p.chunkSize ≤ i * p.chunkSize := Nat.mul_le_mul_right _ hlt
      rw [Nat.succ_mul] at this
      omega

end Sys2Proof.Laws
end

