-- ==== Sys2Proof/Laws/Peel.lean ====
section
/-!
SUPPORT. The laws of the peeling engine (43_decoder.md R246): what one slot's scan does, what resolving one chunk does,
and the induction over the worklist, once.
-/

namespace Sys2Proof.Laws

open Sys2Proof Sys2Proof.Machine

/-- What the scan does to one slot: nothing, reduce it, or reduce it to one index and free it. -/
theorem peelSlot_cases (p : Params) (j : Nat) (v : Memory 8) (sl : Slot) :
    ((sl.valid = false ∨ sl.mask.testBit j = false) ∧ peelSlot p j v sl = (sl, none)) ∨
    (sl.valid = true ∧ sl.mask.testBit j = true ∧ popcount p.kMax (Mask.clear sl.mask j) ≠ 1 ∧
      peelSlot p j v sl =
        ({ sl with mask := Mask.clear sl.mask j, pay := xorBytes p.chunkSize sl.pay v }, none)) ∨
    (sl.valid = true ∧ sl.mask.testBit j = true ∧ popcount p.kMax (Mask.clear sl.mask j) = 1 ∧
      peelSlot p j v sl =
        ({ valid := false, mask := Mask.clear sl.mask j, pay := xorBytes p.chunkSize sl.pay v },
         some (firstIndex p.kMax (Mask.clear sl.mask j), xorBytes p.chunkSize sl.pay v))) := by
  unfold peelSlot
  cases hv : sl.valid with
  | false => exact .inl ⟨.inl rfl, by simp⟩
  | true =>
    cases hm : sl.mask.testBit j with
    | false => exact .inl ⟨.inr rfl, by simp⟩
    | true =>
      right
      by_cases h1 : popcount p.kMax (Mask.clear sl.mask j) = 1
      · exact .inr ⟨rfl, rfl, h1, by simp [h1]⟩
      · exact .inl ⟨rfl, rfl, h1, by simp [h1]⟩

/-- The slots after a scan. -/
def scanSlots (p : Params) (j : Nat) (v : Memory 8) (l : List Slot) : List Slot := l.map fun sl => (peelSlot p j v sl).1

/-- The worklist entries of a scan, in slot order. -/
def scanQueue (p : Params) (j : Nat) (v : Memory 8) (l : List Slot) : List WorkItem :=
  l.filterMap fun sl => (peelSlot p j v sl).2

theorem resolveChunk_eq (p : Params) (d : Decoder) (j : Nat) (v : Memory 8) :
    resolveChunk p d j v =
      ({ d with
          chunk := setChunk p d.chunk j v, known := Mask.insert d.known j, resolved := d.resolved + 1,
          pend := scanSlots p j v d.pend,
          pendCount := d.pendCount - BitVec.ofNat 32 (scanQueue p j v d.pend).length },
        scanQueue p j v d.pend) := by
  simp only [resolveChunk, scanSlots, scanQueue, List.map_map, List.filterMap_map]
  rfl

theorem mem_scanSlots {p : Params} {j : Nat} {v : Memory 8} {l : List Slot} {x : Slot} :
    x ∈ scanSlots p j v l ↔ ∃ sl ∈ l, (peelSlot p j v sl).1 = x := by simp [scanSlots]

theorem mem_scanQueue {p : Params} {j : Nat} {v : Memory 8} {l : List Slot} {x : WorkItem} :
    x ∈ scanQueue p j v l ↔ ∃ sl ∈ l, (peelSlot p j v sl).2 = some x := by simp [scanQueue]

@[simp] theorem length_scanSlots (p : Params) (j : Nat) (v : Memory 8) (l : List Slot) :
    (scanSlots p j v l).length = l.length := by simp [scanSlots]

/-- Every queued entry frees one valid slot (R246). -/
theorem countP_scanSlots (p : Params) (j : Nat) (v : Memory 8) (l : List Slot) :
    (scanSlots p j v l).countP (·.valid) + (scanQueue p j v l).length = l.countP (·.valid) := by
  induction l with
  | nil => rfl
  | cons sl l ih =>
    have hs : scanSlots p j v (sl :: l) = (peelSlot p j v sl).1 :: scanSlots p j v l := rfl
    rw [hs, List.countP_cons, List.countP_cons]
    rcases peelSlot_cases p j v sl with ⟨_, h⟩ | ⟨hv, _, _, h⟩ | ⟨hv, _, _, h⟩
    · have hq : scanQueue p j v (sl :: l) = scanQueue p j v l := by simp [scanQueue, h]
      rw [hq, h]
      simp only
      omega
    · have hq : scanQueue p j v (sl :: l) = scanQueue p j v l := by simp [scanQueue, h]
      rw [hq, h]
      simp only
      omega
    · have hq : (scanQueue p j v (sl :: l)).length = (scanQueue p j v l).length + 1 := by simp [scanQueue, h]
      rw [hq, h]
      simp only [hv, Bool.false_eq_true, if_false, if_true]
      omega

/-- The induction over the worklist, packaged once: a relation that the skip of a known entry and the resolution of an
unknown one both keep holds of the result of the loop. -/
theorem peelLoop_induct (p : Params) (P : Decoder → List WorkItem → Nat → Prop)
    (skip : ∀ d j v w n, P d ((j, v) :: w) n → d.known.testBit j = true → P d w n)
    (resolve : ∀ d j v w n, P d ((j, v) :: w) n → d.known.testBit j = false →
      P (resolveChunk p d j v).1 (w ++ (resolveChunk p d j v).2) (n + 1)) :
    ∀ fuel d w n, P d w n →
      P (peelLoop p fuel d w n).1 (peelLoop p fuel d w n).2.1 (peelLoop p fuel d w n).2.2
  | 0, _, _, _, h => h
  | _ + 1, _, [], _, h => h
  | fuel + 1, d, (j, v) :: w, n, h => by
    unfold peelLoop
    cases hk : d.known.testBit j with
    | true => exact peelLoop_induct p P skip resolve fuel d w n (skip d j v w n h hk)
    | false =>
      exact peelLoop_induct p P skip resolve fuel _ _ _ (resolve d j v w n h hk)

/-- The registers peeling never touches. -/
def samePeelFrame (d d' : Decoder) : Prop :=
  d' = { d with chunk := d'.chunk, known := d'.known, resolved := d'.resolved, pend := d'.pend,
                pendCount := d'.pendCount }

theorem peelLoop_frame (p : Params) (fuel : Nat) (d : Decoder) (w : List WorkItem) (n : Nat) :
    samePeelFrame d (peelLoop p fuel d w n).1 := by
  apply peelLoop_induct p (fun d' _ _ => samePeelFrame d d') _ _ fuel d w n rfl
  · intro d' j v w n h _
    exact h
  · intro d' j v w n h _
    rw [resolveChunk_eq]
    unfold samePeelFrame at h ⊢
    rw [h]

/-- Peeling keeps every resolved chunk resolved, with its value (R246, R60). -/
theorem peelLoop_keeps (p : Params) (fuel : Nat) (d : Decoder) (hwf : d.chunk.wf) (w : List WorkItem) (n : Nat) :
    (peelLoop p fuel d w n).1.chunk.wf ∧
    ∀ i, d.known.testBit i = true → (peelLoop p fuel d w n).1.known.testBit i = true ∧
      ∀ b, b < p.chunkSize → chunkByte p (peelLoop p fuel d w n).1.chunk i b = chunkByte p d.chunk i b := by
  apply peelLoop_induct p
    (fun d' _ _ => d'.chunk.wf ∧ ∀ i, d.known.testBit i = true → d'.known.testBit i = true ∧
      ∀ b, b < p.chunkSize → chunkByte p d'.chunk i b = chunkByte p d.chunk i b) _ _ fuel d w n
    ⟨hwf, fun i hi => ⟨hi, fun _ _ => rfl⟩⟩
  · intro d' j v w n h _
    exact h
  · intro d' j v w n h hk
    rw [resolveChunk_eq]
    refine ⟨writeBlock_wf h.1 _ _ _, fun i hi => ?_⟩
    obtain ⟨h1, h2⟩ := h.2 i hi
    refine ⟨by simp [h1], fun b hb => ?_⟩
    have hij : i ≠ j := by
      rintro rfl
      rw [h1] at hk
      exact absurd hk (by simp)
    simp only
    rw [chunkByte_setChunk h.1 j v hb, if_neg hij, h2 b hb]

end Sys2Proof.Laws
end

