-- ==== Sys2Proof/Laws/Selector.lean ====
section
/-!
SUPPORT. The laws of the selection loop (41_chunk_selector.md R182): the scratch array stays a permutation of
`0 … K−1`, and the mask of distinct indices has as many bits as there are indices.
-/

namespace Sys2Proof.Laws

open Sys2Proof Sys2Proof.Machine

/-- The range reduction stays below its bound (R10, G3). -/
theorem mulhi32_lt (r : Word) {n : Nat} (h : 0 < n) : mulhi32 r n < n := by
  unfold mulhi32
  rw [Nat.div_lt_iff_lt_mul (by norm_num), Nat.mul_comm]
  exact Nat.mul_lt_mul_of_pos_left r.isLt h

/-- Exchanging two entries permutes the array. -/
theorem swap_perm {a : List Nat} {i j : Nat} (hi : i < a.length) (hj : j < a.length) : (swap a i j).Perm a := by
  unfold swap
  rw [List.getD_eq_getElem _ _ hi, List.getD_eq_getElem _ _ hj]
  exact List.set_set_perm hi hj

/-- The loop of R182 permutes the array. -/
theorem shuffle_perm {k : Nat} : ∀ (n i : Nat) (s : Word) (a : List Nat), a.length = k → i + n ≤ k →
    (shuffle k n i s a).Perm a
  | 0, _, _, _, _, _ => List.Perm.refl _
  | n + 1, i, s, a, hl, hin => by
    have hj := mulhi32_lt (rngNext s) (n := k - i) (by omega)
    have hp : (swap a i (i + mulhi32 (rngNext s) (k - i))).Perm a := swap_perm (by omega) (by omega)
    exact (shuffle_perm n (i + 1) (rngNext s) _ (by rw [hp.length_eq, hl]) (by omega)).trans hp

/-- One turn more at the end: turn `i + n` of the loop of R182, with the draw that follows. -/
theorem shuffle_succ (k : Nat) : ∀ (n i : Nat) (s : Word) (a : List Nat),
    shuffle k (n + 1) i s a =
      swap (shuffle k n i s a) (i + n) (i + n + mulhi32 (rngNext^[n + 1] s) (k - (i + n)))
  | 0, _, _, _ => rfl
  | n + 1, i, s, a => by
    have h := shuffle_succ k n (i + 1) (rngNext s) (swap a i (i + mulhi32 (rngNext s) (k - i)))
    rw [show i + 1 + n = i + (n + 1) by omega] at h
    exact h

/-- Reading the array after an exchange. -/
theorem getD_swap {a : List Nat} {i j : Nat} (hi : i < a.length) (hj : j < a.length) (x d : Nat) :
    (swap a i j).getD x d = if x = j then a.getD i d else if x = i then a.getD j d else a.getD x d := by
  simp only [swap, List.getD_eq_getElem?_getD, List.getElem?_set, List.length_set]
  by_cases h1 : j = x
  · subst h1
    simp [hi, hj]
  · by_cases h2 : i = x
    · subst h2
      simp [h1, Ne.symm h1, hi, hj]
    · simp [h1, h2, Ne.symm h1, Ne.symm h2]

/-- Turn `i` of `FY(deg, K)` (R182), `r` being its draw: it exchanges entries `i` and `i + mulhi32(r, K − i)`. -/
theorem shuffle_turn {k i : Nat} (h : i < k) (s : Word) (x d : Nat) :
    let a := shuffle k i 0 s (List.range k)
    let j := i + mulhi32 (rngNext^[i + 1] s) (k - i)
    j < k ∧ (shuffle k (i + 1) 0 s (List.range k)).getD x d =
      if x = j then a.getD i d else if x = i then a.getD j d else a.getD x d := by
  have hl : (shuffle k i 0 s (List.range k)).length = k := by
    rw [(shuffle_perm i 0 s (List.range k) (by simp) (by omega)).length_eq, List.length_range]
  have hj := mulhi32_lt (rngNext^[i + 1] s) (n := k - i) (by omega)
  refine ⟨by omega, ?_⟩
  rw [shuffle_succ, Nat.zero_add]
  exact getD_swap (by omega) (by omega) x d

/-- The selected indices: `deg` distinct indices below `K`. -/
theorem selected_spec {deg k : Nat} (h : deg ≤ k) (s : Word) :
    ((shuffle k deg 0 s (List.range k)).take deg).Nodup ∧
    ((shuffle k deg 0 s (List.range k)).take deg).length = deg ∧
    ∀ i ∈ (shuffle k deg 0 s (List.range k)).take deg, i < k := by
  have hp := shuffle_perm (k := k) deg 0 s (List.range k) (by simp) (by omega)
  refine ⟨(hp.nodup_iff.2 List.nodup_range).sublist (List.take_sublist _ _), ?_, ?_⟩
  · rw [List.length_take, hp.length_eq, List.length_range, Nat.min_eq_left h]
  · intro i hi
    exact List.mem_range.1 (hp.mem_iff.1 (List.mem_of_mem_take hi))

/-- The mask of distinct indices below `n` has one bit per index. -/
theorem popcount_maskOf {n : Nat} {l : List Nat} (hd : l.Nodup) (hl : ∀ i ∈ l, i < n) :
    popcount n (maskOf l) = l.length := by
  induction l using List.reverseRecOn with
  | nil => simp [maskOf]
  | append_singleton l a ih =>
    have hd' := List.nodup_append.1 hd
    have ha : a ∉ l := fun h => hd'.2.2 a h a (by simp) rfl
    have hm : maskOf (l ++ [a]) = Mask.insert (maskOf l) a := by simp [maskOf]
    rw [hm, popcount_insert (hl a (by simp)) (by simp [testBit_maskOf, ha]), ih hd'.1 fun i hi => hl i (by simp [hi])]
    simp

/-- A mask all of whose bits are below `n`. -/
theorem lt_two_pow_of_testBit {m : Mask} {n : Nat} (h : ∀ i, m.testBit i = true → i < n) : m < 2 ^ n := by
  by_contra hc
  obtain ⟨i, hi, hb⟩ := Nat.exists_ge_and_testBit_of_ge_two_pow (Nat.le_of_not_lt hc)
  have := h i hb
  omega

/-- `FY(deg, K)` stays within `K` indices. -/
theorem fisherYates_lt {deg k : Nat} (h : deg ≤ k) (s : Word) : fisherYates deg k s < 2 ^ k := by
  apply lt_two_pow_of_testBit
  intro i hi
  rw [fisherYates, testBit_maskOf] at hi
  exact (selected_spec h s).2.2 i (of_decide_eq_true hi)

/-- The mask of the degree function stays within `K` indices. -/
theorem degreeFunction_mask_lt (p : Params) (c : DegConfig) (seed : Word) (k : Nat) :
    (degreeFunction p c seed k).mask < 2 ^ k := fisherYates_lt (Nat.min_le_right _ _) _

/-- The mask of the selector stays within `K` indices. -/
theorem select_mask_lt (seed : Word) (degree k : Nat) : (select seed degree k).mask < 2 ^ k :=
  fisherYates_lt (Nat.min_le_right _ _) _

end Sys2Proof.Laws
end

