-- ==== Sys2Proof/Laws/Invariant.lean ====
section
/-!
SUPPORT. The shared operations keep the parts of the invariant (10_state.md R65), one lemma per operation.
-/

namespace Sys2Proof.Laws

open Sys2Proof Sys2Proof.Machine

/-! ### The arithmetic of chunking (R202) -/

theorem ceilDiv_mul_ge {a b : Nat} (hb : 1 ≤ b) : a ≤ ceilDiv a b * b := by
  unfold ceilDiv
  have h1 := Nat.div_add_mod (a + b - 1) b
  have h2 := Nat.mod_lt (a + b - 1) (show b > 0 by omega)
  rw [Nat.mul_comm] at h1
  omega

theorem ceilDiv_mul_lt {a b : Nat} (hb : 1 ≤ b) : ceilDiv a b * b < a + b := by
  unfold ceilDiv
  have := Nat.div_mul_le_self (a + b - 1) b
  omega

theorem ceilDiv_le {a b n : Nat} (hb : 1 ≤ b) (h : a ≤ n * b) : ceilDiv a b ≤ n := by
  have h1 := ceilDiv_mul_lt (a := a) hb
  by_contra hc
  have h2 : (n + 1) * b ≤ ceilDiv a b * b := Nat.mul_le_mul_right _ (by omega)
  rw [Nat.succ_mul] at h2
  omega

theorem ceilDiv_pos {a b : Nat} (hb : 1 ≤ b) (ha : 1 ≤ a) : 1 ≤ ceilDiv a b := by
  have h1 := ceilDiv_mul_ge (a := a) hb
  by_contra hc
  have : ceilDiv a b = 0 := by omega
  rw [this] at h1
  omega

/-! ### Errors -/

theorem errBit_sub (e : ErrCode) : e.bit &&& ~~~errBits = 0 := by cases e <;> decide

theorem errClean_raise {err : Word} (h : err &&& ~~~errBits = 0) (e : ErrCode) : (err ||| e.bit) &&& ~~~errBits = 0 := by
  have h2 := errBit_sub e
  rw [BitVec.and_comm] at h h2 ⊢
  rw [BitVec.and_or_distrib_left, h, h2]
  rfl

theorem errClean_and {err v : Word} (h : err &&& ~~~errBits = 0) : (err &&& v) &&& ~~~errBits = 0 := by
  rw [BitVec.and_assoc, BitVec.and_comm v, ← BitVec.and_assoc, h]
  simp

theorem inv_raise {s : State} (h : s.Inv) (e : ErrCode) (src : Opcode) : (s.raise e src).Inv :=
  ⟨h.1, errClean_raise h.2.1 e, h.2.2.1, h.2.2.2⟩

theorem inv_ackErr {s : State} (h : s.Inv) (v : Word) : (s.ackErr v).Inv :=
  ⟨h.1, errClean_and h.2.1, h.2.2.1, h.2.2.2⟩

/-! ### Latches and soft resets -/

theorem readable_idle (u : UnitId) (l : Latch) : Latch.readable u l.idle := by
  intro h
  simp at h

theorem encInv_latch {p : Params} {e : Encoder} (h : e.Inv p) {l : Latch} (hl : l.readable .enc) :
    Encoder.Inv p { e with latch := l } := ⟨hl, h.2⟩

theorem decInv_latch {p : Params} {d : Decoder} (h : d.Inv p) {l : Latch} (hl : l.readable .dec) :
    Decoder.Inv p { d with latch := l } := ⟨hl, h.2⟩

theorem inv_finish {s : State} (h : s.Inv) (u : UnitId) : (s.finish u).Inv := by
  cases u with
  | enc => exact ⟨h.1, h.2.1, encInv_latch h.2.2.1 (readable_idle _ _), h.2.2.2⟩
  | dec => exact ⟨h.1, h.2.1, h.2.2.1, decInv_latch h.2.2.2 (readable_idle _ _)⟩

theorem inv_fail {s : State} (h : s.Inv) (u : UnitId) (e : ErrCode) (opc : Opcode) : (s.fail u e opc).Inv :=
  inv_finish (inv_raise h e opc) u

theorem sound_nil {w n : Nat} : Memory.sound n ([] : Memory w) := ⟨wf_nil, by simp⟩

theorem encInv_softReset {p : Params} {e : Encoder} (h : e.Inv p) : e.softReset.Inv p := by
  obtain ⟨_, _, _, _, _, h6, _, h8, h9⟩ := h
  exact ⟨readable_idle _ _, fun _ => ⟨rfl, rfl, rfl⟩, fun h => absurd rfl h, fun h => absurd rfl h,
    Nat.two_pow_pos _, h6, sound_nil, h8, h9⟩

theorem decInv_softReset {p : Params} {d : Decoder} (h : d.Inv p) : d.softReset.Inv p := by
  obtain ⟨_, _, _, _, _, h6, _, h8, h9, h10, h11, h12⟩ := h
  have hv : ∀ sl ∈ d.softReset.pend, sl.valid = false := by
    intro sl hsl
    simp only [decReset_pend, List.mem_map] at hsl
    obtain ⟨x, _, rfl⟩ := hsl
    rfl
  refine ⟨readable_idle _ _, fun _ => ⟨rfl, hv, rfl, rfl, rfl, rfl⟩, fun h => by simp at h, ⟨by simp, by simp, by simp⟩,
    fun sl hsl h => by simp [hv sl hsl] at h, ⟨by simpa using h6.1, ?_⟩, Nat.two_pow_pos _, h8, h9, h10, h11, ?_⟩
  · rw [List.countP_eq_zero.2 fun sl hsl => by simp [hv sl hsl]]
    rfl
  · intro sl hsl
    simp only [decReset_pend, List.mem_map] at hsl
    obtain ⟨x, hx, rfl⟩ := hsl
    exact h12 x hx

/-- The RAMs of `State.reset` are in their canonical form. -/
theorem reset_memories_wf :
    State.reset.enc.src.wf ∧ State.reset.enc.outBuf.wf ∧ State.reset.enc.cdf.wf ∧ State.reset.enc.degTab.wf ∧
      State.reset.dec.chunk.wf ∧ State.reset.dec.inBuf.wf ∧ State.reset.dec.cdf.wf ∧ State.reset.dec.degTab.wf ∧
      ∀ sl ∈ State.reset.dec.pend, sl.pay.wf :=
  ⟨wf_nil, wf_nil, wf_nil, wf_nil, wf_nil, wf_nil, wf_nil, wf_nil, by decide⟩

/-! ### The issue step -/

theorem inv_issue {s : State} (h : s.Inv) (v : Word) : (issue v s).Inv := by
  rcases issue_cases v s with ⟨e, he⟩ | ⟨i, hd, _, he⟩
  · rw [he]
    exact inv_raise h _ _
  · rw [he]
    have hl : Latch.readable i.unit (s.issueLatch (v.extractLsb' 0 8)) := by
      intro _
      show (decodeOpcode (v.extractLsb' 0 8)).map Instr.unit = some i.unit
      rw [hd]
      rfl
    cases hu : i.unit with
    | enc => exact ⟨h.1, h.2.1, encInv_latch h.2.2.1 (hu ▸ hl), h.2.2.2⟩
    | dec => exact ⟨h.1, h.2.1, h.2.2.1, decInv_latch h.2.2.2 (hu ▸ hl)⟩

/-! ### Windows -/

theorem writeBufferWord_sound {N n : Nat} {m : Memory 8} (h : Memory.sound N m) (hn : n ≤ N) (w : Nat) (v : Word) :
    Memory.sound N (writeBufferWord n m w v) := by
  unfold writeBufferWord
  generalize List.range 4 = l
  induction l generalizing m with
  | nil => exact h
  | cons b l ih =>
    rw [List.foldl_cons]
    apply ih
    split
    · exact write_sound h (by omega) _
    · exact h

/-! ### Peeling -/

theorem decInv_resolveChunk {p : Params} (hp : p.wf) {d : Decoder} (h : d.Inv p) (hs : d.paramsSet = true) {j : Nat}
    (hj : j < d.k.toNat) (hk : d.known.testBit j = false) (v : Memory 8) :
    (resolveChunk p d j v).1.Inv p ∧ ∀ x ∈ (resolveChunk p d j v).2, x.1 < d.k.toNat := by
  obtain ⟨hl, hf, hpl, ⟨hk1, hk2, hk3⟩, hso, ⟨hsc1, hsc2⟩, hm, hc, hi, hcdf, htab, hpay⟩ := h
  obtain ⟨hK1, hK2, hK3⟩ := hpl hs
  have hp1 := hp.2.1.2
  have hcount := countP_scanSlots p j v d.pend
  have hcl : d.pend.countP (·.valid) ≤ d.pend.length := List.countP_le_length
  have hpopi : popcount p.kMax (Mask.insert d.known j) = popcount p.kMax d.known + 1 :=
    popcount_insert (by omega) hk
  have hpopk : popcount p.kMax (Mask.insert d.known j) ≤ d.k.toNat := by
    rw [popcount_of_le hK2 (insert_lt hk1 hj)]
    exact popcount_le _ _
  -- a reduced mask of a valid slot
  have hone : ∀ sl ∈ d.pend, sl.valid = true → sl.mask.testBit j = true →
      popcount p.kMax sl.mask = popcount p.kMax (Mask.clear sl.mask j) + 1 := by
    intro sl _ _ hb
    exact popcount_clear (by omega) hb
  rw [resolveChunk_eq]
  refine ⟨⟨hl, fun h => absurd h (by simp [hs]), fun _ => ⟨hK1, hK2, hK3⟩, ⟨insert_lt hk1 hj, ?_, ?_⟩, ?_, ⟨?_, ?_⟩, hm,
    setChunk_sound hc (by omega) v, hi, hcdf, htab, ?_⟩, ?_⟩
  · show (d.resolved + 1).toNat = popcount p.kMax (Mask.insert d.known j)
    rw [hpopi, ← hk2, BitVec.toNat_add]
    show (d.resolved.toNat + 1) % 2 ^ 32 = _
    rw [Nat.mod_eq_of_lt (by omega)]
  · show (d.resolved + 1).toNat ≤ d.k.toNat
    rw [BitVec.toNat_add]
    show (d.resolved.toNat + 1) % 2 ^ 32 ≤ _
    have := Nat.mod_le (d.resolved.toNat + 1) (2 ^ 32)
    omega
  · intro x hx hv
    obtain ⟨sl, hsl, rfl⟩ := mem_scanSlots.1 hx
    rcases peelSlot_cases p j v sl with ⟨hor, he⟩ | ⟨hv1, hb, hne, he⟩ | ⟨_, _, _, he⟩
    · rw [he] at hv ⊢
      obtain ⟨h1, h2, h3⟩ := hso sl hsl hv
      refine ⟨h1, ?_, h3⟩
      rw [disjoint_iff] at h2 ⊢
      intro i hbi
      simp only [testBit_insert, h2 i hbi, Bool.false_or, decide_eq_false_iff_not]
      rintro rfl
      rcases hor with hf | hf
      · simp [hf] at hv
      · simp [hf] at hbi
    · rw [he] at hv ⊢
      obtain ⟨h1, h2, h3⟩ := hso sl hsl hv1
      have := hone sl hsl hv1 hb
      refine ⟨by show 2 ≤ popcount p.kMax (Mask.clear sl.mask j); omega, ?_, clear_lt h3⟩
      show Mask.clear sl.mask j &&& Mask.insert d.known j = 0
      rw [disjoint_iff] at h2 ⊢
      intro i hbi
      simp only [testBit_clear, Bool.and_eq_true, Bool.not_eq_true', decide_eq_false_iff_not] at hbi
      simp [h2 i hbi.1, hbi.2]
    · rw [he] at hv
      simp at hv
  · simpa using hsc1
  · show (d.pendCount - BitVec.ofNat 32 (scanQueue p j v d.pend).length).toNat = _
    have hb : BitVec.ofNat 32 (scanQueue p j v d.pend).length ≤ d.pendCount := by
      rw [BitVec.le_def, BitVec.toNat_ofNat, hsc2]
      have := Nat.mod_le (scanQueue p j v d.pend).length (2 ^ 32)
      omega
    rw [BitVec.toNat_sub_of_le hb, BitVec.toNat_ofNat, hsc2]
    have := hp.2.2.2.1.2
    rw [Nat.mod_eq_of_lt (by omega)]
    show _ = (scanSlots p j v d.pend).countP (·.valid)
    omega
  · intro x hx
    obtain ⟨sl, hsl, rfl⟩ := mem_scanSlots.1 hx
    rcases peelSlot_cases p j v sl with ⟨_, he⟩ | ⟨_, _, _, he⟩ | ⟨_, _, _, he⟩
    · rw [he]
      exact hpay sl hsl
    · rw [he]
      exact xorBytes_sound _ _ _
    · rw [he]
      exact xorBytes_sound _ _ _
  · intro x hx
    obtain ⟨sl, hsl, hxe⟩ := mem_scanQueue.1 hx
    rcases peelSlot_cases p j v sl with ⟨_, he⟩ | ⟨_, _, _, he⟩ | ⟨hv1, _, hone1, he⟩
    · rw [he] at hxe
      cases hxe
    · rw [he] at hxe
      cases hxe
    · rw [he] at hxe
      obtain ⟨_, _, h3⟩ := hso sl hsl hv1
      have hf := firstIndex_spec (n := p.kMax) (m := Mask.clear sl.mask j) (by omega)
      rw [← Option.some.inj hxe]
      exact lt_of_testBit (clear_lt h3) hf.2

theorem decInv_peelLoop {p : Params} (hp : p.wf) (fuel : Nat) {d : Decoder} (h : d.Inv p) (hs : d.paramsSet = true)
    {w : List WorkItem} (hw : ∀ x ∈ w, x.1 < d.k.toNat) (n : Nat) : (peelLoop p fuel d w n).1.Inv p := by
  have key := peelLoop_induct p
    (fun d' w' _ => d'.Inv p ∧ d'.paramsSet = true ∧ d'.k = d.k ∧ ∀ x ∈ w', x.1 < d.k.toNat)
    (fun d' j v w' n h _ => ⟨h.1, h.2.1, h.2.2.1, fun x hx => h.2.2.2 x (List.mem_cons_of_mem _ hx)⟩)
    (fun d' j v w' n h hk => by
      obtain ⟨h1, h2, h3, h4⟩ := h
      obtain ⟨k1, k2⟩ := decInv_resolveChunk hp h1 h2 (by rw [h3]; exact h4 (j, v) (by simp)) hk v
      refine ⟨k1, by rw [resolveChunk_eq]; exact h2, by rw [resolveChunk_eq]; exact h3, fun x hx => ?_⟩
      rcases List.mem_append.1 hx with hx | hx
      · exact h4 x (List.mem_cons_of_mem _ hx)
      · rw [← h3]
        exact k2 x hx)
    fuel d w n ⟨h, hs, rfl, hw⟩
  exact key.1

/-! ### Storing a droplet -/

theorem decInv_pendStore {p : Params} (hp : p.wf) {d : Decoder} (h : d.Inv p) (hs : d.paramsSet = true) {m : Mask}
    (hm2 : 2 ≤ popcount p.kMax m) (hmk : m &&& d.known = 0) (hml : m < 2 ^ d.k.toNat) {pay : Memory 8}
    (hpay : Memory.sound p.chunkSize pay) : (pendStore d m pay).1.Inv p := by
  obtain ⟨hl, hf, hpl, hkc, hso, ⟨hsc1, hsc2⟩, hm, hc, hi, hcdf, htab, hpays⟩ := h
  have hps : ∀ q : Prop, d.paramsSet = false → q := fun q h => by simp [hs] at h
  rcases pendStore_cases d m pay with ⟨e, hfe, he⟩ | ⟨e, _, hfe, he⟩ | ⟨_, _, he⟩
  · rw [he]
    have hmem : ∀ x ∈ d.pend.modify e fun sl => { sl with pay := pay },
        x ∈ d.pend ∨ ∃ sl ∈ d.pend, x = { sl with pay := pay } := by
      intro x hx
      rw [List.mem_iff_getElem?] at hx
      obtain ⟨i, hi⟩ := hx
      rw [List.getElem?_modify] at hi
      cases hg : d.pend[i]? with
      | none => simp [hg] at hi
      | some sl =>
        rw [hg] at hi
        have hsl : sl ∈ d.pend := List.mem_of_getElem? hg
        by_cases hei : e = i
        · simp only [hei, if_true] at hi
          exact .inr ⟨sl, hsl, (Option.some.inj hi).symm⟩
        · simp only [hei, if_false] at hi
          exact .inl ((Option.some.inj hi) ▸ hsl)
    refine ⟨hl, hps _, hpl, hkc, ?_, ⟨by simpa using hsc1, ?_⟩, hm, hc, hi, hcdf, htab, ?_⟩
    · intro x hx hv
      rcases hmem x hx with hx | ⟨sl, hsl, rfl⟩
      · exact hso x hx hv
      · exact hso sl hsl hv
    · show d.pendCount.toNat = _
      rw [hsc2]
      have : (d.pend.modify e fun sl => { sl with pay := pay }).map (·.valid) = d.pend.map (·.valid) := by
        apply List.ext_getElem?
        intro i
        simp only [List.getElem?_map, List.getElem?_modify]
        cases d.pend[i]? with
        | none => simp
        | some sl => by_cases hei : e = i <;> simp [hei]
      have h2 := congrArg (List.countP id) this
      simpa [List.countP_map, Function.comp_def] using h2.symm
    · intro x hx
      rcases hmem x hx with hx | ⟨sl, hsl, rfl⟩
      · exact hpays x hx
      · exact hpay
  · rw [he]
    obtain ⟨hlt, hbv, _⟩ := List.findIdx?_eq_some_iff_getElem.1 hfe
    have hcnt : (d.pend.set e { valid := true, mask := m, pay := pay }).countP (·.valid) =
        d.pend.countP (·.valid) + 1 := by
      rw [List.countP_set hlt]
      have h0 : d.pend[e].valid = false := by simpa using hbv
      simp [h0]
    have hle : (d.pend.set e { valid := true, mask := m, pay := pay }).countP (·.valid) ≤ d.pend.length := by
      have := List.countP_le_length (p := fun sl : Slot => sl.valid)
        (l := d.pend.set e { valid := true, mask := m, pay := pay })
      simpa using this
    refine ⟨hl, hps _, hpl, hkc, ?_, ⟨by simpa using hsc1, ?_⟩, hm, hc, hi, hcdf, htab, ?_⟩
    · intro x hx hv
      rcases List.mem_or_eq_of_mem_set hx with hx | rfl
      · exact hso x hx hv
      · exact ⟨hm2, hmk, hml⟩
    · show (d.pendCount + 1).toNat = _
      have := hp.2.2.2.1.2
      rw [BitVec.toNat_add]
      show (d.pendCount.toNat + 1) % 2 ^ 32 = _
      rw [hcnt, hsc2, Nat.mod_eq_of_lt (by omega)]
    · intro x hx
      rcases List.mem_or_eq_of_mem_set hx with hx | rfl
      · exact hpays x hx
      · exact hpay
  · rw [he]
    exact ⟨hl, hps _, hpl, hkc, hso, ⟨hsc1, hsc2⟩, hm, hc, hi, hcdf, htab, hpays⟩

/-- The payload of a reduction is a payload of S bytes. -/
theorem reducePayload_sound (p : Params) (d : Decoder) (k : Nat) (m : Mask) {pl : Memory 8}
    (h : Memory.sound p.chunkSize pl) : Memory.sound p.chunkSize (reducePayload p d k m pl) := by
  unfold reducePayload
  generalize List.range k = l
  induction l generalizing pl with
  | nil => exact h
  | cons i l ih =>
    rw [List.foldl_cons]
    apply ih
    split
    · exact xorBytes_sound _ _ _
    · exact h

/-- A header that passes `CHECK` is one that meets its conditions (R241). -/
theorem ingestCheck_eq_none_iff (s : State) : ingestCheck s = none ↔ headerAccepted s := by
  unfold ingestCheck headerAccepted badChunkCount degTableMismatch tableReady
  have h0 : s.dec.inK = 0 ↔ ¬ 1 ≤ s.dec.inK.toNat := by
    rw [← BitVec.toNat_inj]
    simp
  dsimp only
  constructor
  · intro h
    split at h
    · cases h
    · split at h
      · cases h
      · split at h
        · cases h
        · rename_i h1 h2 h3
          simp only [Bool.or_eq_true, beq_iff_eq, decide_eq_true_eq, not_or] at h1
          simp only [Bool.and_eq_true, Bool.or_eq_true, bne_iff_ne, not_and, not_or, not_not] at h2
          simp only [Bool.and_eq_true, beq_iff_eq, bne_iff_ne, not_and, not_not] at h3
          rw [h0] at h1
          refine ⟨by omega, by omega, by omega, fun hp => h2 hp, ?_⟩
          cases hm : s.dec.degMode with
          | stub => exact .inl rfl
          | robust => exact .inr (h3 hm)
  · rintro ⟨h1, h2, h3, h4, h5⟩
    rw [if_neg, if_neg, if_neg]
    · simp only [Bool.and_eq_true, beq_iff_eq, bne_iff_ne, not_and, not_not]
      intro hm
      rcases h5 with h5 | h5
      · rw [hm] at h5
        cases h5
      · exact h5
    · simp only [Bool.and_eq_true, Bool.or_eq_true, bne_iff_ne, not_and, not_or, not_not]
      exact h4
    · simp only [Bool.or_eq_true, beq_iff_eq, decide_eq_true_eq, not_or]
      rw [h0]
      omega

/-- Learning the parameters of an accepted header (R242) keeps the decoder's invariant and makes `DEC_K` the droplet's. -/
theorem decInv_learn {s : State} (h : s.dec.Inv s.params) (ha : headerAccepted s) :
    s.dec.learn.Inv s.params ∧ s.dec.learn.k = s.dec.inK ∧ s.dec.learn.pad = s.dec.inPad := by
  obtain ⟨a1, a2, a3, a4, _⟩ := ha
  cases hs : s.dec.paramsSet with
  | true =>
    have he : s.dec.learn = s.dec := by simp [Decoder.learn, hs]
    rw [he]
    exact ⟨h, (a4 hs).1.symm, (a4 hs).2.symm⟩
  | false =>
    obtain ⟨hl, hf, hpl, ⟨hk1, hk2, hk3⟩, hso, hsc, hm, hc, hi, hcdf, htab, hpays⟩ := h
    obtain ⟨f1, f2, f3, f4, f5, f6⟩ := hf hs
    refine ⟨?_, by simp [learn_k, hs], by simp [learn_pad, hs]⟩
    have he : s.dec.learn = { s.dec with k := s.dec.inK, pad := s.dec.inPad, paramsSet := true } := by
      simp [Decoder.learn, hs]
    rw [he]
    refine ⟨hl, fun h => by simp at h, fun _ => ⟨a1, a2, a3⟩, ⟨?_, hk2, ?_⟩, fun sl hsl hv => ?_, hsc, hm, hc, hi, hcdf,
      htab, hpays⟩
    · show s.dec.known < _
      rw [f1]
      exact Nat.two_pow_pos _
    · show s.dec.resolved.toNat ≤ _
      rw [f3]
      simp
    · simp [f2 sl hsl] at hv

/-- An accepted droplet keeps the decoder's invariant (R240). -/
theorem decInv_ingestAccepted {s : State} (hp : s.params.wf) (h : s.dec.Inv s.params) (ha : headerAccepted s) :
    (ingestAccepted s.params s.dec).1.Inv s.params := by
  obtain ⟨hL, hLk, _⟩ := decInv_learn h ha
  have hr : (ingestSelection s.params s.dec).mask < 2 ^ s.dec.inK.toNat := degreeFunction_mask_lt _ _ _ _
  have hrk : (ingestSelection s.params s.dec).mask < 2 ^ s.params.kMax :=
    lt_of_lt_of_le hr (Nat.pow_le_pow_right (by norm_num) ha.2.1)
  have hD : Decoder.Inv s.params { s.dec.learn with
      mask := (ingestSelection s.params s.dec).mask, clamped := (ingestSelection s.params s.dec).clamped,
      newly := 0 } := by
    obtain ⟨b1, b2, b3, b4, b5, b6, _, b8, b9, b10, b11, b12⟩ := hL
    exact ⟨b1, b2, b3, b4, b5, b6, hrk, b8, b9, b10, b11, b12⟩
  have hml : reduceMask { s.dec.learn with
      mask := (ingestSelection s.params s.dec).mask, clamped := (ingestSelection s.params s.dec).clamped,
      newly := 0 } (ingestSelection s.params s.dec).mask < 2 ^ s.dec.inK.toNat := without_lt hr
  unfold ingestAccepted
  simp only
  split
  · exact hD
  · split
    · rename_i h1
      have hf := firstIndex_spec (n := s.params.kMax) (m := reduceMask { s.dec.learn with
        mask := (ingestSelection s.params s.dec).mask, clamped := (ingestSelection s.params s.dec).clamped,
        newly := 0 } (ingestSelection s.params s.dec).mask) (by omega)
      have hP := decInv_peelLoop hp (fuel := s.dec.learn.pend.length + 1) hD (learn_paramsSet _)
        (w := [(firstIndex s.params.kMax (reduceMask { s.dec.learn with
          mask := (ingestSelection s.params s.dec).mask, clamped := (ingestSelection s.params s.dec).clamped,
          newly := 0 } (ingestSelection s.params s.dec).mask),
          reducePayload s.params { s.dec.learn with
            mask := (ingestSelection s.params s.dec).mask, clamped := (ingestSelection s.params s.dec).clamped,
            newly := 0 } s.dec.learn.inK.toNat (ingestSelection s.params s.dec).mask s.dec.learn.inBuf)])
        (by
          intro x hx
          rw [List.mem_singleton] at hx
          subst hx
          show _ < s.dec.learn.k.toNat
          rw [hLk]
          exact lt_of_testBit hml hf.2) 0
      exact hP
    · rename_i h0 h1
      refine decInv_pendStore hp hD (learn_paramsSet _) (by omega) ?_ ?_ (reducePayload_sound _ _ _ _ hD.2.2.2.2.2.2.2.2.1)
      · rw [disjoint_iff]
        intro i hi
        simp only [reduceMask, testBit_without, Bool.and_eq_true, Bool.not_eq_true'] at hi
        exact hi.2
      · show _ < 2 ^ s.dec.learn.k.toNat
        rw [hLk]
        exact hml

/-- `DEC_INGEST` keeps the invariant, rejected or accepted. -/
theorem inv_ingest {s : State} (h : s.Inv) : (ingest s).Inv := by
  rcases ingest_cases s with ⟨e, _, he⟩ | ⟨hc, _, he⟩ | ⟨e, hc, _, he⟩
  · rw [he]
    exact inv_raise (s := { s with dec := s.dec.reject }) h _ _
  · rw [he]
    exact ⟨h.1, h.2.1, h.2.2.1, decInv_ingestAccepted h.1 h.2.2.2 ((ingestCheck_eq_none_iff s).1 hc)⟩
  · rw [he]
    exact inv_raise (s := { s with dec := (ingestAccepted s.params s.dec).1 })
      ⟨h.1, h.2.1, h.2.2.1, decInv_ingestAccepted h.1 h.2.2.2 ((ingestCheck_eq_none_iff s).1 hc)⟩ _ _

end Sys2Proof.Laws
end

