-- ==== Sys2Proof/Laws/PerInstr.lean ====
section
/-!
SUPPORT. Facts about each command as syntax, one lemma per constructor (30_encoding.md R120, R121).
-/

namespace Sys2Proof.Laws

open Sys2Proof

/-- A command's word is well formed field by field (R120, R121), its low byte is the command's opcode, and the host's
table decoder reads the command from it. -/
def Encodes.Statement (i : Instr) : Prop :=
  CmdWord.wf (encode i) ∧ (encode i).extractLsb' 0 8 = i.opcode ∧ decodeTableWord 32 (encode i).toNat = some i

theorem Encodes.encReset : Encodes.Statement .encReset := ⟨by decide, by decide, by decide⟩
theorem Encodes.encConfig : Encodes.Statement .encConfig := ⟨by decide, by decide, by decide⟩
theorem Encodes.encSeed : Encodes.Statement .encSeed := ⟨by decide, by decide, by decide⟩
theorem Encodes.encNext : Encodes.Statement .encNext := ⟨by decide, by decide, by decide⟩
theorem Encodes.encDegq : Encodes.Statement .encDegq := ⟨by decide, by decide, by decide⟩
theorem Encodes.encSelq : Encodes.Statement .encSelq := ⟨by decide, by decide, by decide⟩
theorem Encodes.decReset : Encodes.Statement .decReset := ⟨by decide, by decide, by decide⟩
theorem Encodes.decIngest : Encodes.Statement .decIngest := ⟨by decide, by decide, by decide⟩
theorem Encodes.decRecon : Encodes.Statement .decRecon := ⟨by decide, by decide, by decide⟩
theorem Encodes.decReadOut : Encodes.Statement .decReadOut := ⟨by decide, by decide, by decide⟩
theorem Encodes.decReadChunk : Encodes.Statement .decReadChunk := ⟨by decide, by decide, by decide⟩
theorem Encodes.decDegq : Encodes.Statement .decDegq := ⟨by decide, by decide, by decide⟩
theorem Encodes.decReadPend : Encodes.Statement .decReadPend := ⟨by decide, by decide, by decide⟩

end Sys2Proof.Laws
end

