-- ==== Sys2Proof/Laws/Propagate.lean ====
section
/-!
SUPPORT. What the peeling loop does to the chunks and the slots, said once (43_decoder.md R246): the chunks resolved in
their order, where each one's value comes from, and what is left of each slot.
-/

namespace Sys2Proof.Laws

open Sys2Proof Sys2Proof.Machine

/-! ### The XOR of the chunks in a mask (R205) -/

/-- The fold behind `xorcByte`, with its start taken out. -/
theorem foldl_xor_start (f : Nat → Byte) (m : Mask) (l : List Nat) (x : Byte) :
    l.foldl (fun x i => if m.testBit i then x ^^^ f i else x) x =
      x ^^^ l.foldl (fun x i => if m.testBit i then x ^^^ f i else x) 0 := by
  induction l generalizing x with
  | nil => simp
  | cons i l ih =>
    rw [List.foldl_cons, List.foldl_cons, ih, ih (if m.testBit i = true then 0 ^^^ f i else 0)]
    split
    · simp [BitVec.xor_assoc]
    · simp

/-- The XOR depends on the chunks in the mask alone. -/
theorem xorcByte_congr {p : Params} {c c' : Memory 8} {m m' : Mask} {b : Nat} (hm : ∀ i, m.testBit i = m'.testBit i)
    (hc : ∀ i, m.testBit i = true → chunkByte p c i b = chunkByte p c' i b) :
    xorcByte p c m b = xorcByte p c' m' b := by
  unfold xorcByte
  generalize (0 : Byte) = x
  induction List.range p.kMax generalizing x with
  | nil => rfl
  | cons i l ih =>
    rw [List.foldl_cons, List.foldl_cons, ← hm i]
    cases h : m.testBit i with
    | false => exact ih x
    | true =>
      rw [if_pos rfl, if_pos rfl, hc i h]
      exact ih _

theorem xorcByte_zero (p : Params) (c : Memory 8) (b : Nat) : xorcByte p c 0 b = 0 := by
  unfold xorcByte
  induction List.range p.kMax with
  | nil => rfl
  | cons i l ih => simp

/-- One chunk more in the mask is one XOR more. -/
theorem xorcByte_insert {p : Params} {c : Memory 8} {m : Mask} {j b : Nat} (hj : j < p.kMax) (hm : m.testBit j = false) :
    xorcByte p c (Mask.insert m j) b = xorcByte p c m b ^^^ chunkByte p c j b := by
  have key : ∀ l : List Nat, l.Nodup →
      l.foldl (fun x i => if (Mask.insert m j).testBit i then x ^^^ chunkByte p c i b else x) 0 =
        l.foldl (fun x i => if m.testBit i then x ^^^ chunkByte p c i b else x) 0 ^^^
          if j ∈ l then chunkByte p c j b else 0 := by
    intro l
    induction l with
    | nil => simp
    | cons i l ih =>
      intro hn
      obtain ⟨hi, hn⟩ := List.nodup_cons.1 hn
      rw [List.foldl_cons, List.foldl_cons, foldl_xor_start (chunkByte p c · b), ih hn,
        foldl_xor_start (chunkByte p c · b) m l (if m.testBit i = true then 0 ^^^ chunkByte p c i b else 0)]
      by_cases hij : j = i
      · subst hij
        simp [hm, hi, BitVec.xor_comm]
      · have h1 : (Mask.insert m j).testBit i = m.testBit i := by simp [hij]
        simp [h1, hij, BitVec.xor_assoc]
  have h := key (List.range p.kMax) List.nodup_range
  rw [if_pos (List.mem_range.2 hj)] at h
  exact h

/-! ### A slot reduced to one index -/

theorem reducedTo_mono {sl : Slot} {i : Nat} {l l' : List Nat} (hl : ∀ x ∈ l, x ∈ l') (h : sl.reducedTo i l) :
    sl.reducedTo i l' := ⟨h.1, h.2.1, fun i' h1 h2 => hl _ (h.2.2 i' h1 h2)⟩

/-- The index a slot is reduced to is the one that is not listed. -/
theorem reducedTo_unique {sl : Slot} {i i' : Nat} {l : List Nat} (h : sl.reducedTo i l) (hi : sl.mask.testBit i' = true)
    (hn : i' ∉ l) : i' = i := by
  by_contra hne
  exact hn (h.2.2 i' hi hne)

/-- A mask with one bit and no other has one bit. -/
theorem popcount_eq_one {n i : Nat} {m : Mask} (hi : i < n) (hb : m.testBit i = true)
    (h : ∀ i', m.testBit i' = true → i' = i) : popcount n m = 1 := by
  rw [popcount_clear hi hb, popcount_eq_zero_iff.2]
  intro i' _
  rw [testBit_clear]
  cases hm : m.testBit i' with
  | false => rfl
  | true => simp [h i' hm]

/-- The worklist entries of a scan with the numbers of their slots, which rise. -/
theorem scanQueue_numbered (p : Params) (j : Nat) (v : Memory 8) (l : List Slot) :
    ∃ q : List (Nat × WorkItem), scanQueue p j v l = q.map Prod.snd ∧
      (∀ a ∈ q, ∃ sl, l[a.1]? = some sl ∧ (peelSlot p j v sl).2 = some a.2) ∧ q.Pairwise (fun a b => a.1 < b.1) ∧
      ∀ (e : Nat) (sl : Slot) (x : WorkItem), l[e]? = some sl → (peelSlot p j v sl).2 = some x → (e, x) ∈ q := by
  induction l using List.reverseRecOn with
  | nil => exact ⟨[], rfl, by simp, by simp, by simp⟩
  | append_singleton l sl ih =>
    obtain ⟨q, h1, h2, h3, h4⟩ := ih
    have hlt : ∀ a ∈ q, a.1 < l.length := fun a ha => by
      obtain ⟨_, hs, _⟩ := h2 a ha
      exact (List.getElem?_eq_some_iff.1 hs).1
    have hold : ∀ a ∈ q, ∃ sl', (l ++ [sl])[a.1]? = some sl' ∧ (peelSlot p j v sl').2 = some a.2 := fun a ha => by
      obtain ⟨sl', hs, hp⟩ := h2 a ha
      exact ⟨sl', by rw [List.getElem?_append_left (hlt a ha), hs], hp⟩
    have hq : scanQueue p j v (l ++ [sl]) = scanQueue p j v l ++ (peelSlot p j v sl).2.toList := by
      cases h : (peelSlot p j v sl).2 <;> simp [scanQueue, h]
    have hcov : ∀ (e : Nat) (sl' : Slot), (l ++ [sl])[e]? = some sl' → l[e]? = some sl' ∨ (e = l.length ∧ sl' = sl) := by
      intro e sl' he
      by_cases hlt' : e < l.length
      · exact .inl (by rwa [List.getElem?_append_left hlt'] at he)
      · have := (List.getElem?_eq_some_iff.1 he).1
        simp at this
        obtain rfl : e = l.length := by omega
        rw [List.getElem?_append_right (Nat.le_refl _)] at he
        exact .inr ⟨rfl, by simpa using he.symm⟩
    cases hx : (peelSlot p j v sl).2 with
    | none =>
      refine ⟨q, by rw [hq, hx, h1]; simp, hold, h3, fun e sl' x he hp => ?_⟩
      rcases hcov e sl' he with he | ⟨rfl, rfl⟩
      · exact h4 e sl' x he hp
      · rw [hx] at hp; cases hp
    | some x₀ =>
      refine ⟨q ++ [(l.length, x₀)], by rw [hq, hx, h1]; simp, fun a ha => ?_, ?_, fun e sl' x he hp => ?_⟩
      · rcases List.mem_append.1 ha with ha | ha
        · exact hold a ha
        · obtain rfl := List.mem_singleton.1 ha
          exact ⟨sl, by simp, hx⟩
      · rw [List.pairwise_append]
        refine ⟨h3, by simp, fun a ha b hb => ?_⟩
        obtain rfl := List.mem_singleton.1 hb
        exact hlt a ha
      · rcases hcov e sl' he with he | ⟨rfl, rfl⟩
        · exact List.mem_append_left _ (h4 e sl' x he hp)
        · rw [hx] at hp
          obtain rfl := Option.some.inj hp
          simp

/-! ### The propagation -/

/-- What a slot that was `sl` is worth to a worklist or to the chunk `i`: it is reduced to `i`, and the value is its payload
with its other chunks, which are resolved, XORed out. -/
def Yields (p : Params) (c : Memory 8) (sl : Slot) (i : Nat) (resolved : List Nat) (value : Nat → Byte) : Prop :=
  sl.reducedTo i resolved ∧
    ∀ b, b < p.chunkSize → value b = sl.pay.read b ^^^ xorcByte p c (Mask.clear sl.mask i) b

/-- Slot `e`, reduced to `i`, was reduced before slot `e'`, reduced to `i'`, or with it and has the lower number (R246: the
worklist is FIFO, the scan ascends). `order` lists the resolved chunks. -/
def Earlier (order : List Nat) (e i : Nat) (sl : Slot) (e' i' : Nat) (sl' : Slot) : Prop :=
  ∀ m, m ≤ order.length → sl'.reducedTo i' (order.take m) →
    sl.reducedTo i (order.take m) ∧ (e ≤ e' ∨ ∃ m' < m, sl.reducedTo i (order.take m'))

/-- The worklist `q`, each entry with the number of its slot: every entry is worth its value, they stand in the order their
slots were reduced, and every slot reduced to one unresolved index has its entry. -/
structure Queue (p : Params) (pend : List Slot) (c : Memory 8) (order : List Nat) (q : List (Nat × WorkItem)) : Prop where
  worth : ∀ a ∈ q, ∃ sl, pend[a.1]? = some sl ∧ Yields p c sl a.2.1 order a.2.2.read
  sorted : q.Pairwise fun a b => ∀ sl sl', pend[a.1]? = some sl → pend[b.1]? = some sl' →
    Earlier order a.1 a.2.1 sl b.1 b.2.1 sl'
  full : ∀ (e i : Nat) (sl : Slot), pend[e]? = some sl → sl.reducedTo i order → i ∉ order → ∃ v, (e, (i, v)) ∈ q

/-- What has become of a slot: a free one is as it was; a valid one has at least two unknowns left, the resolved chunks
out of its mask and its payload; a freed one has all its chunks resolved or on the worklist. -/
def Reduced (p : Params) (d : Decoder) (w : List WorkItem) (sl sl' : Slot) : Prop :=
  (sl.valid = false → sl' = sl) ∧
  (sl.valid = true → sl'.valid = true →
    2 ≤ popcount p.kMax sl'.mask ∧ sl'.mask = Mask.without sl.mask d.known ∧
    ∀ b, b < p.chunkSize → sl'.pay.read b = sl.pay.read b ^^^ xorcByte p d.chunk (sl.mask &&& d.known) b) ∧
  (sl.valid = true → sl'.valid = false →
    ∀ i, sl.mask.testBit i = true → d.known.testBit i = true ∨ ∃ v, (i, v) ∈ w)

/-- The state of a propagation that began with chunk `j₀` of value `v₀` at the decoder `d₀`: `order` lists the chunks it has
resolved, first to last, and `w` is its worklist. -/
structure Propagation (p : Params) (d₀ : Decoder) (j₀ : Nat) (v₀ : Memory 8) (d : Decoder) (w : List WorkItem)
    (order : List Nat) : Prop where
  start : (order = [] ∧ w = [(j₀, v₀)]) ∨ order.head? = some j₀
  first : order ≠ [] → ∀ b, b < p.chunkSize → chunkByte p d.chunk j₀ b = v₀.read b
  later : ∀ n i : Nat, order[n + 1]? = some i → ∃ (e : Nat) (sl : Slot), d₀.pend[e]? = some sl ∧
    Yields p d.chunk sl i (order.take (n + 1)) (chunkByte p d.chunk i) ∧
    ∀ (e' i' : Nat) (sl' : Slot), d₀.pend[e']? = some sl' → i' ∉ order.take (n + 1) →
      Earlier (order.take (n + 1)) e i sl e' i' sl'
  queued : order ≠ [] → ∃ q, w = q.map Prod.snd ∧ Queue p d₀.pend d.chunk order q
  freed : ∀ (e : Nat) (sl sl' : Slot), d₀.pend[e]? = some sl → d.pend[e]? = some sl' → sl.valid = true →
    sl'.valid = false → ∃ i, sl.reducedTo i order
  nodup : order.Nodup
  wf : d.chunk.wf
  known : ∀ i, d.known.testBit i = (d₀.known.testBit i || decide (i ∈ order))
  fresh : ∀ i ∈ order, d₀.known.testBit i = false
  length : d.pend.length = d₀.pend.length
  slots : ∀ (e : Nat) (sl sl' : Slot), d₀.pend[e]? = some sl → d.pend[e]? = some sl' → Reduced p d w sl sl'

/-- A value taken before chunk `j` resolves stands afterwards, if it does not depend on chunk `j`. -/
theorem Yields.keep {p : Params} {c : Memory 8} (hwf : c.wf) {sl : Slot} {i j : Nat} {l : List Nat} {f : Nat → Byte}
    (v : Memory 8) (hj : j ∉ l) (h : Yields p c sl i l f) : Yields p (setChunk p c j v) sl i l f := by
  refine ⟨h.1, fun b hb => ?_⟩
  rw [h.2 b hb]
  congr 1
  refine xorcByte_congr (fun _ => rfl) fun i' hi' => ?_
  simp only [testBit_clear, Bool.and_eq_true, Bool.not_eq_true', decide_eq_false_iff_not] at hi'
  rw [chunkByte_setChunk hwf j v hb, if_neg]
  rintro rfl
  exact hj (h.1.2.2 _ hi'.1 (fun h => hi'.2 h.symm))

theorem Yields.mono {p : Params} {c : Memory 8} {sl : Slot} {i : Nat} {l l' : List Nat} {f : Nat → Byte}
    (hl : ∀ x ∈ l, x ∈ l') (h : Yields p c sl i l f) : Yields p c sl i l' f := ⟨reducedTo_mono hl h.1, h.2⟩

/-- A slot that is reduced already stays earlier than another when one more chunk resolves. -/
theorem Earlier.append {order : List Nat} {e i e' i' j : Nat} {sl sl' : Slot} (hr : sl.reducedTo i order)
    (h : Earlier order e i sl e' i' sl') : Earlier (order ++ [j]) e i sl e' i' sl' := by
  intro m hm h'
  by_cases hlt : m ≤ order.length
  · rw [List.take_append_of_le_length hlt] at h' ⊢
    obtain ⟨h1, h2⟩ := h m hlt h'
    refine ⟨h1, h2.imp_right fun ⟨m', hm', hr'⟩ => ⟨m', hm', ?_⟩⟩
    rwa [List.take_append_of_le_length (by omega)]
  · have hm' : m = order.length + 1 := by simp at hm; omega
    refine ⟨reducedTo_mono (fun x hx => ?_) hr, .inr ⟨order.length, by omega, ?_⟩⟩
    · rw [hm', List.take_of_length_le (by simp)]
      exact List.mem_append_left _ hx
    · rwa [List.take_append_of_le_length (Nat.le_refl _), List.take_length]

/-- A slot that is reduced by chunk `j` comes after all that were reduced before. -/
theorem Earlier.fresh {order : List Nat} {e i e' i' j : Nat} {sl sl' : Slot} (hn : ¬ sl'.reducedTo i' order)
    (hr : sl.reducedTo i (order ++ [j])) (h : e ≤ e' ∨ sl.reducedTo i order) :
    Earlier (order ++ [j]) e i sl e' i' sl' := by
  intro m hm h'
  have hm' : m = order.length + 1 := by
    by_contra hc
    have hle : m ≤ order.length := by simp at hm; omega
    rw [List.take_append_of_le_length hle] at h'
    exact hn (reducedTo_mono (fun _ => List.mem_of_mem_take) h')
  rw [hm', List.take_of_length_le (by simp)]
  refine ⟨hr, h.imp_right fun h => ⟨order.length, by omega, ?_⟩⟩
  rwa [List.take_append_of_le_length (Nat.le_refl _), List.take_length]

/-- A slot that is still valid is not reduced to one index. -/
theorem Reduced.not_reducedTo {p : Params} {d₀ d : Decoder} {w : List WorkItem} {sl sl' : Slot} {order : List Nat} {i : Nat}
    (h : Reduced p d w sl sl') (hv' : sl'.valid = true) (hlt : sl.mask < 2 ^ p.kMax)
    (hk : ∀ i, d.known.testBit i = (d₀.known.testBit i || decide (i ∈ order))) : ¬ sl.reducedTo i order := by
  intro hr
  obtain ⟨h2, hm, _⟩ := h.2.1 hr.1 hv'
  have honly : ∀ i', sl'.mask.testBit i' = true → i' = i := by
    intro i' hi'
    rw [hm, testBit_without, hk] at hi'
    simp only [Bool.and_eq_true, Bool.not_eq_true', Bool.or_eq_false_iff, decide_eq_false_iff_not] at hi'
    exact reducedTo_unique hr hi'.1 hi'.2.2
  have hlt' : sl'.mask < 2 ^ p.kMax := hm ▸ without_lt hlt
  by_cases hb : sl'.mask.testBit i = true
  · have := popcount_eq_one (lt_of_testBit hlt' hb) hb honly
    omega
  · have : popcount p.kMax sl'.mask = 0 := popcount_eq_zero_iff.2 fun i' _ => by
      cases hb' : sl'.mask.testBit i' with
      | false => rfl
      | true => exact absurd (honly i' hb' ▸ hb') hb
    omega

/-- Where a propagation stands before its first entry. -/
theorem Propagation.init {p : Params} {d : Decoder} (hwf : d.chunk.wf)
    (hopen : ∀ sl ∈ d.pend, sl.valid = true → 2 ≤ popcount p.kMax sl.mask ∧ sl.mask &&& d.known = 0)
    (j : Nat) (v : Memory 8) : Propagation p d j v d [(j, v)] [] where
  start := .inl ⟨rfl, rfl⟩
  first h := absurd rfl h
  later _ _ h := by simp at h
  queued h := absurd rfl h
  nodup := List.nodup_nil
  wf := hwf
  known _ := by simp
  fresh _ h := by simp at h
  length := rfl
  freed e sl sl' h h' hv hf := by
    rw [h] at h'
    obtain rfl := Option.some.inj h'
    rw [hv] at hf
    cases hf
  slots e sl sl' h h' := by
    rw [h] at h'
    obtain rfl := Option.some.inj h'
    refine ⟨fun _ => rfl, fun hv _ => ?_, fun hv hf => by rw [hv] at hf; cases hf⟩
    obtain ⟨h2, h3⟩ := hopen sl (List.mem_of_getElem? h) hv
    refine ⟨h2, ?_, fun b _ => by simp [h3, xorcByte_zero]⟩
    apply Nat.eq_of_testBit_eq
    intro i
    rw [testBit_without]
    cases hb : sl.mask.testBit i with
    | false => rfl
    | true => rw [disjoint_iff.1 h3 i hb]; rfl

/-- Skipping an entry whose chunk is known. -/
theorem Propagation.skip {p : Params} {d₀ d : Decoder} {j₀ j : Nat} {v₀ v : Memory 8} {w : List WorkItem}
    {order : List Nat} (hopen : ∀ sl ∈ d₀.pend, sl.valid = true → sl.mask &&& d₀.known = 0)
    (hj₀ : d₀.known.testBit j₀ = false) (h : Propagation p d₀ j₀ v₀ d ((j, v) :: w) order)
    (hk : d.known.testBit j = true) : Propagation p d₀ j₀ v₀ d w order := by
  have hne : order.head? = some j₀ := by
    rcases h.start with ⟨h1, h2⟩ | h1
    · obtain ⟨⟨rfl, rfl⟩, rfl⟩ : (j = j₀ ∧ v = v₀) ∧ w = [] := by simpa using h2
      rw [h.known, h1, hj₀] at hk
      simp at hk
    · exact h1
  refine ⟨.inr hne, h.first, h.later, fun ho => ?_, h.freed, h.nodup, h.wf, h.known, h.fresh, h.length,
    fun e sl sl' h1 h2 => ?_⟩
  · obtain ⟨q, hq, hQ⟩ := h.queued ho
    obtain ⟨a, q, rfl, ha, rfl⟩ := List.map_eq_cons_iff.1 hq.symm
    refine ⟨q, rfl, fun b hb => hQ.worth b (List.mem_cons_of_mem _ hb), (List.pairwise_cons.1 hQ.sorted).2,
      fun e i sl he hr hi => ?_⟩
    obtain ⟨v', hv'⟩ := hQ.full e i sl he hr hi
    rcases List.mem_cons.1 hv' with rfl | hm
    · obtain ⟨rfl, _⟩ := Prod.mk.inj ha
      rw [h.known, disjoint_iff.1 (hopen sl (List.mem_of_getElem? he) hr.1) _ hr.2.1] at hk
      exact absurd (by simpa using hk) hi
    · exact ⟨v', hm⟩
  obtain ⟨k1, k2, k3⟩ := h.slots e sl sl' h1 h2
  refine ⟨k1, k2, fun hv hf i hi => ?_⟩
  rcases k3 hv hf i hi with hk' | ⟨v', hv'⟩
  · exact .inl hk'
  · rcases List.mem_cons.1 hv' with he | hm
    · obtain ⟨rfl, rfl⟩ := Prod.mk.inj he
      exact .inl hk
    · exact .inr ⟨v', hm⟩

/-- Resolving an entry whose chunk is unknown. -/
theorem Propagation.resolve {p : Params} {d₀ d : Decoder} {j₀ j : Nat} {v₀ v : Memory 8} {w : List WorkItem}
    {order : List Nat} (hopen : ∀ sl ∈ d₀.pend, sl.valid = true →
      2 ≤ popcount p.kMax sl.mask ∧ sl.mask &&& d₀.known = 0 ∧ sl.mask < 2 ^ p.kMax)
    (h : Propagation p d₀ j₀ v₀ d ((j, v) :: w) order) (hk : d.known.testBit j = false) :
    Propagation p d₀ j₀ v₀ (resolveChunk p d j v).1 (w ++ (resolveChunk p d j v).2) (order ++ [j]) := by
  have hjo : j ∉ order := fun hm => by
    rw [h.known] at hk
    simp [hm] at hk
  have hj0 : d₀.known.testBit j = false := by
    have := h.known j
    rw [hk] at this
    cases hb : d₀.known.testBit j with
    | false => rfl
    | true => rw [hb] at this; simp at this
  have hcb : ∀ i b, b < p.chunkSize →
      chunkByte p (setChunk p d.chunk j v) i b = if i = j then v.read b else chunkByte p d.chunk i b :=
    fun i b hb => chunkByte_setChunk h.wf j v hb
  -- a slot of `d` that is still valid: what it was, and its share of the new XOR
  have hstep : ∀ (sl sl₁ : Slot), sl ∈ d₀.pend → Reduced p d ((j, v) :: w) sl sl₁ → sl₁.valid = true →
      sl.valid = true ∧ sl₁.mask = Mask.without sl.mask d.known ∧
      (sl₁.mask.testBit j = true → ∀ b, b < p.chunkSize →
        sl₁.pay.read b ^^^ v.read b =
          sl.pay.read b ^^^ xorcByte p (setChunk p d.chunk j v) (sl.mask &&& Mask.insert d.known j) b) ∧
      (sl₁.mask.testBit j = false → ∀ b, b < p.chunkSize →
        sl₁.pay.read b =
          sl.pay.read b ^^^ xorcByte p (setChunk p d.chunk j v) (sl.mask &&& Mask.insert d.known j) b) := by
    intro sl sl₁ hsl hr hv₁
    have hv : sl.valid = true := by
      cases hb : sl.valid with
      | true => rfl
      | false => rw [hr.1 hb, hb] at hv₁; cases hv₁
    obtain ⟨_, hm, hpay⟩ := hr.2.1 hv hv₁
    have hold : ∀ b, b < p.chunkSize → xorcByte p (setChunk p d.chunk j v) (sl.mask &&& d.known) b =
        xorcByte p d.chunk (sl.mask &&& d.known) b := by
      intro b hb
      refine xorcByte_congr (fun _ => rfl) fun i hi => ?_
      rw [hcb i b hb, if_neg]
      rintro rfl
      simp [Nat.testBit_and, hk] at hi
    refine ⟨hv, hm, fun hb1 b hb => ?_, fun hb1 b hb => ?_⟩
    · have hslj : sl.mask.testBit j = true := by
        rw [hm, testBit_without, Bool.and_eq_true] at hb1
        exact hb1.1
      have hins : xorcByte p (setChunk p d.chunk j v) (sl.mask &&& Mask.insert d.known j) b =
          xorcByte p (setChunk p d.chunk j v) (Mask.insert (sl.mask &&& d.known) j) b := by
        refine xorcByte_congr (fun i => ?_) fun _ _ => rfl
        simp only [Nat.testBit_and, testBit_insert]
        by_cases hij : j = i
        · subst hij; simp [hslj]
        · simp [hij]
      rw [hins, xorcByte_insert (lt_of_testBit (hopen sl hsl hv).2.2 hslj) (by simp [Nat.testBit_and, hk]), hold b hb,
        hcb j b hb, if_pos rfl, hpay b hb, BitVec.xor_assoc]
    · have hslj : sl.mask.testBit j = false := by
        rw [hm, testBit_without, hk] at hb1
        simpa using hb1
      rw [hpay b hb, ← hold b hb]
      congr 1
      refine xorcByte_congr (fun i => ?_) fun _ _ => rfl
      simp only [Nat.testBit_and, testBit_insert]
      by_cases hij : j = i
      · subst hij; simp [hslj]
      · simp [hij]
  -- the entry itself, and the worklist behind it
  have hhead : order ≠ [] → ∃ (e : Nat) (sl : Slot), d₀.pend[e]? = some sl ∧ Yields p d.chunk sl j order v.read ∧
      ∀ (e' i' : Nat) (sl' : Slot), d₀.pend[e']? = some sl' → i' ∉ order → Earlier order e j sl e' i' sl' := by
    intro ho
    obtain ⟨q, hq, hQ⟩ := h.queued ho
    obtain ⟨a, q, rfl, ha, rfl⟩ := List.map_eq_cons_iff.1 hq.symm
    obtain ⟨sl, hsl, hy⟩ := hQ.worth a List.mem_cons_self
    rw [ha] at hy
    refine ⟨a.1, sl, hsl, hy, fun e' i' sl' he' hi' m hm hr => ?_⟩
    obtain ⟨v', hv'⟩ := hQ.full e' i' sl' he' (reducedTo_mono (fun _ => List.mem_of_mem_take) hr) hi'
    rcases List.mem_cons.1 hv' with rfl | hv'
    · obtain rfl := Option.some.inj (hsl.symm.trans he')
      obtain ⟨rfl, _⟩ := Prod.mk.inj ha
      exact ⟨hr, .inl (Nat.le_refl _)⟩
    · have := (List.pairwise_cons.1 hQ.sorted).1 _ hv' sl sl' hsl he' m hm hr
      rwa [ha] at this
  obtain ⟨q, rfl, hworth, hsorted, hfull⟩ : ∃ q : List (Nat × WorkItem), w = q.map Prod.snd ∧
      (∀ a ∈ q, ∃ sl, d₀.pend[a.1]? = some sl ∧ Yields p d.chunk sl a.2.1 order a.2.2.read) ∧
      (q.Pairwise fun a b => ∀ sl sl', d₀.pend[a.1]? = some sl → d₀.pend[b.1]? = some sl' →
        Earlier order a.1 a.2.1 sl b.1 b.2.1 sl') ∧
      ∀ (e i : Nat) (sl : Slot), d₀.pend[e]? = some sl → sl.reducedTo i order → i ∉ order → i ≠ j →
        ∃ v, (e, (i, v)) ∈ q := by
    by_cases ho : order = []
    · subst ho
      have hw : w = [] := by
        rcases h.start with ⟨_, h2⟩ | h1
        · simpa using (List.cons.inj h2).2
        · simp at h1
      refine ⟨[], by simp [hw], by simp, by simp, fun e i sl he hr _ _ => ?_⟩
      obtain ⟨h2, _, hlt⟩ := hopen sl (List.mem_of_getElem? he) hr.1
      have := popcount_eq_one (lt_of_testBit hlt hr.2.1) hr.2.1 fun i' hi' => reducedTo_unique hr hi' (by simp)
      omega
    · obtain ⟨q, hq, hQ⟩ := h.queued ho
      obtain ⟨a, q, rfl, ha, rfl⟩ := List.map_eq_cons_iff.1 hq.symm
      refine ⟨q, rfl, fun b hb => hQ.worth b (List.mem_cons_of_mem _ hb), (List.pairwise_cons.1 hQ.sorted).2,
        fun e i sl he hr hi hij => ?_⟩
      obtain ⟨v', hv'⟩ := hQ.full e i sl he hr hi
      rcases List.mem_cons.1 hv' with rfl | hm
      · exact absurd (Prod.mk.inj ha).1 hij
      · exact ⟨v', hm⟩
  -- a slot that chunk `j` reduces to one index
  have hnew : ∀ (e : Nat) (sl₁ : Slot) (x : WorkItem), d.pend[e]? = some sl₁ → (peelSlot p j v sl₁).2 = some x →
      ∃ sl, d₀.pend[e]? = some sl ∧ Yields p (setChunk p d.chunk j v) sl x.1 (order ++ [j]) x.2.read ∧
        ∀ i, ¬ sl.reducedTo i order := by
    intro e sl₁ x he₁ hq
    rcases peelSlot_cases p j v sl₁ with ⟨_, hps⟩ | ⟨_, _, _, hps⟩ | ⟨hv₁, hb₁, hone, hps⟩
    · rw [hps] at hq; cases hq
    · rw [hps] at hq; cases hq
    · rw [hps] at hq
      obtain rfl := Option.some.inj hq
      have hlt := (List.getElem?_eq_some_iff.1 he₁).1
      rw [h.length] at hlt
      have he := List.getElem?_eq_getElem hlt
      have hsl := List.getElem_mem hlt
      have hR := h.slots e _ sl₁ he he₁
      obtain ⟨hv, hm, hpay, _⟩ := hstep _ sl₁ hsl hR hv₁
      obtain ⟨_, hdis, hltm⟩ := hopen _ hsl hv
      obtain ⟨_, hfb'⟩ := firstIndex_spec (n := p.kMax) (m := Mask.clear sl₁.mask j) (by omega)
      have huniq := fun i => eq_firstIndex_of_popcount_one (i := i) hone
      generalize firstIndex p.kMax (Mask.clear sl₁.mask j) = i₀ at *
      rw [testBit_clear, hm, testBit_without] at hfb'
      simp only [Bool.and_eq_true, Bool.not_eq_true', decide_eq_false_iff_not] at hfb'
      have hothers : ∀ i', d₀.pend[e].mask.testBit i' = true → i' ≠ i₀ →
          d.known.testBit i' = true ∨ i' = j := by
        intro i' hi' hne
        by_contra hc
        push Not at hc
        have hb' : (Mask.clear sl₁.mask j).testBit i' = true := by
          rw [testBit_clear, hm, testBit_without]
          simp [hi', hc.1, Ne.symm hc.2]
        exact hne (huniq i' (lt_of_testBit hltm hi') hb')
      refine ⟨_, he, ⟨⟨hv, hfb'.1.1, fun i' hi' hne => ?_⟩, fun b hb => ?_⟩,
        fun i => hR.not_reducedTo hv₁ hltm h.known⟩
      · rcases hothers i' hi' hne with hk' | rfl
        · rw [h.known, disjoint_iff.1 hdis i' hi'] at hk'
          exact List.mem_append_left _ (by simpa using hk')
        · simp
      · rw [read_xorBytes, if_pos hb, hpay hb₁ b hb]
        congr 1
        refine xorcByte_congr (fun i => ?_) fun _ _ => rfl
        simp only [Nat.testBit_and, testBit_insert, testBit_clear]
        cases hi : d₀.pend[e].mask.testBit i with
        | false => rfl
        | true =>
          by_cases hne : i = i₀
          · subst hne
            simp [hfb'.1.2, hfb'.2]
          · rcases hothers i hi hne with h1 | rfl
            · simp [h1, Ne.symm hne]
            · simp [Ne.symm hne]
  obtain ⟨q', hq', hnum, hasc, hall⟩ := scanQueue_numbered p j v d.pend
  rw [resolveChunk_eq]
  refine ⟨.inr ?_, fun _ b hb => ?_, fun n i hi => ?_, fun _ => ⟨q ++ q', by simp [hq'], ?_, ?_, ?_⟩,
    fun e sl sl' he he' hv hf => ?_, ?_, writeBlock_wf h.wf _ _ _, fun i => ?_, fun i hi => ?_, ?_,
    fun e sl sl' he he' => ?_⟩
  · rcases h.start with ⟨h1, h2⟩ | h1
    · rw [h1, (Prod.mk.inj (List.cons.inj h2).1).1]
      rfl
    · simp [h1]
  · rw [hcb _ b hb]
    rcases h.start with ⟨h1, h2⟩ | h1
    · obtain ⟨rfl, rfl⟩ := Prod.mk.inj (List.cons.inj h2).1
      rw [if_pos rfl]
    · have hm := List.mem_of_head? h1
      rw [if_neg (fun he : j₀ = j => hjo (he ▸ hm)), h.first (fun h0 => by simp [h0] at hm) b hb]
  · by_cases hn : n + 1 < order.length
    · rw [List.getElem?_append_left hn] at hi
      obtain ⟨e, sl, hsl, hy, hE⟩ := h.later n i hi
      rw [List.take_append_of_le_length (by omega)]
      have hy' := hy.keep h.wf v (fun hm => hjo (List.mem_of_mem_take hm))
      refine ⟨e, sl, hsl, ⟨hy'.1, fun b hb => ?_⟩, hE⟩
      rw [← hy'.2 b hb, hcb i b hb, if_neg (fun he : i = j => hjo (he ▸ List.mem_of_getElem? hi))]
    · have hl : n + 1 = order.length := by
        have := (List.getElem?_eq_some_iff.1 hi).1
        simp at this
        omega
      have hij : i = j := by
        rw [List.getElem?_append_right (by omega), hl] at hi
        simpa using hi.symm
      subst hij
      obtain ⟨e, sl, hsl, hy, hE⟩ := hhead (fun h0 => by simp [h0] at hl)
      have ht : (order ++ [i]).take (n + 1) = order := by rw [hl]; simp
      rw [ht]
      have hy' := hy.keep h.wf v hjo
      refine ⟨e, sl, hsl, ⟨hy'.1, fun b hb => ?_⟩, hE⟩
      rw [← hy'.2 b hb, hcb i b hb, if_pos rfl]
  · intro a ha
    rcases List.mem_append.1 ha with ha | ha
    · obtain ⟨sl, hsl, hy⟩ := hworth a ha
      exact ⟨sl, hsl, (hy.keep h.wf v hjo).mono fun i hi => List.mem_append_left _ hi⟩
    · obtain ⟨sl₁, hs₁, hp⟩ := hnum a ha
      obtain ⟨sl, hsl, hy, _⟩ := hnew _ _ _ hs₁ hp
      exact ⟨sl, hsl, hy⟩
  · rw [List.pairwise_append]
    refine ⟨hsorted.imp_of_mem fun {a b} ha _ hab sl sl' hs hs' => ?_, hasc.imp_of_mem fun {a b} ha hb hab sl sl' hs hs' => ?_,
      fun a ha b hb sl sl' hs hs' => ?_⟩
    · obtain ⟨_, hs₂, hy⟩ := hworth a ha
      obtain rfl := Option.some.inj (hs₂.symm.trans hs)
      exact (hab _ sl' hs hs').append hy.1
    · obtain ⟨_, hs₁, hp⟩ := hnum a ha
      obtain ⟨_, hs₂, hy, _⟩ := hnew _ _ _ hs₁ hp
      obtain rfl := Option.some.inj (hs₂.symm.trans hs)
      obtain ⟨_, hs₁', hp'⟩ := hnum b hb
      obtain ⟨_, hs₂', _, hno⟩ := hnew _ _ _ hs₁' hp'
      obtain rfl := Option.some.inj (hs₂'.symm.trans hs')
      exact Earlier.fresh (hno _) hy.1 (.inl (Nat.le_of_lt hab))
    · obtain ⟨_, hs₂, hy⟩ := hworth a ha
      obtain rfl := Option.some.inj (hs₂.symm.trans hs)
      obtain ⟨_, hs₁', hp'⟩ := hnum b hb
      obtain ⟨_, hs₂', _, hno⟩ := hnew _ _ _ hs₁' hp'
      obtain rfl := Option.some.inj (hs₂'.symm.trans hs')
      exact Earlier.fresh (hno _) (reducedTo_mono (fun _ => List.mem_append_left _) hy.1) (.inr hy.1)
  · intro e i sl he hr hi
    simp only [List.mem_append, List.mem_singleton, not_or] at hi
    obtain ⟨_, hdis, hltm⟩ := hopen sl (List.mem_of_getElem? he) hr.1
    by_cases hro : sl.reducedTo i order
    · obtain ⟨v', hv'⟩ := hfull e i sl he hro hi.1 hi.2
      exact ⟨v', List.mem_append_left _ hv'⟩
    · have hlt := (List.getElem?_eq_some_iff.1 he).1
      rw [← h.length] at hlt
      have he₁ := List.getElem?_eq_getElem hlt
      have hR := h.slots e sl _ he he₁
      have hv₁ : d.pend[e].valid = true := by
        by_contra hf
        obtain ⟨i₀, hr₀⟩ := h.freed e sl _ he he₁ hr.1 (by simpa using hf)
        exact hro (reducedTo_unique hr₀ hr.2.1 hi.1 ▸ hr₀)
      obtain ⟨_, hm, _⟩ := hR.2.1 hr.1 hv₁
      have hjm : sl.mask.testBit j = true := by
        by_contra hc
        refine hro ⟨hr.1, hr.2.1, fun i' hi' hne => ?_⟩
        have := hr.2.2 i' hi' hne
        simp only [List.mem_append, List.mem_singleton] at this
        exact this.resolve_right fun he => hc (he ▸ hi')
      have hb₁ : d.pend[e].mask.testBit j = true := by
        rw [hm, testBit_without, hjm, hk]
        rfl
      have hbit : ∀ i', (Mask.clear d.pend[e].mask j).testBit i' =
          (sl.mask.testBit i' && !decide (i' ∈ order ++ [j])) := by
        intro i'
        rw [testBit_clear, hm, testBit_without, h.known]
        cases hb : sl.mask.testBit i' with
        | false => rfl
        | true =>
          rw [disjoint_iff.1 hdis i' hb]
          by_cases hj' : j = i'
          · simp [hj']
          · simp [hj', Ne.symm hj']
      have hone : popcount p.kMax (Mask.clear d.pend[e].mask j) = 1 := by
        refine popcount_eq_one (i := i) (lt_of_testBit hltm hr.2.1) ?_ fun i' hi' => ?_
        · rw [hbit, hr.2.1]
          simp [hi.1, hi.2]
        · rw [hbit, Bool.and_eq_true, Bool.not_eq_true', decide_eq_false_iff_not] at hi'
          exact reducedTo_unique hr hi'.1 hi'.2
      rcases peelSlot_cases p j v d.pend[e] with ⟨hor, _⟩ | ⟨_, _, hne, _⟩ | ⟨_, _, _, hps⟩
      · rcases hor with hf | hf
        · rw [hv₁] at hf; cases hf
        · rw [hb₁] at hf; cases hf
      · exact absurd hone hne
      · have hx := hall e _ _ he₁ (by rw [hps])
        obtain ⟨sl', hs', hy, _⟩ := hnew e _ _ he₁ (by rw [hps])
        obtain rfl := Option.some.inj (hs'.symm.trans he)
        obtain rfl := reducedTo_unique hy.1 hr.2.1 (by simp [hi.1, hi.2])
        exact ⟨_, List.mem_append_right _ hx⟩
  · simp only [scanSlots, List.getElem?_map, Option.map_eq_some_iff] at he'
    obtain ⟨sl₁, he₁, rfl⟩ := he'
    rcases peelSlot_cases p j v sl₁ with ⟨_, hps⟩ | ⟨hv₁, _, _, hps⟩ | ⟨_, _, _, hps⟩
    · rw [hps] at hf
      obtain ⟨i, hr⟩ := h.freed e sl sl₁ he he₁ hv hf
      exact ⟨i, reducedTo_mono (fun _ => List.mem_append_left _) hr⟩
    · rw [hps, hv₁] at hf
      cases hf
    · obtain ⟨sl', hs', hy, _⟩ := hnew e sl₁ _ he₁ (by rw [hps])
      obtain rfl := Option.some.inj (hs'.symm.trans he)
      exact ⟨_, hy.1⟩
  · rw [List.nodup_append]
    refine ⟨h.nodup, by simp, fun a ha b hb => ?_⟩
    rw [List.mem_singleton] at hb
    subst hb
    exact fun he => hjo (he ▸ ha)
  · simp only [testBit_insert, h.known i, List.mem_append, List.mem_singleton]
    cases d₀.known.testBit i <;> simp [eq_comm]
  · rcases List.mem_append.1 hi with hi | hi
    · exact h.fresh i hi
    · rw [List.mem_singleton] at hi
      exact hi ▸ hj0
  · simpa using h.length
  · simp only [scanSlots, List.getElem?_map, Option.map_eq_some_iff] at he'
    obtain ⟨sl₁, he₁, rfl⟩ := he'
    have hr := h.slots e sl sl₁ he he₁
    have hsl := List.mem_of_getElem? he
    have hmask : ∀ m' : Mask, m' = Mask.without sl.mask d.known →
        Mask.clear m' j = Mask.without sl.mask (Mask.insert d.known j) := by
      rintro _ rfl
      apply Nat.eq_of_testBit_eq
      intro i
      simp only [testBit_clear, testBit_without, testBit_insert]
      cases sl.mask.testBit i <;> cases d.known.testBit i <;> simp
    rcases peelSlot_cases p j v sl₁ with ⟨hor, hps⟩ | ⟨hv₁, hb₁, hne1, hps⟩ | ⟨hv₁, hb₁, hone, hps⟩
    · rw [hps]
      refine ⟨hr.1, fun hv hv₁ => ?_, fun hv hf i hi => ?_⟩
      · have hb₁ : sl₁.mask.testBit j = false := by
          rcases hor with hf | hf
          · rw [hv₁] at hf; cases hf
          · exact hf
        obtain ⟨_, hm, _, hpay⟩ := hstep sl sl₁ hsl hr hv₁
        refine ⟨(hr.2.1 hv hv₁).1, ?_, hpay hb₁⟩
        rw [← hmask sl₁.mask hm]
        apply Nat.eq_of_testBit_eq
        intro i
        rw [testBit_clear]
        by_cases hij : j = i
        · subst hij; simp [hb₁]
        · simp [hij]
      · rcases hr.2.2 hv hf i hi with hk' | ⟨v', hv'⟩
        · exact .inl (by simp [hk'])
        · rcases List.mem_cons.1 hv' with he2 | hm
          · obtain ⟨rfl, rfl⟩ := Prod.mk.inj he2
            exact .inl (by simp)
          · exact .inr ⟨v', List.mem_append_left _ hm⟩
    · rw [hps]
      obtain ⟨hv, hm, hpay, _⟩ := hstep sl sl₁ hsl hr hv₁
      have h2 := (hr.2.1 hv hv₁).1
      have hpc := popcount_clear (lt_of_testBit (n := p.kMax) (m := sl₁.mask)
        (by rw [hm]; exact without_lt (hopen sl hsl hv).2.2) hb₁) hb₁
      refine ⟨fun hf => absurd (hv.symm.trans hf) (by simp), fun _ _ => ⟨by simp only; omega, hmask _ hm, fun b hb => ?_⟩,
        fun _ hf => absurd (hv₁.symm.trans hf) (by simp)⟩
      rw [read_xorBytes, if_pos hb]
      exact hpay hb₁ b hb
    · rw [hps]
      obtain ⟨hv, hm, _, _⟩ := hstep sl sl₁ hsl hr hv₁
      refine ⟨fun hf => absurd (hv.symm.trans hf) (by simp), fun _ hf => absurd hf (by simp), fun _ _ i hi => ?_⟩
      by_cases hki : (Mask.insert d.known j).testBit i = true
      · exact .inl hki
      · right
        have hci : (Mask.clear sl₁.mask j).testBit i = true := by
          rw [hmask _ hm, testBit_without]
          simp [hi, hki]
        have hif := eq_firstIndex_of_popcount_one hone (lt_of_testBit (hopen sl hsl hv).2.2 hi) hci
        exact ⟨_, List.mem_append_right _ (mem_scanQueue.2 ⟨sl₁, List.mem_of_getElem? he₁, by rw [hps, hif]⟩)⟩

/-- What the peeling loop can do, said once: it stands in a propagation of as many chunks as it counts. -/
theorem peelLoop_propagates {p : Params} {d : Decoder} (hwf : d.chunk.wf)
    (hopen : ∀ sl ∈ d.pend, sl.valid = true →
      2 ≤ popcount p.kMax sl.mask ∧ sl.mask &&& d.known = 0 ∧ sl.mask < 2 ^ p.kMax)
    {j : Nat} (hj : d.known.testBit j = false) (v : Memory 8) (fuel : Nat) :
    ∃ order : List Nat, order.length = (peelLoop p fuel d [(j, v)] 0).2.2 ∧
      Propagation p d j v (peelLoop p fuel d [(j, v)] 0).1 (peelLoop p fuel d [(j, v)] 0).2.1 order :=
  peelLoop_induct p (fun d' w n => ∃ order : List Nat, order.length = n ∧ Propagation p d j v d' w order)
    (fun _ _ _ _ _ ⟨o, hl, h⟩ hk => ⟨o, hl, h.skip (fun sl hsl hv => (hopen sl hsl hv).2.1) hj hk⟩)
    (fun _ j' _ _ _ ⟨o, hl, h⟩ hk =>
      ⟨o ++ [j'], by simp [hl], h.resolve hopen hk⟩)
    fuel d [(j, v)] 0 ⟨[], rfl, Propagation.init hwf (fun sl hsl hv => ⟨(hopen sl hsl hv).1, (hopen sl hsl hv).2.1⟩) j v⟩

end Sys2Proof.Laws
end

