-- ==== Sys2Proof/Machine/HostProgram.lean ====
section
/-!
DEFINITION. Host programs over the port: the syntax of 30_encoding.md R126 and the pseudo-instructions of R129, with the
copy of a droplet of R127. They are the host's and nothing of the block (R131): each bus access they make is a host access
of the block's `step`.
-/

namespace Sys2Proof.Machine

open Sys2Proof

/-- `loc` of R126: a register, or word `w` of the window in a region. -/
inductive Place where
  | reg (r : Reg)
  | word (region w : Nat)
deriving DecidableEq, Repr

/-- The byte address of a place (R126, R67, R81). -/
def Place.addr : Place → Word
  | .reg r => BitVec.ofNat 32 (((registerMap.find? fun x => x.2 == r).map Prod.fst).getD 0)
  | .word region w => (BitVec.ofNat 32 region <<< 24) + BitVec.ofNat 32 (4 * w)

/-- A value a host program writes: a number or a host variable. -/
inductive HostValue where
  | const (v : Word)
  | var (x : Nat)
deriving DecidableEq, Repr

/-- A line of a host program (R126); a label is the number of its line. -/
inductive HostOp where
  | wr (l : Place) (v : HostValue)
  | rd (l : Place) (x : Option Nat)
  | poll (l : Place) (mask value : Word)
  | jne (x : Nat) (mask value : Word) (label : Nat)
  | jmp (label : Nat)
deriving DecidableEq, Repr

/-- The host: the line it is at and its variables; an unwritten variable is 0 (log 22). -/
structure HostState where
  line : Nat
  vars : Memory 32
deriving DecidableEq, Repr

/-- The value of a host value. -/
def HostValue.eval (h : HostState) : HostValue → Word
  | .const v => v
  | .var x => h.vars.read x

/-- One turn of the host at a line of its program (R126): the bus access it makes, if any, and where it goes on. A `POLL`
is one read a turn, repeated until its condition holds. The `$t` of R126's `POLL` is no host variable: the value read is
kept in none (log 23, DESIGN CHOICE, unsafe). -/
def HostOp.turn (h : HostState) (s : State) : HostOp → HostState × State
  | .wr l v => ({ h with line := h.line + 1 }, hostWrite s l.addr (v.eval h))
  | .rd l x =>
    let t := hostRead s l.addr
    ({ line := h.line + 1, vars := (x.map fun x => h.vars.write x t.rdata).getD h.vars }, t)
  | .poll l mask value =>
    let t := hostRead s l.addr
    (if t.rdata &&& mask = value then { h with line := h.line + 1 } else h, t)
  | .jne x mask value label =>
    (if h.vars.read x &&& mask = value then { h with line := h.line + 1 } else { h with line := label }, s)
  | .jmp label => ({ h with line := label }, s)

/-- One turn of a host program; past its last line the host is done. -/
def hostTurn (prog : List HostOp) (h : HostState) (s : State) : HostState × State :=
  match prog[h.line]? with
  | some o => o.turn h s
  | none => (h, s)

/-- How many of `ARG0`–`ARG2` a command's pseudo-instruction writes (R129, R121). -/
def operandCount : Instr → Nat
  | .encReset | .encNext | .decReset | .decIngest | .decRecon => 0
  | .encConfig | .encSeed | .decReadOut => 1
  | .encDegq | .decReadChunk | .decDegq | .decReadPend => 2
  | .encSelq => 3

/-- `WAIT_ENC` and `WAIT_DEC` (R129). -/
def waitFor : UnitId → HostOp
  | .enc => .poll (.reg .status) 1 0
  | .dec => .poll (.reg .status) 2 0

/-- `ISSUE <mnemonic> ops` (R129): the operands to `ARG0`, `ARG1`, `ARG2` in order, then the command word to `CMD`. -/
def issueOps (i : Instr) (ops : List HostValue) : List HostOp :=
  ([Reg.arg0, .arg1, .arg2].zip (ops.take (operandCount i))).map (fun x => HostOp.wr (.reg x.1) x.2) ++
    [.wr (.reg .cmd) (.const (encode i))]

/-- A command mnemonic with operands (R129). -/
def commandOps (i : Instr) (ops : List HostValue) : List HostOp := issueOps i ops ++ [waitFor i.unit]

/-- `CLR_ERR` (R129). -/
def clrErr : List HostOp := [.wr (.reg .err) (.const 0x000007FE)]

/-- `RD a -> $x ; WR b, $x`. -/
def copyOps (a b : Place) (x : Nat) : List HostOp := [.rd a (some x), .wr b (.var x)]

/-- `PUT_DROPLET` (R129): the encoder's droplet to the decoder's input (R127); `$s`, `$k`, `$p`, `$x` are variables 0 to 3. -/
def putDroplet (p : Params) : List HostOp :=
  copyOps (.reg .outSeed) (.reg .inSeed) 0 ++ copyOps (.reg .outK) (.reg .inK) 1 ++
    copyOps (.reg .outP) (.reg .inP) 2 ++
    (List.range p.payloadWords).flatMap fun w => copyOps (.word 0x02 w) (.word 0x08 w) 3

end Sys2Proof.Machine
end

