-- ==== Sys2Proof/Tests/Slice0.lean ====
section
/-!
SUPPORT. The model's own tests. Expected values are those of 95_test_vectors.md (the section is named) or of the rule
named. The last part shows, for every statement with hypotheses, a state that meets them.
-/

namespace Sys2Proof.Tests

open Sys2Proof Sys2Proof.Machine

/-! ### Small states -/

/-- A property of the next state; false at a fault or a refusal. -/
def next (o : Host.Outcome State Fault Refusal) (f : State → Bool) : Bool :=
  match o with
  | .next t => f t
  | .fault _ => false
  | .refused _ => false

/-- A busy unit's latches. -/
def lat (op : Opcode) (a0 a1 a2 : Word) : Latch := { busy := true, op := op, a0 := a0, a1 := a1, a2 := a2 }

/-- A RAM with these entries from address `n` on. -/
def ram (w n : Nat) : List (BitVec w) → Memory w
  | [] => []
  | v :: l => if v = 0 then ram w (n + 1) l else (n, v) :: ram w (n + 1) l

/-- Stub table A (section 0). -/
def stubA : Memory 32 := ram 32 0 [0, 2, 1, 3, 1, 2, 1, 1, 1, 1, 1, 1, 1, 1, 1, 1]

/-- Table I5 (section 0). -/
def tableI5 : Memory 32 := ram 32 1 [0x33333333, 0xB3333333, 0xDDDDDDDD, 0xF3333333]

/-- The ten bytes of P1's buffer (section 3.1). -/
def bytesP1 : Memory 8 := ram 8 0 [0x11, 0x22, 0x33, 0x44, 0x55, 0x66, 0x77, 0x88, 0x99, 0xAA]

/-- Reset, with another encoder. -/
def withEnc (e : Encoder) : State := { State.reset with enc := e }

/-- Reset, with another decoder. -/
def withDec (d : Decoder) : State := { State.reset with dec := d }

/-- Reset, with an encoder command issued. -/
def encBusy (op : Opcode) (a0 a1 a2 : Word) : State :=
  withEnc { State.reset.enc with latch := lat op a0 a1 a2 }

/-- Reset, with a decoder command issued. -/
def decBusy (op : Opcode) (a0 a1 : Word) : State := withDec { State.reset.dec with latch := lat op a0 a1 0 }

/-- P1's encoder in LOADING, the buffer written, with a command issued. -/
def loading (op : Opcode) (a0 : Word) : Encoder :=
  { State.reset.enc with
    latch := lat op a0 0 0, phase := .loading, degMode := .stub, len := 10, k := 3, pad := 2, src := bytesP1,
    degTab := stubA }

/-- P1's encoder in RUNNING at a seed, `ENC_NEXT` issued. -/
def running (seed : Word) : Encoder := { loading 0x04 0 with phase := .running, seedNext := seed }

/-- The encoder of P4 (section 3.4) with table I5 and a command issued. -/
def robustEnc (op : Opcode) (a0 a1 : Word) : Encoder :=
  { State.reset.enc with latch := lat op a0 a1 0, cdfK := 5, cdf := tableI5 }

/-- The same encoder in RUNNING on a 20-byte buffer of zeros. -/
def robustRunning : Encoder := { robustEnc 0x04 0 0 with phase := .running, len := 20, k := 5 }

/-- The decoder of P4 with table I5 and a command issued. -/
def robustDec (op : Opcode) (a0 a1 : Word) : Decoder :=
  { State.reset.dec with latch := lat op a0 a1 0, cdfK := 5, cdf := tableI5 }

/-- P2's decoder (section 3.2) with a droplet in its input registers and `DEC_INGEST` issued. -/
def holding (seed : Word) (l : List Byte) : Decoder :=
  { State.reset.dec with
    latch := lat 0x12 0 0 0, degMode := .stub, degTab := stubA, inSeed := seed, inK := 3, inPad := 2,
    inBuf := ram 8 0 l }

/-- The payloads of P1's droplets 1, 2 and 3 (section 3.1). -/
def pay1 : List Byte := [0x88, 0x88, 0x33, 0x44]
def pay2 : List Byte := [0x99, 0xAA, 0x00, 0x00]
def pay3 : List Byte := [0xDD, 0xEE, 0x44, 0xCC]

/-- A free slot, and P2's slot 0 after seed 1. -/
def freeSlot : Slot := { valid := false, mask := 0, pay := [] }
def slot02 : Slot := { valid := true, mask := 5, pay := ram 8 0 pay1 }

/-- P2 after seed 1: slot 0 holds {0, 2}. -/
def pendingOne (d : Decoder) : Decoder :=
  { d with
    paramsSet := true, k := 3, pad := 2, pendCount := 1, pend := [slot02, freeSlot, freeSlot, freeSlot], mask := 5 }

/-- P2 after seed 2: chunks 0 and 2 are resolved. -/
def twoKnown (d : Decoder) : Decoder :=
  { d with
    paramsSet := true, k := 3, pad := 2, resolved := 2, known := 5,
    chunk := ram 8 0 [0x11, 0x22, 0x33, 0x44, 0, 0, 0, 0, 0x99, 0xAA] }

/-- P2 after seed 3: complete. -/
def completeDec (d : Decoder) : Decoder :=
  { d with paramsSet := true, k := 3, pad := 2, resolved := 3, known := 7, chunk := bytesP1 }

/-- P2's decoder with another command issued. -/
def reading (op : Opcode) (a0 a1 : Word) : Decoder := { holding 0 [] with latch := lat op a0 a1 0 }

/-! ### Well-formedness: an ill-formed term for each check -/

theorem test_wf_reference : Params.reference.wf := by decide
theorem test_wf_refuses_chunkSize_zero : ¬ Params.wf { chunkSize := 0, kMax := 16, nPend := 4, degtabLen := 16 } := by
  decide
theorem test_wf_refuses_chunkSize_large :
    ¬ Params.wf { chunkSize := 4097, kMax := 16, nPend := 4, degtabLen := 16 } := by decide
theorem test_wf_refuses_kMax_zero : ¬ Params.wf { chunkSize := 4, kMax := 0, nPend := 4, degtabLen := 16 } := by decide
theorem test_wf_refuses_kMax_large : ¬ Params.wf { chunkSize := 4, kMax := 65537, nPend := 4, degtabLen := 16 } := by
  decide
theorem test_wf_refuses_large_buffer : ¬ Params.wf { chunkSize := 4096, kMax := 4097, nPend := 4, degtabLen := 16 } := by
  decide
theorem test_wf_refuses_nPend_zero : ¬ Params.wf { chunkSize := 4, kMax := 16, nPend := 0, degtabLen := 16 } := by decide
theorem test_wf_refuses_nPend_large : ¬ Params.wf { chunkSize := 4, kMax := 16, nPend := 65537, degtabLen := 16 } := by
  decide
theorem test_wf_refuses_degtabLen_zero : ¬ Params.wf { chunkSize := 4, kMax := 16, nPend := 4, degtabLen := 0 } := by
  decide
theorem test_wf_refuses_degtabLen_large :
    ¬ Params.wf { chunkSize := 4, kMax := 16, nPend := 4, degtabLen := 65537 } := by decide
theorem test_wf_refuses_reserved_bits : ¬ CmdWord.reservedZero 0x00000104 := by decide
theorem test_wf_refuses_unit : ¬ CmdWord.unitLegal 0x00000020 := by decide
theorem test_wf_refuses_function_zero : ¬ CmdWord.functionLegal 0x00000010 := by decide
theorem test_wf_refuses_enc_function_7 : ¬ CmdWord.functionLegal 0x00000007 := by decide
theorem test_wf_refuses_dec_function_8 : ¬ CmdWord.functionLegal 0x00000018 := by decide

/-! ### Decoding: each command's word from the table of R121, written out bit by bit (RSVD, UNIT, FN) -/

theorem test_decode_encReset : decode 0b00000000_00000000_00000000_0000_0001 = .ok .encReset := by decide
theorem test_decode_encConfig : decode 0b00000000_00000000_00000000_0000_0010 = .ok .encConfig := by decide
theorem test_decode_encSeed : decode 0b00000000_00000000_00000000_0000_0011 = .ok .encSeed := by decide
theorem test_decode_encNext : decode 0b00000000_00000000_00000000_0000_0100 = .ok .encNext := by decide
theorem test_decode_encDegq : decode 0b00000000_00000000_00000000_0000_0101 = .ok .encDegq := by decide
theorem test_decode_encSelq : decode 0b00000000_00000000_00000000_0000_0110 = .ok .encSelq := by decide
theorem test_decode_decReset : decode 0b00000000_00000000_00000000_0001_0001 = .ok .decReset := by decide
theorem test_decode_decIngest : decode 0b00000000_00000000_00000000_0001_0010 = .ok .decIngest := by decide
theorem test_decode_decRecon : decode 0b00000000_00000000_00000000_0001_0011 = .ok .decRecon := by decide
theorem test_decode_decReadOut : decode 0b00000000_00000000_00000000_0001_0100 = .ok .decReadOut := by decide
theorem test_decode_decReadChunk : decode 0b00000000_00000000_00000000_0001_0101 = .ok .decReadChunk := by decide
theorem test_decode_decDegq : decode 0b00000000_00000000_00000000_0001_0110 = .ok .decDegq := by decide
theorem test_decode_decReadPend : decode 0b00000000_00000000_00000000_0001_0111 = .ok .decReadPend := by decide

/-- The illegal words of section 2.7, each with the `LAST_ERR` a write of it to `CMD` leaves. -/
theorem test_issue_illegal :
    [((0x00000000 : Word), (0x0001 : Word)), (0x07, 0x0701), (0x0F, 0x0F01), (0x10, 0x1001), (0x18, 0x1801),
      (0x1F, 0x1F01), (0x20, 0x2001), (0x104, 0x0401), (0xFFFFFFFF, 0xFF01)].all (fun x =>
        readReg (issue x.1 State.reset) .lastErr == x.2 && (issue x.1 State.reset).err == 2) = true := by decide

/-- The very next step runs a fetched command, for every row of the table. -/
theorem test_fetch_runs :
    [(0x01, Instr.encReset), (0x02, .encConfig), (0x03, .encSeed), (0x04, .encNext), (0x05, .encDegq),
      (0x06, .encSelq), (0x11, .decReset), (0x12, .decIngest), (0x13, .decRecon), (0x14, .decReadOut),
      (0x15, .decReadChunk), (0x16, .decDegq), (0x17, .decReadPend)].all (fun x =>
        completingCommand (State.reset.withFetchWord 32 x.1) == some x.2 &&
          next (step (State.reset.withFetchWord 32 x.1)) fun t => !(t.latchOf x.2.unit).busy) = true := by decide

/-! ### The generator (section 2.1) -/

theorem test_fmix32 : fmix32 1 = 0x514E28B7 ∧ fmix32 0xFFFFFFFF = 0x81F16F39 ∧ rngInit 0 = 0x6D2B79F5 := by decide
theorem test_draws : rngNext (rngInit 1) = 0x1F48D1FB ∧ rngNext (rngNext (rngInit 1)) = 0xAB81DB40 := by decide

/-! ### One step of each command (sections 2.3 to 2.6) -/

theorem test_encReset : next (exec .encReset (withEnc (running 5))) (fun t =>
    t.enc.phase == .idle && t.enc.len == 0 && t.enc.seedNext == 0 && t.enc.degMode == .stub &&
      t.enc.degTab.read 3 == 3) = true := by decide

theorem test_encConfig : next (exec .encConfig (encBusy 0x02 10 0 0)) (fun t =>
    t.enc.k == 3 && t.enc.pad == 2 && readReg t .status == 0x004) = true := by decide
theorem test_encConfig_too_long : next (exec .encConfig (encBusy 0x02 65 0 0)) (fun t =>
    t.enc.k == 0 && readReg t .lastErr == 0x0204 && readReg t .status == 0x100) = true := by decide

theorem test_encSeed : next (exec .encSeed (withEnc (loading 0x03 16))) (fun t =>
    t.enc.seedNext == 16 && readReg t .status == 0x008) = true := by decide
theorem test_encSeed_idle : next (exec .encSeed (encBusy 0x03 5 0 0)) (fun t =>
    readReg t .lastErr == 0x0303 && t.enc.seedNext == 0) = true := by decide

theorem test_encNext : next (exec .encNext (withEnc (running 1))) (fun t =>
    t.enc.outDeg == 2 && readLoc t (.emask 0) == 5 && readLoc t (.out 0) == 0x44338888 && t.enc.seedNext == 2 &&
      t.enc.outK == 3 && t.enc.outPad == 2) = true := by decide
theorem test_encNext_wraps : next (exec .encNext (withEnc (running 0xFFFFFFFF))) (fun t =>
    t.enc.outDeg == 1 && readLoc t (.out 0) == 0x0000AA99 && t.enc.seedNext == 0) = true := by decide

theorem test_encDegq : next (exec .encDegq (withEnc (robustEnc 0x05 2 5))) (fun t =>
    t.enc.result == 3 && readLoc t (.emask 0) == 0x1A && !t.enc.clamped) = true := by decide
theorem test_encDegq_stub_clamps : next (exec .encDegq (withEnc { running 0 with latch := lat 0x05 3 2 0 })) (fun t =>
    t.enc.result == 2 && readLoc t (.emask 0) == 3 && t.enc.clamped) = true := by decide

theorem test_encSelq : next (exec .encSelq (encBusy 0x06 5 2 16)) (fun t =>
    t.enc.result == 2 && readLoc t (.emask 0) == 0x220 && !t.enc.clamped) = true := by decide
theorem test_encSelq_clamps : next (exec .encSelq (encBusy 0x06 6 0xFFFFFFFF 5)) (fun t =>
    t.enc.result == 5 && readLoc t (.emask 0) == 0x1F && t.enc.clamped) = true := by decide

theorem test_decReset : next (exec .decReset (withDec (completeDec (reading 0x11 0 0)))) (fun t =>
    readReg t .status == 0 && t.dec.k == 0 && readLoc t (.known 0) == 0 && t.dec.inK == 3) = true := by decide

theorem test_decIngest_resolves : next (exec .decIngest (withDec (pendingOne (holding 2 pay2)))) (fun t =>
    t.dec.outcome == .resolved && t.dec.newly == 2 && readLoc t (.known 0) == 5 && t.dec.pendCount == 0 &&
      t.dec.chunk.read 0 == 0x11 && t.dec.chunk.read 9 == 0xAA) = true := by decide
theorem test_decIngest_malformed_first :
    next (exec .decIngest (withDec { pendingOne (holding 1 pay1) with inPad := 4 })) (fun t =>
      readReg t .lastErr == 0x1205 && t.dec.outcome == .rejected && t.dec.pendCount == 1) = true := by decide

theorem test_decRecon : next (exec .decRecon (withDec (completeDec (reading 0x13 0 0)))) (fun t =>
    t.dec.result == 10) = true := by decide
theorem test_decRecon_early : next (exec .decRecon (withDec (twoKnown (reading 0x13 0 0)))) (fun t =>
    readReg t .lastErr == 0x1309) = true := by decide

theorem test_decReadOut : next (exec .decReadOut (withDec (completeDec (reading 0x14 2 0)))) (fun t =>
    t.dec.result == 0x0000AA99) = true := by decide
theorem test_decReadOut_past_end : next (exec .decReadOut (withDec (completeDec (reading 0x14 3 0)))) (fun t =>
    readReg t .lastErr == 0x1404 && t.dec.result == 0) = true := by decide

theorem test_decReadChunk : next (exec .decReadChunk (withDec (twoKnown (reading 0x15 0 0)))) (fun t =>
    t.dec.result == 0x44332211) = true := by decide
theorem test_decReadChunk_unresolved : next (exec .decReadChunk (withDec (twoKnown (reading 0x15 1 0)))) (fun t =>
    readReg t .lastErr == 0x150A) = true := by decide

theorem test_decDegq : next (exec .decDegq (withDec (robustDec 0x16 4 5))) (fun t =>
    t.dec.result == 4 && readLoc t (.dmask 0) == 0x1E) = true := by decide
theorem test_decDegq_mismatch : next (exec .decDegq (withDec { robustDec 0x16 1 5 with cdfK := 4 })) (fun t =>
    readReg t .lastErr == 0x1607) = true := by decide

theorem test_decReadPend : next (exec .decReadPend (withDec (pendingOne (reading 0x17 0 0)))) (fun t =>
    t.dec.result == 0x80000002) = true := by decide
theorem test_decReadPend_payload : next (exec .decReadPend (withDec (pendingOne (reading 0x17 0 2)))) (fun t =>
    t.dec.result == 0x44338888) = true := by decide

/-! ### Port (section 2.7) -/

theorem test_port_unmapped : locOf Params.reference 0x40 = .unmapped ∧ locOf Params.reference 0x06000000 = .unmapped ∧
    locOf Params.reference 0x0C000004 = .unmapped ∧ locOf Params.reference 0x31 = .reg .status := by decide
theorem test_port_write_src : (hostWrite (withEnc { (loading 0x02 0).softReset with
      phase := .loading, len := 10, k := 3, pad := 2, src := [] }) 0x01000008 0xDDCCAA99).enc.src =
    ram 8 8 [0x99, 0xAA] := by decide
theorem test_port_locked : readReg (hostWrite (withDec (holding 2 pay2)) 0x218 9) .lastErr = 0x0002 := by decide

/-! ### Host programs (section 3, the table of encodings) -/

theorem test_host_encDegq : (commandOps .encDegq [.const 2, .const 5]).map (fun o =>
    match o with
    | .wr l (.const v) => (l.addr, v)
    | .poll l mask _ => (l.addr, mask)
    | _ => (0, 0)) = [(0x24, 2), (0x28, 5), (0x20, 5), (0x30, 1)] := by decide
theorem test_host_putDroplet : (putDroplet Params.reference).map (fun o =>
    match o with
    | .wr l _ => l.addr
    | .rd l _ => l.addr
    | _ => 0) = [0x118, 0x218, 0x11C, 0x21C, 0x120, 0x220, 0x02000000, 0x08000000] := by decide

/-! ### States that meet the hypotheses of the statements, clause by clause, at boundary values -/

/-- Both units busy. -/
def bothBusy : State := { withEnc (running 1) with dec := pendingOne (holding 2 pay2) }

/-- The same with one listed event. -/
def facing (s : State) (e : Event) : State := { s with events := [e] }

/-- A host write as the next event. -/
def writing (s : State) (a v : Word) : State := facing s (.access (.write a v))

theorem test_meets_StepRunsTheLatchedCommand :
    let s := facing bothBusy (.complete .dec)
    s.events = .complete .dec :: [] ∧ (s.latchOf .dec).busy = true ∧
      decode ((s.latchOf .dec).op.setWidth 32) = .ok .decIngest ∧ Instr.decIngest.unit = .dec ∧ Instr.decIngest.wf := by
  decide
theorem test_meets_StepTakesTheOldestEvent :
    (facing State.reset (.access (.read 0x30))).events = .access (.read 0x30) :: [] ∧
    (writing State.reset 0x20 0x12).events = .access (.write 0x20 0x12) :: [] ∧
    (facing State.reset (.complete .enc)).events = .complete .enc :: [] ∧
    ((facing State.reset (.complete .enc)).latchOf .enc).busy = false := by decide
theorem test_meets_QuietBlockFinishesItsCommands :
    (State.reset.events = [] ∧ State.reset.enc.latch.busy = false ∧ State.reset.dec.latch.busy = false) ∧
    (∀ s ∈ [withEnc (running 1), withDec (holding 1 pay1)], s.events = []) ∧
    (let s := withEnc (running 1);
      (s.latchOf .enc).busy = true ∧ (s.latchOf .dec).busy = false ∧
        decode ((s.latchOf .enc).op.setWidth 32) = .ok .encNext ∧ Instr.encNext.unit = .enc) ∧
    (let s := withDec (holding 1 pay1);
      (s.latchOf .dec).busy = true ∧ (s.latchOf .enc).busy = false ∧
        decode ((s.latchOf .dec).op.setWidth 32) = .ok .decIngest ∧ Instr.decIngest.unit = .dec) ∧
    (bothBusy.events = [] ∧ bothBusy.enc.latch.busy = true ∧ bothBusy.dec.latch.busy = true ∧
      decode (bothBusy.enc.latch.op.setWidth 32) = .ok .encNext ∧
      decode (bothBusy.dec.latch.op.setWidth 32) = .ok .decIngest) := by decide
theorem test_meets_QuietBlockFinishesItsCommands_inv : bothBusy.Inv := ⟨by decide, by decide, by decide, by decide⟩
theorem test_meets_CommandWriteIsTheIssueStep :
    locOf bothBusy.params 0x20 = .reg .cmd ∧ locOf bothBusy.params 0x23 = .reg .cmd ∧
    (0x104 : Word).extractLsb' 8 24 ≠ 0 ∧ decodeOpcode ((0x18 : Word).extractLsb' 0 8) = none ∧
    (0x17 : Word).extractLsb' 8 24 = 0 ∧ decodeOpcode ((0x17 : Word).extractLsb' 0 8) = some .decReadPend ∧
    (bothBusy.latchOf .dec).busy = true ∧ (State.reset.latchOf .dec).busy = false := by decide
theorem test_meets_IssuedCommandIgnoresLaterArguments : ∃ t, exec .encNext bothBusy = .next t := ⟨_, rfl⟩
theorem test_meets_RaisingRecordsTheError :
    ∀ x ∈ [(ErrCode.illegalCmd, 1), (.chunkUnresolved, 10)], x ∈ [(ErrCode.illegalCmd, 1), (.unitBusy, 2), (.badState, 3),
      (.badArg, 4), (.malformedDroplet, 5), (.inconsistentParams, 6), (.degTableMismatch, 7), (.pendingOverflow, 8),
      (.reconstructBeforeComplete, 9), (.chunkUnresolved, 10)] := by decide
theorem test_meets_ErrorBitsAreWriteOneToClear :
    locOf State.reset.params 0x34 = .reg .err ∧ locOf State.reset.params 0x37 = .reg .err := by decide
theorem test_meets_EncoderCommandRefusals :
    (withEnc (loading 0x02 10)).enc.phase ≠ .idle ∧
    ((encBusy 0x02 0 0 0).enc.phase = .idle ∧ (encBusy 0x02 0 0 0).enc.latch.a0.toNat = 0) ∧
    ((encBusy 0x02 65 0 0).enc.phase = .idle ∧
      (encBusy 0x02 65 0 0).params.kMax * (encBusy 0x02 65 0 0).params.chunkSize <
        (encBusy 0x02 65 0 0).enc.latch.a0.toNat) ∧
    (encBusy 0x03 0 0 0).enc.phase = .idle ∧
    (withEnc (loading 0x04 0)).enc.phase ≠ .running ∧
    (let s := withEnc { robustRunning with cdfK := 4 };
      s.enc.phase = .running ∧ s.enc.degMode = .robust ∧ s.enc.cdfK ≠ s.enc.k) ∧
    ((encBusy 0x05 0 0 0).enc.latch.a1.toNat = 0 ∧
      (encBusy 0x05 0 17 0).params.kMax < (encBusy 0x05 0 17 0).enc.latch.a1.toNat) ∧
    (let s := withEnc (robustEnc 0x05 0 16);
      1 ≤ s.enc.latch.a1.toNat ∧ s.enc.latch.a1.toNat ≤ s.params.kMax ∧ s.enc.degMode = .robust ∧
        s.enc.cdfK ≠ s.enc.latch.a1) ∧
    ((encBusy 0x06 0 0 0).enc.latch.a2.toNat = 0 ∧
      (encBusy 0x06 0 0 17).params.kMax < (encBusy 0x06 0 0 17).enc.latch.a2.toNat) := by decide
theorem test_meets_DecoderReadoutRefusals :
    (withDec (twoKnown (reading 0x14 0 0))).dec.complete = false ∧
    (let s := withDec (completeDec (reading 0x14 3 0));
      s.dec.complete = true ∧ s.dec.k.toNat * s.params.chunkSize - s.dec.pad.toNat ≤ 4 * s.dec.latch.a0.toNat) ∧
    (decBusy 0x15 0 0).dec.paramsSet = false ∧
    (withDec (twoKnown (reading 0x15 3 0))).dec.k.toNat ≤ 3 ∧
    (withDec (twoKnown (reading 0x15 0 1))).params.chunkSize ≤ 4 * 1 ∧
    (let s := withDec (twoKnown (reading 0x15 1 0));
      s.dec.paramsSet = true ∧ s.dec.latch.a0.toNat < s.dec.k.toNat ∧ 4 * s.dec.latch.a1.toNat < s.params.chunkSize ∧
        s.dec.known.testBit s.dec.latch.a0.toNat = false) ∧
    ((decBusy 0x16 0 0).dec.latch.a1.toNat = 0 ∧
      (decBusy 0x16 0 17).params.kMax < (decBusy 0x16 0 17).dec.latch.a1.toNat) ∧
    (let s := withDec (robustDec 0x16 0 16);
      1 ≤ s.dec.latch.a1.toNat ∧ s.dec.latch.a1.toNat ≤ s.params.kMax ∧ s.dec.degMode = .robust ∧
        s.dec.cdfK ≠ s.dec.latch.a1) ∧
    (decBusy 0x17 4 0).params.nPend ≤ (decBusy 0x17 4 0).dec.latch.a0.toNat ∧
    ceilDiv (decBusy 0x17 0 3).params.kMax 32 + ceilDiv (decBusy 0x17 0 3).params.chunkSize 4 <
      (decBusy 0x17 0 3).dec.latch.a1.toNat := by decide
theorem test_meets_BadDropletIsRejected :
    (let s := withDec { holding 1 pay1 with inK := 17 }; s.params.kMax < s.dec.inK.toNat) ∧
    (let s := withDec { pendingOne (holding 1 pay1) with inK := 4, inPad := 3 };
      ¬ (s.dec.inK.toNat = 0 ∨ s.params.kMax < s.dec.inK.toNat ∨ s.params.chunkSize ≤ s.dec.inPad.toNat) ∧
        s.dec.paramsSet = true ∧ s.dec.inK ≠ s.dec.k) ∧
    (let s := withDec { robustDec 0x12 0 0 with inK := 16 };
      ¬ (s.dec.inK.toNat = 0 ∨ s.params.kMax < s.dec.inK.toNat ∨ s.params.chunkSize ≤ s.dec.inPad.toNat) ∧
        ¬ (s.dec.paramsSet = true ∧ (s.dec.inK ≠ s.dec.k ∨ s.dec.inPad ≠ s.dec.pad)) ∧
        ¬ tableReady s.dec.degMode s.dec.cdfK s.dec.inK) := by decide

/-- The hypotheses of `EncConfigEstablishesTheBuffer`. -/
abbrev configurable (s : State) : Prop :=
  s.params.wf ∧ s.enc.phase = .idle ∧ 1 ≤ s.enc.latch.a0.toNat ∧
    s.enc.latch.a0.toNat ≤ s.params.kMax * s.params.chunkSize

theorem test_meets_EncConfigEstablishesTheBuffer :
    configurable (encBusy 0x02 1 0 0) ∧ configurable (encBusy 0x02 64 0 0) := by decide
theorem test_meets_EncSeedSetsTheSeedAndSeals :
    (withEnc (loading 0x03 16)).enc.phase ≠ .idle ∧ (withEnc (running 1)).enc.phase ≠ .idle := by decide

/-- The hypotheses of `EncNextEmitsTheDroplet`. -/
abbrev emitting (s : State) : Prop := s.enc.phase = .running ∧ tableReady s.enc.degMode s.enc.cdfK s.enc.k

theorem test_meets_EncNextEmitsTheDroplet : emitting (withEnc (running 0xFFFFFFFF)) ∧ emitting (withEnc robustRunning) := by
  decide
theorem test_meets_EncDegqReportsTheDegree :
    let s := withEnc (robustEnc 0x05 2 5)
    let s' := withEnc { running 0 with latch := lat 0x05 3 16 0 }
    (1 ≤ s.enc.latch.a1.toNat ∧ s.enc.latch.a1.toNat ≤ s.params.kMax ∧
      tableReady s.enc.degMode s.enc.cdfK s.enc.latch.a1) ∧
    (1 ≤ s'.enc.latch.a1.toNat ∧ s'.enc.latch.a1.toNat ≤ s'.params.kMax ∧
      tableReady s'.enc.degMode s'.enc.cdfK s'.enc.latch.a1) := by decide
theorem test_meets_EncSelqReportsTheSelection :
    (1 ≤ (encBusy 0x06 1 5 1).enc.latch.a2.toNat ∧ (encBusy 0x06 1 5 1).enc.latch.a2.toNat ≤ 16) ∧
    (1 ≤ (encBusy 0x06 9 17 16).enc.latch.a2.toNat ∧ (encBusy 0x06 9 17 16).enc.latch.a2.toNat ≤ 16) ∧
    State.reset.params.kMax = 16 := by decide
theorem test_meets_DecReconReportsTheLength : (withDec (completeDec (reading 0x13 0 0))).dec.complete = true := by decide
theorem test_meets_DecReadOutReturnsTheStream :
    let s := withDec (completeDec (reading 0x14 2 0))
    s.dec.complete = true ∧ 4 * s.dec.latch.a0.toNat < s.dec.k.toNat * s.params.chunkSize - s.dec.pad.toNat := by decide
theorem test_meets_DecReadChunkReturnsTheChunk :
    let s := withDec (twoKnown (reading 0x15 2 0))
    s.dec.paramsSet = true ∧ s.dec.latch.a0.toNat < s.dec.k.toNat ∧ 4 * s.dec.latch.a1.toNat < s.params.chunkSize ∧
      s.dec.known.testBit s.dec.latch.a0.toNat = true := by decide
theorem test_meets_DecDegqReportsTheDegree :
    let s := withDec (robustDec 0x16 4 5)
    1 ≤ s.dec.latch.a1.toNat ∧ s.dec.latch.a1.toNat ≤ s.params.kMax ∧
      tableReady s.dec.degMode s.dec.cdfK s.dec.latch.a1 := by decide

/-- The hypotheses of `DecReadPendReturnsTheRow`. -/
abbrev rowAt (s : State) (sl : Slot) : Prop :=
  s.dec.latch.a0.toNat < s.params.nPend ∧ s.dec.pend[s.dec.latch.a0.toNat]? = some sl ∧
    s.dec.latch.a1.toNat ≤ ceilDiv s.params.kMax 32 + ceilDiv s.params.chunkSize 4

theorem test_meets_DecReadPendReturnsTheRow :
    (rowAt (withDec (pendingOne (reading 0x17 3 0))) freeSlot ∧ freeSlot.valid = false) ∧ slot02.valid = true ∧
    rowAt (withDec (pendingOne (reading 0x17 0 0))) slot02 ∧
    (rowAt (withDec (pendingOne (reading 0x17 0 1))) slot02 ∧ 1 ≤ ceilDiv State.reset.params.kMax 32) ∧
    (rowAt (withDec (pendingOne (reading 0x17 0 2))) slot02 ∧ ceilDiv State.reset.params.kMax 32 < 2) := by decide

/-- A decoder with one pending slot only (P3, section 3.3). -/
def oneSlot (d : Decoder) : State :=
  { withDec { d with pend := [slot02] } with params := { Params.reference with nPend := 1 } }

/-- The reduced set of the droplet in the input registers. -/
def reduced (s : State) : Mask := Mask.without (ingestSelection s.params s.dec).mask s.dec.known

theorem test_meets_AcceptedDropletIsStoredOrDropped :
    (headerAccepted (withDec (completeDec (holding 4 pay2))) ∧
      popcount 16 (reduced (withDec (completeDec (holding 4 pay2)))) = 0) ∧
    (let s := withDec (pendingOne (holding 1 pay1));
      headerAccepted s ∧ 2 ≤ popcount 16 (reduced s) ∧ s.dec.pend[0]? = some slot02 ∧ slot02.valid = true ∧
        slot02.mask = reduced s) ∧
    (let s := withDec (pendingOne (holding 3 pay3));
      headerAccepted s ∧ 2 ≤ popcount 16 (reduced s) ∧
        (∀ sl ∈ s.dec.pend, ¬ (sl.valid = true ∧ sl.mask = reduced s)) ∧ s.dec.pend[1]? = some freeSlot ∧
        freeSlot.valid = false ∧ s.dec.pend[0]? = some slot02 ∧ slot02.valid = true) ∧
    (let s := oneSlot (pendingOne (holding 3 pay3));
      headerAccepted s ∧ 2 ≤ popcount 16 (reduced s) ∧ ∀ sl ∈ s.dec.pend, sl.valid = true ∧ sl.mask ≠ reduced s) := by
  decide
theorem test_meets_DropletOfOneUnknownResolves :
    let s := withDec (pendingOne (holding 2 pay2))
    s.Inv ∧ headerAccepted s ∧ popcount s.params.kMax (reduced s) = 1 :=
  ⟨⟨by decide, by decide, by decide, by decide⟩, by decide⟩

/-- P2 with all three chunks pending in slot 0, before the degree-1 droplet of chunk 2. -/
def allPending : State :=
  withDec { pendingOne (holding 2 pay2) with pend := [{ slot02 with mask := 7 }, freeSlot, freeSlot, freeSlot] }

theorem test_meets_DropletOfOneUnknownResolves_kept :
    (allPending.Inv ∧ headerAccepted allPending ∧ popcount allPending.params.kMax (reduced allPending) = 1) ∧
    next (exec .decIngest allPending) (fun t =>
      t.dec.pend.map (fun sl => (sl.valid, sl.mask)) == [(true, 3), (false, 0), (false, 0), (false, 0)] &&
        t.dec.newly == 1 && t.dec.known == 4) = true :=
  ⟨⟨⟨by decide, by decide, by decide, by decide⟩, by decide⟩, by decide⟩

/-- The same droplet with two slots that both reduce to chunk 0, with other payloads (an inconsistent stream, R247). -/
def contested : State :=
  withDec { pendingOne (holding 2 pay2) with
    pendCount := 2, pend := [slot02, { slot02 with pay := ram 8 0 pay3 }, freeSlot, freeSlot] }

theorem test_meets_DropletOfOneUnknownResolves_contested :
    (contested.Inv ∧ headerAccepted contested ∧ popcount contested.params.kMax (reduced contested) = 1) ∧
    next (exec .decIngest contested) (fun t =>
      t.dec.newly == 2 && t.dec.pendCount == 0 && t.dec.chunk.read 0 == 0x11 && t.dec.chunk.read 3 == 0x44) = true :=
  ⟨⟨⟨by decide, by decide, by decide, by decide⟩, by decide⟩, by decide⟩

theorem test_meets_GeneratorStateIsNeverZero : (1 : Word) ≠ 0 := by decide
theorem test_meets_RobustLookupIsTheLeastDegree :
    ∀ d < 5, ∀ e < 5, 1 ≤ d → d ≤ e → tableI5.read d ≤ tableI5.read e := by decide
theorem test_meets_EffectiveDegreeStaysInRange :
    Params.reference.wf ∧ (withEnc robustRunning).enc.degConfig.mode = .robust ∧
    (withEnc (running 0)).enc.degConfig.mode = .stub ∧
    (degreeFunction Params.reference (running 0).degConfig 0 3).deg = 0 ∧
    (headerAccepted (withDec (holding 0 [])) ∧
      (ingestSelection Params.reference (withDec (holding 0 [])).dec).deg = 0) := by decide
theorem test_meets_SelectorMeetsItsContract :
    let s := encBusy 0x06 9 17 16
    let s' := withEnc { running 3 with latch := lat 0x06 9 17 16 }
    s.enc.latch.a0 = s'.enc.latch.a0 ∧ s.enc.latch.a1 = s'.enc.latch.a1 ∧ s.enc.latch.a2 = s'.enc.latch.a2 ∧
      1 ≤ s.enc.latch.a2.toNat ∧ s.enc.latch.a2.toNat ≤ s.params.kMax ∧ s'.enc.latch.a2.toNat ≤ s'.params.kMax ∧
      (∃ t, exec .encSelq s = .next t) ∧ ∃ t', exec .encSelq s' = .next t' :=
  ⟨rfl, rfl, rfl, by decide, by decide, by decide, ⟨_, rfl⟩, ⟨_, rfl⟩⟩
theorem test_meets_AddressMapPlacesEveryLocation :
    Params.reference.wf ∧ locOf Params.reference 0x0100003C = .src 15 ∧ locOf Params.reference 0x0300003C = .ecdf 15 ∧
    locOf Params.reference 0x0C000000 = .known 0 := by decide
theorem test_meets_UnmappedLocationsAreInert :
    (windowSize Params.reference (regionOf 0x0C000004) = some 1 ∧ 1 ≤ wordIndexOf 0x0C000004) ∧
    (windowSize Params.reference (regionOf 0x01000040) = some 16 ∧ 16 ≤ wordIndexOf 0x01000040) ∧
    (regionOf 0xFF000000 ≠ 0 ∧ windowSize Params.reference (regionOf 0xFF000000) = none) := by decide
theorem test_meets_UnmappedLocationsAreInert_register : regionOf 0x14 = 0 ∧ 4 * wordIndexOf 0x14 ∉
    [0x000, 0x004, 0x008, 0x00C, 0x010, 0x020, 0x024, 0x028, 0x02C, 0x030, 0x034, 0x038, 0x03C, 0x100, 0x104, 0x108,
      0x10C, 0x110, 0x114, 0x118, 0x11C, 0x120, 0x124, 0x128, 0x200, 0x204, 0x208, 0x20C, 0x210, 0x214, 0x218, 0x21C,
      0x220, 0x224, 0x228, 0x22C] := by decide
theorem test_meets_ConstantAndArgumentRegisters :
    [(0x00, Reg.id), (0x04, .cfgS), (0x08, .cfgKmax), (0x0C, .cfgNpend), (0x10, .cfgDegtabLen), (0x20, .cmd),
      (0x3C, .ctrl), (0x24, .arg0), (0x28, .arg1), (0x2C, .arg2)].all (fun x =>
        locOf Params.reference (BitVec.ofNat 32 x.1) == .reg x.2) = true := by decide
theorem test_meets_ConstantAndArgumentRegisters_readOnly :
    [(0x030, Reg.status), (0x038, .lastErr), (0x108, .encL), (0x128, .encResult), (0x208, .decK), (0x22C, .decNewly)].all
      (fun x => locOf Params.reference (BitVec.ofNat 32 x.1) == .reg x.2) = true ∧
    locOf Params.reference 0x02000000 = .out 0 ∧ locOf Params.reference 0x05000000 = .emask 0 ∧
    locOf Params.reference 0x0B000000 = .dmask 0 ∧ locOf Params.reference 0x0C000003 = .known 0 := by decide

/-- The hypotheses of the clause of `IdleReadsReturnTheCurrentValue` on a location no running command writes. -/
abbrev aloneAt (s : State) (a : Word) (l : Loc) : Prop :=
  locOf s.params a = l ∧ l ≠ .reg .status ∧ l ≠ .reg .err ∧ l ≠ .reg .lastErr ∧ leavesAlone s .enc a ∧
    leavesAlone s .dec a

theorem leavesAlone_of {s : State} {u : UnitId} {a : Word} {i : Instr} (h : executing s u = some i)
    (hr : ∀ r ∈ outputRegs s i, locOf s.params a ≠ .reg r) (hw : regionOf a ∉ outputRegions i) : leavesAlone s u a := by
  refine ⟨fun j hj => ?_, fun hd => ?_⟩
  · obtain rfl := Option.some.inj (h.symm.trans hj.1)
    exact ⟨hr, hw⟩
  · obtain rfl := Option.some.inj (h.symm.trans hd)
    exact ⟨hr _ (by simp [outputRegs]), hr _ (by simp [outputRegs])⟩

theorem leavesAlone_rejected {s : State} {u : UnitId} {a : Word} (h : executing s u = some .decIngest)
    (hc : ¬ headerAccepted s) (hr : locOf s.params a ≠ .reg .decOutcome ∧ locOf s.params a ≠ .reg .decNewly) :
    leavesAlone s u a := by
  refine ⟨fun j hj => ?_, fun _ => hr⟩
  obtain rfl := Option.some.inj (h.symm.trans hj.1)
  exact absurd hj.2 hc

theorem leavesAlone_idle {s : State} {u : UnitId} {a : Word} (h : executing s u = none) : leavesAlone s u a :=
  ⟨fun _ hj => absurd (h.symm.trans hj.1) (by simp), fun hd => absurd (h.symm.trans hd) (by simp)⟩

/-- P2's decoder running a `DEC_INGEST` that `CHECK` will reject. -/
def rejecting : State := withDec { pendingOne (holding 1 pay1) with inPad := 4 }

theorem test_meets_IdleReadsReturnTheCurrentValue :
    (State.reset.enc.latch.busy = false ∧ State.reset.dec.latch.busy = false) ∧
    (locOf State.reset.params 0x34 = .reg .err ∧ locOf State.reset.params 0x38 = .reg .lastErr ∧
      locOf State.reset.params 0x30 = .reg .status) ∧
    executing bothBusy .enc = some .encNext ∧ executing bothBusy .dec = some .decIngest ∧
    commandError bothBusy .encNext = none ∧ commandError bothBusy .decIngest = none ∧
    (executing rejecting .enc = none ∧ executing rejecting .dec = some .decIngest ∧
      commandError rejecting .decIngest = some .malformedDroplet ∧ ErrCode.malformedDroplet.code ≠ 4) ∧
    State.reset.enc.phase = .idle ∧ bothBusy.enc.phase ≠ .idle ∧ State.reset.lastErr = none ∧
    (State.reset.raise .unitBusy 0).lastErr = some { src := 0, code := .unitBusy } := by decide
theorem test_meets_IdleReadsReturnTheCurrentValue_alone :
    aloneAt bothBusy 0x108 (.reg .encL) ∧ aloneAt bothBusy 0x01000000 (.src 0) ∧
    aloneAt bothBusy 0x208 (.reg .decK) ∧ aloneAt bothBusy 0x0A00003C (.ddeg 15) := by
  refine ⟨⟨?_, ?_, ?_, ?_, ?_, ?_⟩, ⟨?_, ?_, ?_, ?_, ?_, ?_⟩, ⟨?_, ?_, ?_, ?_, ?_, ?_⟩, ?_, ?_, ?_, ?_, ?_, ?_⟩ <;>
    first
    | decide
    | exact leavesAlone_of (i := .encNext) (by decide) (by decide) (by decide)
    | exact leavesAlone_of (i := .decIngest) (by decide) (by decide) (by decide)
theorem test_meets_IdleReadsReturnTheCurrentValue_rejected :
    aloneAt rejecting 0x210 (.reg .decResolved) ∧ aloneAt rejecting 0x214 (.reg .decPendCount) ∧
    aloneAt rejecting 0x0C000000 (.known 0) ∧ aloneAt rejecting 0x0B000000 (.dmask 0) := by
  refine ⟨⟨?_, ?_, ?_, ?_, ?_, ?_⟩, ⟨?_, ?_, ?_, ?_, ?_, ?_⟩, ⟨?_, ?_, ?_, ?_, ?_, ?_⟩, ?_, ?_, ?_, ?_, ?_, ?_⟩ <;>
    first
    | decide
    | exact leavesAlone_idle (by decide)
    | exact leavesAlone_rejected (by decide) (by decide) (by decide)
theorem test_meets_IdleReadsReturnTheCurrentValue_status :
    (∀ i ∈ [Instr.encReset, .encConfig, .encSeed], executing bothBusy .enc ≠ some i) ∧
    (∀ i ∈ [Instr.encReset, .encNext, .encDegq, .encSelq], executing (withEnc (loading 0x03 1)) .enc ≠ some i) ∧
    (∀ i ∈ [Instr.decReset, .decIngest, .decDegq], executing (withDec (completeDec (reading 0x13 0 0))) .dec ≠ some i) ∧
    (executing bothBusy .dec ≠ some .decReset ∧ bothBusy.dec.paramsSet = true) := by decide
theorem test_meets_ProgressReadsStayInBounds :
    bothBusy.dec.latch.busy = true ∧ decodeOpcode bothBusy.dec.latch.op = some .decIngest ∧
    locOf bothBusy.params 0x30 = .reg .status ∧ locOf bothBusy.params 0x210 = .reg .decResolved ∧
    locOf bothBusy.params 0x214 = .reg .decPendCount ∧ locOf bothBusy.params 0x0C000000 = .known 0 ∧
    bothBusy.dec.known.testBit 0 = false ∧ (twoKnown (holding 3 pay3)).known.testBit 0 = true := by decide
theorem test_meets_ProgressReadsStayInBounds_inv : bothBusy.Inv ∧ (withDec (twoKnown (holding 3 pay3))).Inv :=
  ⟨⟨by decide, by decide, by decide, by decide⟩, ⟨by decide, by decide, by decide, by decide⟩⟩
theorem test_meets_ProgressReadsStayInBounds_exec : ∃ t, exec .decIngest bothBusy = .next t := ⟨_, rfl⟩
theorem test_meets_BusyUnitInputsAreLocked :
    bothBusy.enc.latch.busy = true ∧ bothBusy.dec.latch.busy = true ∧ locOf bothBusy.params 0x20 ≠ .reg .ctrl ∧
    locOf bothBusy.params 0x100 = .reg .encMode ∧ locOf bothBusy.params 0x104 = .reg .encCdfK ∧
    locOf bothBusy.params 0x01000000 = .src 0 ∧ locOf bothBusy.params 0x03000004 = .ecdf 1 ∧
    locOf bothBusy.params 0x04000000 = .edeg 0 ∧ locOf bothBusy.params 0x200 = .reg .decMode ∧
    locOf bothBusy.params 0x204 = .reg .decCdfK ∧ locOf bothBusy.params 0x218 = .reg .inSeed ∧
    locOf bothBusy.params 0x21C = .reg .inK ∧ locOf bothBusy.params 0x220 = .reg .inP ∧
    locOf bothBusy.params 0x08000000 = .inBuf 0 ∧ locOf bothBusy.params 0x09000004 = .dcdf 1 ∧
    locOf bothBusy.params 0x0A000000 = .ddeg 0 := by decide
theorem test_meets_EncoderConfigurationWrites :
    (let s := withEnc { running 1 with latch := Latch.por };
      s.enc.latch.busy = false ∧ s.enc.cdf.wf ∧ s.enc.degTab.wf ∧ s.enc.phase = .running) ∧
    (let s := withEnc { loading 0 0 with latch := Latch.por };
      s.enc.latch.busy = false ∧ s.enc.cdf.wf ∧ s.enc.degTab.wf ∧ s.enc.phase ≠ .running) ∧
    locOf State.reset.params 0x100 = .reg .encMode ∧ locOf State.reset.params 0x104 = .reg .encCdfK ∧
    locOf State.reset.params 0x03000000 = .ecdf 0 ∧ locOf State.reset.params 0x0300003C = .ecdf 15 ∧
    locOf State.reset.params 0x0400003C = .edeg 15 := by decide
theorem test_meets_DecoderConfigurationWrites :
    (let s := withDec { pendingOne (holding 1 pay1) with latch := Latch.por };
      s.dec.latch.busy = false ∧ s.dec.cdf.wf ∧ s.dec.degTab.wf ∧ s.dec.paramsSet = true) ∧
    (let s := withDec { holding 1 pay1 with latch := Latch.por };
      s.dec.latch.busy = false ∧ s.dec.cdf.wf ∧ s.dec.degTab.wf ∧ s.dec.paramsSet = false) ∧
    locOf State.reset.params 0x200 = .reg .decMode ∧ locOf State.reset.params 0x204 = .reg .decCdfK ∧
    locOf State.reset.params 0x09000000 = .dcdf 0 ∧ locOf State.reset.params 0x0900003C = .dcdf 15 ∧
    locOf State.reset.params 0x0A00003C = .ddeg 15 ∧ locOf State.reset.params 0x218 = .reg .inSeed ∧
    locOf State.reset.params 0x21C = .reg .inK ∧ locOf State.reset.params 0x220 = .reg .inP := by decide
theorem test_meets_SourceWindowWritesTheBuffer :
    let s := withEnc { loading 0 0 with latch := Latch.por }
    s.enc.latch.busy = false ∧ s.enc.phase = .loading ∧ s.enc.src.wf ∧
    (locOf s.params 0x0100000C = .src 3 ∧ s.enc.len.toNat ≤ 4 * 3) ∧
    (locOf s.params 0x01000008 = .src 2 ∧ 4 * 2 < s.enc.len.toNat) ∧
    (State.reset.enc.latch.busy = false ∧ State.reset.enc.phase ≠ .loading) := by decide
theorem test_meets_InputWindowWritesThePayload :
    locOf State.reset.params 0x08000000 = .inBuf 0 ∧ State.reset.dec.latch.busy = false ∧ State.reset.dec.inBuf.wf ∧
    State.reset.enc.latch.busy = false := by decide
theorem test_meets_ControlWriteResetsTheUnits :
    locOf bothBusy.params 0x3C = .reg .ctrl ∧ locOf bothBusy.params 0x3F = .reg .ctrl := by decide
theorem test_meets_PowerOnHasTheInvariant :
    Params.reference.wf ∧ PorContents.zero.wf Params.reference ∧
    PorContents.wf Params.reference { PorContents.zero with src := bytesP1, slot := [(5, ram 8 0 pay1)] } := by
  refine ⟨by decide, ⟨?_, ?_, ?_, ?_, ?_, ?_, ?_, ?_⟩, ?_, ?_, ?_, ?_, ?_, ?_, ?_, ?_⟩ <;> decide
theorem test_meets_StepKeepsTheInvariant :
    ∃ t, (facing bothBusy (.complete .dec)).Inv ∧ step (facing bothBusy (.complete .dec)) = .next t :=
  ⟨_, ⟨by decide, by decide, by decide, by decide⟩, rfl⟩
theorem test_meets_OnlyResetsForgetResolvedChunks :
    (writing (withDec (completeDec (holding 1 pay1))) 0x3C 2).Inv ∧
    next (step (writing (withDec (completeDec (holding 1 pay1))) 0x3C 2)) (fun t =>
      (completeDec (holding 1 pay1)).known.testBit 2 && !t.dec.known.testBit 2 && decide (t.dec.resolved.toNat < 3) &&
        !t.dec.complete) = true :=
  ⟨⟨by decide, by decide, by decide, by decide⟩, by decide⟩
theorem test_meets_PhaseChangesOnlyAsListed :
    next (step (writing (withEnc (running 1)) 0x3C 1)) (fun t => t.enc.phase == .idle) = true ∧
    next (step (facing (encBusy 0x02 64 0 0) (.complete .enc))) (fun t => t.enc.phase == .loading) = true ∧
    next (step (facing (withEnc (loading 0x03 1)) (.complete .enc))) (fun t => t.enc.phase == .running) = true := by
  decide
theorem test_meets_SealedBufferNeverChanges :
    next (step (facing (withEnc (running 1)) (.complete .enc))) (fun t => t.enc.phase == .running) = true := by decide
theorem test_meets_UnitsCompleteInEitherOrder :
    Instr.encNext.unit = .enc ∧ Instr.decIngest.unit = .dec ∧
    commandError (withEnc (loading 0x04 0)) .encNext = some .badState ∧
    commandError (decBusy 0x13 0 0) .decRecon = some .reconstructBeforeComplete := by decide
theorem test_meets_DegreeOneDropletResolvesItsChunk :
    let s := withDec (pendingOne (holding 2 pay2))
    headerAccepted s ∧ (ingestSelection s.params s.dec).mask = 2 ^ 2 := by decide
theorem test_meets_SingleChunkTransferCompletes :
    let d := { holding 15 [0xDE, 0xAD, 0xBE] with inK := 1, inPad := 1 }
    let s := withDec d
    let s' := withDec { d with paramsSet := true, k := 1, pad := 1 }
    (s.Inv ∧ s.dec.resolved = 0 ∧ headerAccepted s ∧ s.dec.inK = 1 ∧ (ingestSelection s.params s.dec).mask ≠ 0) ∧
    (s'.Inv ∧ s'.dec.resolved = 0 ∧ headerAccepted s' ∧ s'.dec.inK = 1 ∧
      (ingestSelection s'.params s'.dec).mask ≠ 0) :=
  ⟨⟨⟨by decide, by decide, by decide, by decide⟩, by decide⟩, ⟨by decide, by decide, by decide, by decide⟩, by decide⟩

/-- The hypotheses of `ImmediateDuplicateChangesNothing`, with what the first ingest answers. -/
abbrev firstGives (s : State) (o : IngestOutcome) : Prop :=
  s.Inv ∧ headerAccepted s ∧ next (exec .decIngest s) (fun t =>
    t.dec.outcome == o && next (exec .decIngest t) fun _ => true) = true

theorem test_meets_ImmediateDuplicateChangesNothing_resolved : firstGives (withDec (pendingOne (holding 2 pay2))) .resolved :=
  ⟨⟨by decide, by decide, by decide, by decide⟩, by decide, by decide⟩
theorem test_meets_ImmediateDuplicateChangesNothing_discarded : firstGives (withDec (completeDec (holding 4 pay2))) .discarded :=
  ⟨⟨by decide, by decide, by decide, by decide⟩, by decide, by decide⟩
theorem test_meets_ImmediateDuplicateChangesNothing_pending : firstGives (withDec (pendingOne (holding 3 pay3))) (.pending 1) :=
  ⟨⟨by decide, by decide, by decide, by decide⟩, by decide, by decide⟩
theorem test_meets_ImmediateDuplicateChangesNothing_replaced : firstGives (withDec (pendingOne (holding 1 pay1))) (.replaced 0) :=
  ⟨⟨by decide, by decide, by decide, by decide⟩, by decide, by decide⟩
theorem test_meets_ImmediateDuplicateChangesNothing_dropped : firstGives (oneSlot (pendingOne (holding 3 pay3))) .dropped :=
  ⟨⟨by decide, by decide, by decide, by decide⟩, by decide, by decide⟩

theorem agrees_self (p : Params) (k : Nat) (c : DegConfig) : DegConfig.agrees p k c c :=
  ⟨rfl, fun _ _ _ _ => rfl, fun _ _ _ => rfl⟩

theorem test_meets_EncoderStreamIsRestartable :
    let s := withEnc (running 7)
    let s' := withEnc (loading 0x03 0)
    s.Inv ∧ s'.Inv ∧ s.params = s'.params ∧ s.enc.phase ≠ .idle ∧ s'.enc.phase ≠ .idle ∧
      Encoder.sameTransfer s.params s.enc s'.enc ∧ tableReady s.enc.degMode s.enc.cdfK s.enc.k ∧
      s.enc.latch.a0 = s'.enc.latch.a0 :=
  ⟨⟨by decide, by decide, by decide, by decide⟩, ⟨by decide, by decide, by decide, by decide⟩, rfl, by decide,
    by decide, ⟨rfl, fun _ => rfl, agrees_self _ _ _, fun _ => rfl⟩, by decide, rfl⟩
theorem test_meets_DegreeOnePayloadIsTheChunk :
    (withEnc (running 2)).Inv ∧ emitting (withEnc (running 2)) ∧
    next (exec .encNext (withEnc (running 2))) (fun t => t.enc.outDeg == 1 && t.enc.mask == 2 ^ 2) = true ∧
    (withEnc (running 2)).enc.len.toNat ≤ 2 * 4 + 2 :=
  ⟨⟨by decide, by decide, by decide, by decide⟩, by decide⟩
theorem test_meets_EmittedDropletMatchesTheSource :
    (withEnc (running 1)).Inv ∧ emitting (withEnc (running 1)) ∧
    DegConfig.agrees Params.reference 3 (running 1).degConfig (holding 1 pay1).degConfig ∧
    next (exec .encNext (withEnc (running 1))) (fun t =>
      (holding 1 pay1).inSeed == t.enc.outSeed && (holding 1 pay1).inK == t.enc.outK &&
        (List.range 4).all fun b => (holding 1 pay1).inBuf.read b == t.enc.outBuf.read b) = true :=
  ⟨⟨by decide, by decide, by decide, by decide⟩, by decide, ⟨rfl, fun _ _ _ _ => rfl, fun _ _ _ => rfl⟩, by decide⟩
theorem test_meets_IngestKeepsAgreementWithTheSource :
    let s := withDec (pendingOne (holding 2 pay2))
    s.Inv ∧ s.dec.agrees s.params bytesP1 ∧
      payloadMatches s.params bytesP1 (ingestSelection s.params s.dec).mask s.dec.inBuf := by
  refine ⟨⟨by decide, by decide, by decide, by decide⟩, ?_⟩
  simp only [Decoder.agrees, payloadMatches]
  decide
theorem test_meets_CompleteOutputEqualsTheSource :
    let s := withDec (completeDec (reading 0x14 2 0))
    s.Inv ∧ s.dec.agrees s.params bytesP1 ∧ s.dec.complete = true ∧
      4 * s.dec.latch.a0.toNat < s.dec.k.toNat * s.params.chunkSize - s.dec.pad.toNat := by
  refine ⟨⟨by decide, by decide, by decide, by decide⟩, ?_⟩
  simp only [Decoder.agrees, payloadMatches]
  decide

end Sys2Proof.Tests
end

section
/-!
PROOFS. `CTRL`, and the registers only the host writes (R31, R32, R38, R67).
-/

namespace Sys2Proof.Proofs

open Sys2Proof Sys2Proof.Machine

/-! ### Registers no command writes -/

/-- The registers a read of which R92 leaves at their current value whatever runs: the build constants, `CMD`, `CTRL`
and the arguments. -/
def hostOnlyRegs : List Reg :=
  [.id, .cfgS, .cfgKmax, .cfgNpend, .cfgDegtabLen, .cmd, .ctrl, .arg0, .arg1, .arg2]

/-- A list of registers disjoint from the host's own holds none of the host's own. -/
theorem isReg_hostOnly {r : Reg} (hr : r ∈ hostOnlyRegs) {rs : List Reg}
    (hrs : ∀ q ∈ rs, q ∉ hostOnlyRegs) :
    (Loc.reg r).isReg rs = false := by
  have hnot : r ∉ rs := fun hmem => hrs r hmem hr
  simpa [Loc.isReg] using hnot

theorem effectWrites_hostOnly (s : State) (i : Instr) {r : Reg} (hr : r ∈ hostOnlyRegs) :
    effectWrites s i (.reg r) = false := by
  cases i <;>
    simp (disch := decide) only [effectWrites, Loc.isSrc, Loc.isOut, Loc.isEmask, Loc.isDmask, isReg_hostOnly hr,
      Bool.or_false, Bool.and_false]

theorem errorWrites_hostOnly (i : Instr) {r : Reg} (hr : r ∈ hostOnlyRegs) : errorWrites i (.reg r) = false := by
  have hnot : (Loc.reg r).isReg [.decOutcome, .decNewly] = false := isReg_hostOnly hr (by decide)
  simp [errorWrites, hnot]

theorem writtenBy_hostOnly (s : State) (u : UnitId) {r : Reg} (hr : r ∈ hostOnlyRegs) :
    writtenBy s u (.reg r) = false := by
  unfold writtenBy
  cases executing s u with
  | none => rfl
  | some i => simp [effectWrites_hostOnly s i hr, errorWrites_hostOnly i hr]

theorem readValue_hostOnly (s : State) (f : Word) {r : Reg} (hr : r ∈ hostOnlyRegs) :
    readValue s f (.reg r) = readReg s r := by
  have hw : isWritten s (.reg r) = false := by
    simp [isWritten, writtenBy_hostOnly s _ hr]
  have hcurrent : readValue s f (.reg r) =
      if isWritten s (.reg r) then freeLoc s f (.reg r) else readLoc s (.reg r) := by
    simp only [hostOnlyRegs, List.mem_cons, List.not_mem_nil, or_false] at hr
    rcases hr with rfl | rfl | rfl | rfl | rfl | rfl | rfl | rfl | rfl | rfl <;> rfl
  rw [hcurrent, hw]
  rfl

/-- Busy or not, the host reads the current value of a register that is its own (R92 item 7). -/
theorem hostRead_hostOnly (s : State) {a : Word} {r : Reg} (ha : locOf s.params a = .reg r) (hr : r ∈ hostOnlyRegs) :
    (hostRead s a).rdata = readReg s r := by
  simp only [hostRead, ha, readValue_hostOnly s _ hr]

/-! ### `CTRL` -/

theorem hostWrite_ctrl (s : State) {a : Word} (v : Word) (ha : locOf s.params a = .reg .ctrl) :
    hostWrite s a v = writeCtrl v s := by
  simp only [hostWrite, ha, writeLoc, writeReg]

/-- The two resets of R38 do not meet: each rewrites its own unit from that unit alone. -/
theorem writeCtrl_eq (v : Word) (s : State) :
    writeCtrl v s =
      { s with
        enc := if v.getLsbD 0 = true then s.enc.softReset else s.enc
        dec := if v.getLsbD 1 = true then s.dec.softReset else s.dec } := by
  unfold writeCtrl
  cases v.getLsbD 0 <;> cases v.getLsbD 1 <;> rfl

/-- Settles O44: `ENC_RESET` and `DEC_RESET` are the two soft resets, which `writeCtrl` performs bit by bit; `CTRL` is
one of the registers that read their current value, 0, at any time. -/
theorem controlWriteResetsTheUnits : Obligations.ControlWriteResetsTheUnits := by
  intro s a v ha
  refine ⟨s.encSoftReset, s.decSoftReset, Laws.exec_encReset s, Laws.exec_decReset s, ?_, ?_⟩
  · rw [hostWrite_ctrl s v ha, writeCtrl_eq, Laws.encSoftReset_enc, Laws.decSoftReset_dec]
  · rw [hostRead_hostOnly s ha (by decide)]
    rfl

end Sys2Proof.Proofs
end

section
/-!
PROOFS. Unmapped locations: register offsets outside R67, words beyond a window, and every other region (R81, R86).
-/

namespace Sys2Proof.Proofs

open Sys2Proof Sys2Proof.Machine

/-! ### Which addresses are unmapped -/

theorem windowLoc_of_le {n w : Nat} (l : Nat → Loc) (h : n ≤ w) : windowLoc n l w = .unmapped :=
  if_neg (Nat.not_lt.mpr h)

theorem registerLoc_of_notMem {w : Nat} (h : 4 * w ∉ registerMap.map Prod.fst) : registerLoc w = .unmapped := by
  have hnone : registerMap.lookup (4 * w) = none := by
    rw [List.lookup_eq_none_iff]
    intro x hx
    exact bne_iff_ne.mpr fun heq => h (List.mem_map.mpr ⟨x, hx, heq.symm⟩)
  rw [registerLoc, hnone]

theorem locOf_register (p : Params) {a : Word} (h : regionOf a = 0) : locOf p a = registerLoc (wordIndexOf a) := by
  simp only [locOf, h]

/-- In a region with a window the address map is that window, at its size (R81). The match's first case is the
registers' region and its last every region without a window; neither has a size. -/
theorem locOf_window {p : Params} {a : Word} {n : Nat} (h : windowSize p (regionOf a) = some n) :
    ∃ l, locOf p a = windowLoc n l (wordIndexOf a) := by
  unfold locOf
  generalize regionOf a = r at h ⊢
  split
  case h_1 => cases h
  case h_12 =>
    have hnone : windowSize p r = none := by
      simp only [windowSize, List.lookup_eq_none_iff, List.forall_mem_cons, bne_iff_ne]
      simp_all
    cases hnone.symm.trans h
  all_goals
    obtain rfl := Option.some.inj h
    exact ⟨_, rfl⟩

/-- A region that is neither the registers' nor a window's names nothing (R86). -/
theorem locOf_otherRegion {p : Params} {a : Word} (h0 : regionOf a ≠ 0) (h : windowSize p (regionOf a) = none) :
    locOf p a = .unmapped := by
  unfold locOf
  generalize regionOf a = r at h0 h ⊢
  split
  case h_1 => exact absurd rfl h0
  case h_12 => rfl
  all_goals cases h

/-! ### An unmapped location is inert -/

theorem effectWrites_unmapped (s : State) (i : Instr) : effectWrites s i .unmapped = false := by
  cases i
  case decIngest => simp [effectWrites, Loc.isReg, Loc.isDmask]
  all_goals rfl

theorem isWritten_unmapped (s : State) : isWritten s .unmapped = false := by
  have hunit (u : UnitId) : writtenBy s u .unmapped = false := by
    unfold writtenBy
    cases executing s u with
    | none => rfl
    | some i => simp [effectWrites_unmapped, errorWrites, Loc.isReg]
  simp [isWritten, hunit]

theorem hostRead_unmapped {s : State} {a : Word} (h : locOf s.params a = .unmapped) : (hostRead s a).rdata = 0 := by
  simp [hostRead, h, readValue, isWritten_unmapped, readLoc]

theorem hostWrite_unmapped {s : State} {a : Word} (v : Word) (h : locOf s.params a = .unmapped) :
    hostWrite s a v = s := by
  simp only [hostWrite, h, writeLoc]

/-- Settles O34: each of the three cases of R86 is an unmapped location, and an unmapped location is inert. -/
theorem unmappedLocationsAreInert : Obligations.UnmappedLocationsAreInert := by
  intro s a v h
  have hloc : locOf s.params a = .unmapped := by
    rcases h with ⟨hregion, hoffset⟩ | ⟨n, hsize, hbeyond⟩ | ⟨hregion, hsize⟩
    · rw [locOf_register _ hregion]
      exact registerLoc_of_notMem hoffset
    · obtain ⟨l, hl⟩ := locOf_window hsize
      rw [hl, windowLoc_of_le l hbeyond]
    · exact locOf_otherRegion hregion hsize
  exact ⟨hostRead_unmapped hloc, hostWrite_unmapped v hloc⟩

end Sys2Proof.Proofs
end

section
/-!
PROOFS. The ROBUST lookup and the degree function (40_degree_sampler.md R153–R157).
-/

namespace Sys2Proof.Proofs

open Sys2Proof Sys2Proof.Machine

/-! ### The ROBUST lookup (R153) -/

/-- The rule of R153: `d` is the least degree whose table entry exceeds the draw, `K` exceeding every draw. -/
abbrev isLeastDegree (u : Word) (k : Nat) (t : Memory 32) (d : Nat) : Prop :=
  1 ≤ d ∧ d ≤ k ∧ (d < k → u < t.read d) ∧ ∀ e, 1 ≤ e → e < d → t.read e ≤ u

theorem isLeastDegree_robust (u : Word) {k : Nat} (t : Memory 32) (hk : 1 ≤ k) :
    isLeastDegree u k t (robust u k t) := by
  unfold robust
  cases h : (List.range' 1 (k - 1)).find? fun d => decide (u < t.read d) with
  | none =>
    have hnone := List.find?_range'_eq_none.1 h
    refine ⟨hk, le_rfl, fun hlt => absurd hlt (lt_irrefl k), fun e h1 he => ?_⟩
    rw [Option.getD_none] at he
    simpa using hnone e h1 (by omega)
  | some d =>
    obtain ⟨hd, hmem, hbefore⟩ := List.find?_range'_eq_some.1 h
    have hrange := List.mem_range'_1.1 hmem
    refine ⟨hrange.1, by rw [Option.getD_some]; omega, fun _ => of_decide_eq_true hd, fun e h1 he => ?_⟩
    simpa using hbefore e h1 he

/-- Of two degrees that meet the rule the smaller would be below an entry that the other finds at or below the draw. -/
theorem isLeastDegree_le {u : Word} {k : Nat} {t : Memory 32} {d e : Nat} (hd : isLeastDegree u k t d)
    (he : isLeastDegree u k t e) : d ≤ e := by
  obtain ⟨_, hdk, _, hbefore⟩ := hd
  obtain ⟨h1, _, hentry, _⟩ := he
  by_contra hlt
  exact absurd (hentry (by omega)) (BitVec.not_lt.2 (hbefore e h1 (by omega)))

theorem robust_eq_iff {u : Word} {k : Nat} {t : Memory 32} (hk : 1 ≤ k) (d : Nat) :
    robust u k t = d ↔ isLeastDegree u k t d := by
  have hr := isLeastDegree_robust u t hk
  constructor
  · rintro rfl
    exact hr
  · intro hd
    exact le_antisymm (isLeastDegree_le hr hd) (isLeastDegree_le hd hr)

/-- Below a degree of a monotone table, the entry just before it bounds all the others. -/
theorem entries_le_iff {u : Word} {k : Nat} {t : Memory 32}
    (hmono : ∀ d e, 1 ≤ d → d ≤ e → e < k → t.read d ≤ t.read e) {d : Nat} (hd : d ≤ k) :
    (∀ e, 1 ≤ e → e < d → t.read e ≤ u) ↔ (1 < d → t.read (d - 1) ≤ u) := by
  constructor
  · intro h h1
    exact h (d - 1) (by omega) (by omega)
  · intro h e h1 he
    exact BitVec.le_trans (hmono e (d - 1) h1 (by omega) (by omega)) (h (by omega))

/-- Settles O29: the lookup meets the least-degree rule, which one degree alone meets; a monotone table turns the
bound on all earlier entries into a bound on the last of them; and 1 is the only degree for `K = 1`. -/
theorem robustLookupIsTheLeastDegree : Obligations.RobustLookupIsTheLeastDegree := by
  intro u k t hk
  refine ⟨robust_eq_iff hk, fun hmono d => ?_, ?_⟩
  · rw [robust_eq_iff hk]
    refine and_congr_right fun _ => and_congr_right fun hdk => and_congr_right fun _ => ?_
    exact entries_le_iff hmono hdk
  · obtain ⟨hpos, hle, _⟩ := isLeastDegree_robust u t (le_refl 1)
    omega

/-! ### The degree function (R155) -/

theorem rawDegree_robust (p : Params) {c : DegConfig} (seed u : Word) (k : Nat) (h : c.mode = .robust) :
    rawDegree p c seed u k = robust u k c.cdf := by
  simp only [rawDegree, h]

theorem rawDegree_stub (p : Params) {c : DegConfig} (seed u : Word) (k : Nat) (h : c.mode = .stub) :
    rawDegree p c seed u k = (c.degTab.read (seed.toNat % p.degtabLen)).toNat := by
  simp only [rawDegree, h, stub]

theorem degreeFunction_deg_le (p : Params) (c : DegConfig) (seed : Word) (k : Nat) :
    (degreeFunction p c seed k).deg ≤ k := Nat.min_le_right _ _

/-- The index draws of `DF` and of `select` come from the same stream, draw 0 being consumed by both (R155, R183). -/
theorem degreeFunction_mask_eq_select (p : Params) (c : DegConfig) (seed : Word) (k : Nat) :
    (degreeFunction p c seed k).mask = (select seed (degreeFunction p c seed k).deg k).mask := by
  simp only [degreeFunction, select, Nat.min_assoc, Nat.min_self]

/-- ROBUST mode: the degree is the lookup's, from draw 0; its range needs no clamp (R157). -/
theorem degreeFunction_robust (p : Params) {c : DegConfig} (seed : Word) {k : Nat} (hk : 1 ≤ k)
    (h : c.mode = .robust) :
    let raw := robust (rngNext (rngInit seed)) k c.cdf
    (degreeFunction p c seed k).deg = min raw k ∧ (degreeFunction p c seed k).clamped = decide (k < raw) ∧
      1 ≤ (degreeFunction p c seed k).deg ∧ (degreeFunction p c seed k).clamped = false := by
  obtain ⟨hpos, hle, _⟩ := isLeastDegree_robust (rngNext (rngInit seed)) c.cdf hk
  simp only [degreeFunction, rawDegree_robust p seed _ k h, isClamped, decide_eq_false_iff_not, true_and]
  exact ⟨by omega, by omega⟩

/-- STUB mode: the degree is the seed's table entry, clamped to `K` (R157). -/
theorem degreeFunction_stub (p : Params) {c : DegConfig} (seed : Word) (k : Nat) (h : c.mode = .stub) :
    let g := (c.degTab.read (seed.toNat % p.degtabLen)).toNat
    (degreeFunction p c seed k).deg = min g k ∧ (degreeFunction p c seed k).clamped = decide (k < g) := by
  simp only [degreeFunction, rawDegree_stub p seed _ k h, isClamped, and_self]

/-! ### The selected mask (R155, R182) -/

theorem popcount_fisherYates {deg k n : Nat} (hd : deg ≤ k) (hk : k ≤ n) (s : Word) :
    popcount n (fisherYates deg k s) = deg := by
  obtain ⟨hnodup, hlen, hlt⟩ := Laws.selected_spec hd s
  rw [fisherYates, Laws.popcount_maskOf hnodup fun i hi => lt_of_lt_of_le (hlt i hi) hk, hlen]

@[simp] theorem fisherYates_zero (k : Nat) (s : Word) : fisherYates 0 k s = 0 := rfl

theorem degreeFunction_mask_of_deg_zero {p : Params} {c : DegConfig} {seed : Word} {k : Nat}
    (h : (degreeFunction p c seed k).deg = 0) : (degreeFunction p c seed k).mask = 0 := by
  have hmask : (degreeFunction p c seed k).mask =
      fisherYates (degreeFunction p c seed k).deg k (rngNext (rngInit seed)) := rfl
  rw [hmask, h, fisherYates_zero]

/-- The payload of an empty mask (R157). -/
theorem read_xorc_zero (p : Params) (src : Memory 8) (b : Nat) : (xorc p src 0).read b = 0 := by
  rw [xorc, Laws.read_fill, Laws.xorcByte_zero, ite_self]

/-! ### A droplet without unknown chunks (R242, R243) -/

/-- A droplet of which no chunk is unknown is recorded and discarded. -/
theorem ingestAccepted_of_noUnknown {p : Params} {d : Decoder}
    (h : popcount p.kMax (reduceMask d (ingestSelection p d).mask) = 0) :
    ingestAccepted p d =
      ({ d.learn with
          mask := (ingestSelection p d).mask, clamped := (ingestSelection p d).clamped, newly := 0,
          outcome := .discarded }, none) := by
  rw [reduceMask] at h
  simp only [ingestAccepted, reduceMask, Laws.learn_known, h, if_true]

theorem ingest_of_headerAccepted {s : State} (h : headerAccepted s) :
    ingest s = State.raiseIf 0x12 (ingestAccepted s.params s.dec).2
      { s with dec := (ingestAccepted s.params s.dec).1 } := by
  rw [ingest, (Laws.ingestCheck_eq_none_iff s).2 h]
  rfl

/-- R157: the decoder discards an accepted droplet of degree 0, and no chunk becomes known. -/
theorem decIngest_of_deg_zero {s : State} (ha : headerAccepted s) (h : (ingestSelection s.params s.dec).deg = 0) :
    ∃ t, exec .decIngest s = .next t ∧ t.dec.outcome = .discarded ∧ t.dec.known = s.dec.known := by
  have hmask : (ingestSelection s.params s.dec).mask = 0 := degreeFunction_mask_of_deg_zero h
  have hempty : popcount s.params.kMax (reduceMask s.dec (ingestSelection s.params s.dec).mask) = 0 := by
    rw [hmask, reduceMask, Mask.without, Nat.zero_and, Nat.xor_self, Laws.popcount_zero]
  refine ⟨_, Laws.exec_decIngest s, ?_, ?_⟩ <;>
    rw [ingest_of_headerAccepted ha, ingestAccepted_of_noUnknown hempty]
  · rfl
  · exact Laws.learn_known s.dec

/-- Settles O30: the ranges are those of the two lookups, the mask is a selection of `deg` chunks, and a degree of zero
selects none. -/
theorem effectiveDegreeStaysInRange : Obligations.EffectiveDegreeStaysInRange := by
  refine ⟨fun p c seed k _ hk hkMax => ?_, fun s ha h => decIngest_of_deg_zero ha h⟩
  have hle := degreeFunction_deg_le p c seed k
  have hrobust := degreeFunction_robust p seed hk (c := c)
  have hstub := degreeFunction_stub p seed k (c := c)
  refine ⟨?_, hstub, rfl, degreeFunction_mask_eq_select p c seed k, popcount_fisherYates hle hkMax _, ?_, ?_, ?_, ?_⟩
  · intro h
    obtain ⟨hdeg, hclamped, _⟩ := hrobust h
    exact ⟨hdeg, hclamped⟩
  · intro h
    obtain ⟨_, _, hpos, hfalse⟩ := hrobust h
    exact ⟨hpos, hle, hfalse⟩
  · intro h
    obtain ⟨hdeg, hclamped⟩ := hstub h
    refine ⟨hle, by omega, ?_⟩
    rw [hclamped, decide_eq_true_iff]
  · rintro rfl
    refine ⟨by omega, fun h => ?_⟩
    obtain ⟨_, _, hpos, _⟩ := hrobust h
    omega
  · intro h
    have hmask := degreeFunction_mask_of_deg_zero h
    exact ⟨hmask, fun src b => by rw [hmask, read_xorc_zero]⟩

end Sys2Proof.Proofs
end

section
/-!
PROOFS. The Chunk Selector: its scratch array turn by turn, and `ENC_SELQ` (41_chunk_selector.md R182–R185).
-/

namespace Sys2Proof.Proofs

open Sys2Proof Sys2Proof.Machine

/-! ### The scratch array (R182) -/

/-- Entry `x` of the array before turn `i` of the loop that starts from the generator's state `u`; `x` itself past the
end of the array, which no turn reaches. -/
def scratchEntry (k : Nat) (u : Word) (i x : Nat) : Nat := (shuffle k i 0 u (List.range k)).getD x x

@[simp] theorem scratchEntry_zero (k : Nat) (u : Word) (x : Nat) : scratchEntry k u 0 x = x := by
  simp only [scratchEntry, shuffle, List.getD_eq_getElem?_getD]
  by_cases h : x < k
  · simp [h]
  · simp [Nat.not_lt.1 h]

theorem length_shuffle_range {i k : Nat} (h : i ≤ k) (u : Word) : (shuffle k i 0 u (List.range k)).length = k := by
  rw [(Laws.shuffle_perm i 0 u (List.range k) (by simp) (by omega)).length_eq, List.length_range]

/-- Within the array the default value of a read does not matter. -/
theorem getD_shuffle_range {i k x : Nat} (hi : i ≤ k) (hx : x < k) (u : Word) (d : Nat) :
    (shuffle k i 0 u (List.range k)).getD x d = scratchEntry k u i x := by
  have hlen : x < (shuffle k i 0 u (List.range k)).length := by rwa [length_shuffle_range hi]
  rw [scratchEntry, List.getD_eq_getElem _ _ hlen, List.getD_eq_getElem _ _ hlen]

/-- Turn `i` exchanges entries `i` and `j`, and no other. -/
theorem scratchEntry_succ {k i : Nat} (h : i < k) (u : Word) :
    let j := i + mulhi32 (rngNext^[i + 1] u) (k - i)
    j < k ∧ scratchEntry k u (i + 1) i = scratchEntry k u i j ∧ scratchEntry k u (i + 1) j = scratchEntry k u i i ∧
      ∀ x, x ≠ i → x ≠ j → scratchEntry k u (i + 1) x = scratchEntry k u i x := by
  intro j
  have hj : j < k := (Laws.shuffle_turn h u 0 0).1
  have hturn (x : Nat) : scratchEntry k u (i + 1) x =
      if x = j then scratchEntry k u i i else if x = i then scratchEntry k u i j else scratchEntry k u i x := by
    rw [← getD_shuffle_range h.le h u x, ← getD_shuffle_range h.le hj u x]
    exact (Laws.shuffle_turn h u x x).2
  refine ⟨hj, ?_, ?_, fun x hi hjx => ?_⟩
  · rw [hturn, if_pos rfl]
    split
    next hij => rw [← hij]
    next => rfl
  · rw [hturn, if_pos rfl]
  · rw [hturn, if_neg hjx, if_neg hi]

/-- The selected indices are the first `deg` entries after `deg` turns. -/
theorem testBit_fisherYates {deg k : Nat} (h : deg ≤ k) (u : Word) (b : Nat) :
    (fisherYates deg k u).testBit b = true ↔ ∃ i, i < deg ∧ scratchEntry k u deg i = b := by
  rw [fisherYates, Laws.testBit_maskOf, decide_eq_true_iff, List.mem_take_iff_getElem]
  have hlen := length_shuffle_range h u
  constructor
  · rintro ⟨i, hi, rfl⟩
    exact ⟨i, by omega, List.getD_eq_getElem _ _ (by omega)⟩
  · rintro ⟨i, hi, rfl⟩
    exact ⟨i, by omega, (List.getD_eq_getElem _ _ (by omega)).symm⟩

/-! ### The selector (R183) -/

theorem popcount_select {k n : Nat} (h : k ≤ n) (seed : Word) (degree : Nat) :
    popcount n (select seed degree k).mask = min degree k :=
  popcount_fisherYates (Nat.min_le_right _ _) h _

/-! ### `ENC_SELQ` (R184) -/

theorem badChunkCount_eq_false {p : Params} {k : Word} (h1 : 1 ≤ k.toNat) (h2 : k.toNat ≤ p.kMax) :
    badChunkCount p k = false := by
  have hne : k ≠ 0#32 := by
    rintro rfl
    exact absurd h1 (by decide)
  simp [badChunkCount, hne, h2]

/-- With a legal chunk count `ENC_SELQ` has its effect: it reports the selection of its operands. -/
theorem exec_encSelq_of_legal {s t : State} (h1 : 1 ≤ s.enc.latch.a2.toNat)
    (h2 : s.enc.latch.a2.toNat ≤ s.params.kMax) (h : exec .encSelq s = .next t) :
    t.enc.mask = (select s.enc.latch.a0 s.enc.latch.a1.toNat s.enc.latch.a2.toNat).mask ∧
      t.enc.result = BitVec.ofNat 32 (min s.enc.latch.a1.toNat s.enc.latch.a2.toNat) := by
  have hcheck : encSelqCheck s = none := by simp [encSelqCheck, badChunkCount_eq_false h1 h2]
  rw [Laws.exec_encSelq, hcheck, Laws.complete_none] at h
  obtain rfl := Host.Outcome.next.inj h
  exact ⟨rfl, rfl⟩

/-- Settles O31: the array is the loop's from the state after draw 0, so turn `i` has draw `i + 1`; its first entries
are distinct, the loop permuting `0 … K−1`; and `ENC_SELQ` reports the selection of its latched operands alone. -/
theorem selectorMeetsItsContract : Obligations.SelectorMeetsItsContract := by
  refine ⟨fun seed degree k n _ hkn => ?_, fun s s' t t' h0 h1 h2 hpos hmax hmax' ht ht' => ?_⟩
  · have hdeg : min degree k ≤ k := Nat.min_le_right _ _
    refine ⟨rfl, rfl, ⟨scratchEntry k (rngNext (rngInit seed)), scratchEntry_zero k _, fun i hi => ?_, ?_⟩,
      popcount_select hkn seed degree, fun i => Laws.lt_of_testBit (Laws.select_mask_lt seed degree k)⟩
    · have hturn := scratchEntry_succ (hi.trans_le hdeg) (rngNext (rngInit seed))
      rwa [← Function.iterate_succ_apply, mulhi32] at hturn
    · exact testBit_fisherYates hdeg _
  · obtain ⟨hmask, hresult⟩ := exec_encSelq_of_legal hpos hmax ht
    obtain ⟨hmask', _⟩ := exec_encSelq_of_legal (h2 ▸ hpos) hmax' ht'
    have hfits : min s.enc.latch.a1.toNat s.enc.latch.a2.toNat < 2 ^ 32 :=
      (Nat.min_le_right _ _).trans_lt s.enc.latch.a2.isLt
    constructor
    · rw [hmask, hmask', h0, h1, h2]
    · rw [hmask, hresult, popcount_select hmax, BitVec.toNat_ofNat, Nat.mod_eq_of_lt hfits]

end Sys2Proof.Proofs
end

section
/-!
PROOFS. The encoder's stream of droplets: what an emitted droplet depends on, and the payload of a single chunk
(42_encoder.md R203–R207).
-/

namespace Sys2Proof.Proofs

open Sys2Proof Sys2Proof.Machine

/-! ### The degree function of agreeing configurations (R155, R353) -/

theorem robust_congr {k : Nat} {t t' : Memory 32} (h : ∀ d, 1 ≤ d → d < k → t.read d = t'.read d) (u : Word) :
    robust u k t = robust u k t' := by
  have hfind : (List.range' 1 (k - 1)).find? (fun d => decide (u < t.read d)) =
      (List.range' 1 (k - 1)).find? fun d => decide (u < t'.read d) := by
    refine List.find?_congr fun d hd => ?_
    have hrange := List.mem_range'_1.1 hd
    rw [h d (by omega) (by omega)]
  rw [robust, robust, hfind]

theorem rawDegree_congr {p : Params} (hp : 1 ≤ p.degtabLen) {k : Nat} {c c' : DegConfig}
    (h : DegConfig.agrees p k c c') (seed u : Word) : rawDegree p c seed u k = rawDegree p c' seed u k := by
  obtain ⟨hmode, hcdf, htab⟩ := h
  cases hc : c.mode with
  | robust => rw [rawDegree_robust p seed u k hc, rawDegree_robust p seed u k (hmode ▸ hc), robust_congr (hcdf hc)]
  | stub =>
    rw [rawDegree_stub p seed u k hc, rawDegree_stub p seed u k (hmode ▸ hc), htab hc _ (Nat.mod_lt _ hp)]

/-- R353: the degree function reads the configuration in its raw degree alone. -/
theorem degreeFunction_congr {p : Params} (hp : 1 ≤ p.degtabLen) {k : Nat} {c c' : DegConfig}
    (h : DegConfig.agrees p k c c') (seed : Word) : degreeFunction p c seed k = degreeFunction p c' seed k := by
  simp only [degreeFunction, rawDegree_congr hp h]

/-! ### `ENC_SEED` and `ENC_NEXT` when no check fails (R203, R204) -/

theorem exec_encSeed_of_ne_idle {s : State} (h : s.enc.phase ≠ .idle) :
    exec .encSeed s = .next ((encSeedEffect s).finish .enc) := by
  rw [Laws.exec_encSeed, encSeedCheck, if_neg h, Laws.complete_none]

theorem degTableMismatch_of_tableReady {mode : DegMode} {cdfK k : Word} (h : tableReady mode cdfK k) :
    degTableMismatch mode cdfK k = false := by
  rcases h with rfl | rfl
  · rfl
  · rw [degTableMismatch, bne_self_eq_false, Bool.and_false]

/-- The encoder after it has emitted the droplet of `seed` (R204). -/
def emitted (p : Params) (seed : Word) (e : Encoder) : Encoder :=
  let r := degreeFunction p e.degConfig seed e.k.toNat
  { e with
    latch := e.latch.idle, outBuf := xorc p e.src r.mask, outSeed := seed, outK := e.k, outPad := e.pad,
    outDeg := BitVec.ofNat 32 r.deg, mask := r.mask, clamped := r.clamped, seedNext := seed + 1 }

theorem exec_encNext_of_ready {s : State} (hrun : s.enc.phase = .running)
    (hready : tableReady s.enc.degMode s.enc.cdfK s.enc.k) :
    exec .encNext s = .next { s with enc := emitted s.params s.enc.seedNext s.enc } := by
  have hcheck : encNextCheck s = none := by
    simp [encNextCheck, hrun, degTableMismatch_of_tableReady hready]
  rw [Laws.exec_encNext, hcheck, Laws.complete_none]
  rfl

/-- A droplet replaces the one before it and leaves what droplets are made of. -/
theorem emitted_emitted (p : Params) (seed seed' : Word) (e : Encoder) :
    emitted p seed' (emitted p seed e) = emitted p seed' e := rfl

/-- R206: droplet `n` is the droplet of the `n`-th seed on, whatever the droplets before it were. -/
theorem execMany_encNext (n : Nat) {s : State} (hrun : s.enc.phase = .running)
    (hready : tableReady s.enc.degMode s.enc.cdfK s.enc.k) :
    execMany .encNext (n + 1) s =
      .next { s with enc := emitted s.params (s.enc.seedNext + BitVec.ofNat 32 n) s.enc } := by
  induction n generalizing s with
  | zero => simp only [execMany, exec_encNext_of_ready hrun hready, BitVec.add_zero]
  | succ n ih =>
    have hseed : s.enc.seedNext + 1 + BitVec.ofNat 32 n = s.enc.seedNext + BitVec.ofNat 32 (n + 1) := by
      rw [BitVec.add_assoc, BitVec.add_comm 1, BitVec.ofNat_add, BitVec.ofNat_eq_ofNat]
    rw [execMany, exec_encNext_of_ready hrun hready]
    refine (ih (s := { s with enc := emitted s.params s.enc.seedNext s.enc }) hrun hready).trans ?_
    rw [emitted_emitted, ← hseed]
    rfl

/-! ### Two encoders on the same transfer (R206) -/

theorem xorc_congr {src src' : Memory 8} (h : ∀ o, src.read o = src'.read o) (p : Params) (m : Mask) :
    xorc p src m = xorc p src' m := by
  have hbyte : xorcByte p src m = xorcByte p src' m :=
    funext fun b => Laws.xorcByte_congr (fun _ => rfl) fun i _ => h (i * p.chunkSize + b)
  rw [xorc, xorc, hbyte]

/-- R202: outside IDLE the chunk count and the pad follow from the buffer's length. -/
theorem chunking_eq_of_len_eq {p : Params} {e e' : Encoder} (h : e.chunked p) (h' : e'.chunked p)
    (hidle : e.phase ≠ .idle) (hidle' : e'.phase ≠ .idle) (hlen : e.len = e'.len) : e.k = e'.k ∧ e.pad = e'.pad := by
  obtain ⟨_, _, hk, hpad⟩ := h hidle
  obtain ⟨_, _, hk', hpad'⟩ := h' hidle'
  have hkeq : e.k = e'.k := BitVec.eq_of_toNat_eq (by rw [hk, hk', hlen])
  exact ⟨hkeq, BitVec.eq_of_toNat_eq (by rw [hpad, hpad', hkeq, hlen])⟩

theorem tableReady_of_sameTransfer {p : Params} {e e' : Encoder} (h : Encoder.sameTransfer p e e') (hk : e.k = e'.k)
    (hready : tableReady e.degMode e.cdfK e.k) : tableReady e'.degMode e'.cdfK e'.k := by
  obtain ⟨_, _, ⟨hmode, _⟩, hcdfK⟩ := h
  replace hmode : e.degMode = e'.degMode := hmode
  cases hm : e.degMode with
  | stub => exact .inl (hmode ▸ hm)
  | robust =>
    rcases hready with hstub | hbuilt
    · rw [hm] at hstub
      cases hstub
    · exact .inr (by rw [← hcdfK hm, hbuilt, hk])

theorem emitted_sameDroplet {p : Params} (hp : 1 ≤ p.degtabLen) {e e' : Encoder} (h : Encoder.sameTransfer p e e')
    (hk : e.k = e'.k) (hpad : e.pad = e'.pad) (seed : Word) :
    Encoder.sameDroplet (emitted p seed e) (emitted p seed e') := by
  obtain ⟨_, hsrc, hconf, _⟩ := h
  have hr := degreeFunction_congr hp hconf seed
  rw [hk] at hr
  simp only [Encoder.sameDroplet, emitted, hk, hpad, hr, xorc_congr hsrc, and_self]

/-- Settles O56: `ENC_SEED` leaves the transfer alone, so after it droplet `n` of either encoder is the droplet of seed
`s + n`, which the transfer and the seed determine. -/
theorem encoderStreamIsRestartable : Obligations.EncoderStreamIsRestartable := by
  intro n s s' hinv hinv' hparams hidle hidle' hsame hready hseed
  obtain ⟨⟨_, _, _, _, hdegtab, _⟩, _, ⟨_, _, hchunked, _⟩, _⟩ := hinv
  obtain ⟨_, _, ⟨_, _, hchunked', _⟩, _⟩ := hinv'
  rw [← hparams] at hchunked'
  obtain ⟨hk, hpad⟩ := chunking_eq_of_len_eq hchunked hchunked' hidle hidle' hsame.1
  have hready' := tableReady_of_sameTransfer hsame hk hready
  refine ⟨_, _, _, _, exec_encSeed_of_ne_idle hidle, exec_encSeed_of_ne_idle hidle', execMany_encNext n rfl hready,
    execMany_encNext n rfl hready', ?_, rfl⟩
  show Encoder.sameDroplet
    (emitted s.params (s.enc.latch.a0 + BitVec.ofNat 32 n) ((encSeedEffect s).finish .enc).enc)
    (emitted s'.params (s'.enc.latch.a0 + BitVec.ofNat 32 n) ((encSeedEffect s').finish .enc).enc)
  rw [← hparams, ← hseed]
  exact emitted_sameDroplet hdegtab hsame hk hpad _

/-! ### The payload of a single chunk (R207) -/

theorem xorcByte_two_pow {p : Params} {i : Nat} (hi : i < p.kMax) (src : Memory 8) (b : Nat) :
    xorcByte p src (2 ^ i) b = chunkByte p src i b := by
  have hinsert : Mask.insert 0 i = 2 ^ i := Nat.zero_or _
  rw [← hinsert, Laws.xorcByte_insert hi (Nat.zero_testBit i), Laws.xorcByte_zero]
  exact BitVec.zero_xor

/-- Outside IDLE the chunk count is within the build's (R202). -/
theorem chunkCount_le_kMax {p : Params} (hp : 1 ≤ p.chunkSize) {e : Encoder} (h : e.chunked p)
    (hidle : e.phase ≠ .idle) : e.k.toNat ≤ p.kMax := by
  obtain ⟨_, hlen, hk, _⟩ := h hidle
  exact hk ▸ Laws.ceilDiv_le hp hlen

/-- Settles O57: the XOR of the chunks of `{i}` is chunk `i`, which the mask's bound puts within the buffer; the
invariant has the buffer zero from `ENC_L` on. -/
theorem degreeOnePayloadIsTheChunk : Obligations.DegreeOnePayloadIsTheChunk := by
  intro s t i hinv hrun hready hexec _ hmask b hb
  obtain ⟨⟨⟨hsize, _⟩, _⟩, _, ⟨_, _, hchunked, hpadZero, _⟩, _⟩ := hinv
  have hidle : s.enc.phase ≠ .idle := by
    rw [hrun]
    decide
  obtain rfl := Host.Outcome.next.inj ((exec_encNext_of_ready hrun hready).symm.trans hexec)
  replace hmask : (degreeFunction s.params s.enc.degConfig s.enc.seedNext s.enc.k.toNat).mask = 2 ^ i := hmask
  have hi : i < s.params.kMax := by
    have hlt := Laws.degreeFunction_mask_lt s.params s.enc.degConfig s.enc.seedNext s.enc.k.toNat
    rw [hmask] at hlt
    exact (Laws.lt_of_testBit hlt Nat.testBit_two_pow_self).trans_le (chunkCount_le_kMax hsize hchunked hidle)
  have hread : (xorc s.params s.enc.src (2 ^ i)).read b = s.enc.src.read (i * s.params.chunkSize + b) := by
    rw [xorc, Laws.read_fill, if_pos hb, xorcByte_two_pow hi, chunkByte]
  simp only [emitted, hmask, hread, true_and]
  exact fun hbeyond => Laws.read_eq_zero_of_below (hpadZero hidle) hbeyond

end Sys2Proof.Proofs
end

section
/-!
PROOFS. The decoder's header check and its `REJECT` (43_decoder.md R241).
-/

namespace Sys2Proof.Proofs

open Sys2Proof Sys2Proof.Machine

/-! ### The checks of R241 as conditions on the header -/

theorem badChunkCount_iff {p : Params} {k : Word} : badChunkCount p k = true ↔ k.toNat = 0 ∨ p.kMax < k.toNat := by
  rw [badChunkCount, Bool.or_eq_true, beq_iff_eq, decide_eq_true_iff]
  exact or_congr_left BitVec.toNat_inj.symm

theorem degTableMismatch_iff_not_tableReady {mode : DegMode} {cdfK k : Word} :
    degTableMismatch mode cdfK k = true ↔ ¬ tableReady mode cdfK k := by
  constructor
  · intro hmismatch hready
    rw [degTableMismatch_of_tableReady hready] at hmismatch
    exact Bool.false_ne_true hmismatch
  · intro hready
    obtain ⟨hmode, hk⟩ := not_or.1 hready
    cases mode with
    | stub => exact absurd rfl hmode
    | robust => exact bne_iff_ne.2 hk

/-- The header's own fields are illegal for the build: R241's first check. -/
abbrev headerMalformed (s : State) : Prop :=
  s.dec.inK.toNat = 0 ∨ s.params.kMax < s.dec.inK.toNat ∨ s.params.chunkSize ≤ s.dec.inPad.toNat

/-- The header differs from the parameters learned before: R241's second check. -/
abbrev headerInconsistent (s : State) : Prop :=
  s.dec.paramsSet = true ∧ (s.dec.inK ≠ s.dec.k ∨ s.dec.inPad ≠ s.dec.pad)

/-- `CHECK` is the ladder of R241's conditions, in its order. -/
theorem ingestCheck_eq_ladder (s : State) :
    ingestCheck s =
      if headerMalformed s then some .malformedDroplet
      else if headerInconsistent s then some .inconsistentParams
      else if ¬ tableReady s.dec.degMode s.dec.cdfK s.dec.inK then some .degTableMismatch
      else none := by
  simp only [ingestCheck, headerMalformed, headerInconsistent, Bool.or_eq_true, Bool.and_eq_true, bne_iff_ne,
    decide_eq_true_eq, badChunkCount_iff, degTableMismatch_iff_not_tableReady, or_assoc]

/-! ### `REJECT` -/

/-- A droplet that fails a check is rejected with that check's error, and nothing else is written. -/
theorem exec_decIngest_of_ingestCheck {s : State} {e : ErrCode} (h : ingestCheck s = some e) :
    exec .decIngest s = .next
      (({ s with dec := { s.dec with outcome := .rejected, newly := 0, latch := s.dec.latch.idle } }).raise e 0x12) := by
  rw [Laws.exec_decIngest, ingest, h]
  rfl

/-- Settles O12: the first condition of the ladder that holds names the error, and the rejection is the same for each. -/
theorem badDropletIsRejected : Obligations.BadDropletIsRejected := by
  intro s
  refine ⟨fun hmal => exec_decIngest_of_ingestCheck ?malformed,
    fun hmal hinc => exec_decIngest_of_ingestCheck ?inconsistent,
    fun hmal hinc htable => exec_decIngest_of_ingestCheck ?mismatch⟩ <;>
    rw [ingestCheck_eq_ladder]
  case malformed => exact if_pos hmal
  case inconsistent => rw [if_neg hmal, if_pos hinc]
  case mismatch => rw [if_neg hmal, if_neg hinc, if_pos htable]

end Sys2Proof.Proofs
end

section
/-!
PROOFS. Command words: decoding and encoding (30_encoding.md R120, R121, R124).
-/

namespace Sys2Proof.Proofs

open Sys2Proof Sys2Proof.Machine

/-- Every row of the opcode map holds a command with its own opcode (R121). -/
theorem opcode_of_mem_opcodeMap : ∀ x ∈ opcodeMap, x.1 = x.2.opcode := by decide

theorem decodeOpcode_opcode (i : Instr) : decodeOpcode i.opcode = some i := by cases i <;> rfl

theorem decodeOpcode_eq_some_iff {opc : Opcode} {i : Instr} : decodeOpcode opc = some i ↔ opc = i.opcode := by
  constructor
  · intro h
    obtain ⟨before, after, hmap, _⟩ := List.lookup_eq_some_iff.1 h
    exact opcode_of_mem_opcodeMap (opc, i) (hmap ▸ List.mem_append_right before List.mem_cons_self)
  · rintro rfl
    exact decodeOpcode_opcode i

/-- The fields `UNIT` and `FN` of a command are the halves of its opcode (R120). -/
theorem encode_eq_append (i : Instr) : encode i = (0 : BitVec 24) ++ i.opcode := by cases i <;> rfl

theorem eq_encode_iff {v : Word} {i : Instr} :
    v = encode i ↔ v.extractLsb' 8 24 = 0 ∧ v.extractLsb' 0 8 = i.opcode := by
  rw [encode_eq_append]
  constructor
  · rintro rfl
    exact ⟨BitVec.extractLsb'_append_eq_left, BitVec.extractLsb'_append_eq_right⟩
  · rintro ⟨hreserved, hopcode⟩
    have hsplit : v.extractLsb' 8 24 ++ v.extractLsb' 0 8 = v := by grind
    rw [← hsplit, hreserved, hopcode]

theorem decode_eq_ok_iff {v : Word} {i : Instr} :
    decode v = .ok i ↔ v.extractLsb' 8 24 = 0 ∧ decodeOpcode (v.extractLsb' 0 8) = some i := by
  unfold decode
  by_cases hreserved : v.extractLsb' 8 24 = 0
  · rw [if_neg (not_not.2 hreserved)]
    cases decodeOpcode (v.extractLsb' 0 8) <;> simp [hreserved]
  · rw [if_pos hreserved]
    exact ⟨fun h => (nomatch h), fun h => absurd h.1 hreserved⟩

/-- Settles O1: a word is split by its reserved bits and its low byte, and the opcode map is one to one. -/
theorem decodeAndEncodeAgree : Obligations.DecodeAndEncodeAgree := by
  intro v i
  rw [decode_eq_ok_iff, eq_encode_iff, decodeOpcode_eq_some_iff]

/-- Settles O2: the words, evaluated. -/
theorem opcodeMapWordsDecode : Obligations.OpcodeMapWordsDecode := by
  unfold Obligations.OpcodeMapWordsDecode
  decide

end Sys2Proof.Proofs
end

section
/-!
PROOFS. What a completion depends on and what it writes: its own unit, `ERR` and `LAST_ERR` (20_memory.md R91, R93;
60_exceptions.md R301).
-/

namespace Sys2Proof.Proofs

open Sys2Proof Sys2Proof.Machine

/-! ### A command sees and writes its own unit alone -/

/-- A state of build `p` with this encoder: what an encoder command can see. -/
def encView (p : Params) (e : Encoder) : State := { State.reset with params := p, enc := e }

/-- A state of build `p` with this decoder: what a decoder command can see. -/
def decView (p : Params) (d : Decoder) : State := { State.reset with params := p, dec := d }

/-- The encoder after the completion of an encoder command. -/
def encAfter (i : Instr) (p : Params) (e : Encoder) : Encoder :=
  match exec i (encView p e) with
  | .next t => t.enc
  | _ => e

/-- The decoder after the completion of a decoder command. -/
def decAfter (i : Instr) (p : Params) (d : Decoder) : Decoder :=
  match exec i (decView p d) with
  | .next t => t.dec
  | _ => d

/-- R97: the error of an encoder command is decided by the build and the encoder. -/
theorem commandError_enc_congr {i : Instr} (hi : i.unit = .enc) {s s' : State} (hp : s'.params = s.params)
    (he : s'.enc = s.enc) : commandError s' i = commandError s i := by
  have hview (x : State) : commandError x i = commandError (encView x.params x.enc) i := by
    cases i
    case encReset | encConfig | encSeed | encNext | encDegq | encSelq => rfl
    all_goals cases hi
  rw [hview, hp, he, ← hview]

/-- R97: the error of a decoder command is decided by the build and the decoder. -/
theorem commandError_dec_congr {i : Instr} (hi : i.unit = .dec) {s s' : State} (hp : s'.params = s.params)
    (hd : s'.dec = s.dec) : commandError s' i = commandError s i := by
  have hview (x : State) : commandError x i = commandError (decView x.params x.dec) i := by
    cases i
    case decReset | decIngest | decRecon | decReadOut | decReadChunk | decDegq | decReadPend => rfl
    all_goals cases hi
  rw [hview, hp, hd, ← hview]

/-- The shape of R301 for a command whose check sees the encoder alone and whose effect stays in it. -/
theorem complete_enc_eq {check : State → Option ErrCode} {effect : State → State} (opc : Opcode) (s : State)
    (hcheck : check (encView s.params s.enc) = check s)
    (heffect : effect s = { s with enc := (effect (encView s.params s.enc)).enc }) :
    s.complete .enc opc (check s) (effect s) =
      State.raiseIf opc (check s)
        { s with
          enc := ((encView s.params s.enc).complete .enc opc (check (encView s.params s.enc))
            (effect (encView s.params s.enc))).enc } := by
  rw [hcheck, heffect]
  cases check s <;> rfl

/-- The shape of R301 for a command whose check sees the decoder alone and whose effect stays in it. -/
theorem complete_dec_eq {check : State → Option ErrCode} {effect : State → State} (opc : Opcode) (s : State)
    (hcheck : check (decView s.params s.dec) = check s)
    (heffect : effect s = { s with dec := (effect (decView s.params s.dec)).dec }) :
    s.complete .dec opc (check s) (effect s) =
      State.raiseIf opc (check s)
        { s with
          dec := ((decView s.params s.dec).complete .dec opc (check (decView s.params s.dec))
            (effect (decView s.params s.dec))).dec } := by
  rw [hcheck, heffect]
  cases check s <;> rfl

/-- `DEC_INGEST` records its error and writes the decoder. -/
theorem ingest_finish_eq (s : State) :
    (ingest s).finish .dec =
      State.raiseIf 0x12 (commandError s .decIngest)
        { s with dec := ((ingest (decView s.params s.dec)).finish .dec).dec } := by
  have hview : ingestCheck (decView s.params s.dec) = ingestCheck s := rfl
  simp only [ingest, commandError, hview]
  cases ingestCheck s with
  | some e => rfl
  | none =>
    simp only [decView]
    cases (ingestAccepted s.params s.dec).2 <;> rfl

/-- R91, R301: the completion of an encoder command records the command's error, if any, and writes the encoder. -/
theorem exec_enc {i : Instr} (hi : i.unit = .enc) (s : State) :
    exec i s =
      .next (State.raiseIf i.opcode (commandError s i) { s with enc := encAfter i s.params s.enc }) := by
  cases i
  case encReset => rfl
  case encConfig => exact congrArg Host.Outcome.next (complete_enc_eq (effect := encConfigEffect) 0x02 s rfl rfl)
  case encSeed => exact congrArg Host.Outcome.next (complete_enc_eq (effect := encSeedEffect) 0x03 s rfl rfl)
  case encNext => exact congrArg Host.Outcome.next (complete_enc_eq (effect := encNextEffect) 0x04 s rfl rfl)
  case encDegq => exact congrArg Host.Outcome.next (complete_enc_eq (effect := encDegqEffect) 0x05 s rfl rfl)
  case encSelq => exact congrArg Host.Outcome.next (complete_enc_eq (effect := encSelqEffect) 0x06 s rfl rfl)
  all_goals cases hi

/-- R91, R301: the completion of a decoder command records the command's error, if any, and writes the decoder. -/
theorem exec_dec {i : Instr} (hi : i.unit = .dec) (s : State) :
    exec i s =
      .next (State.raiseIf i.opcode (commandError s i) { s with dec := decAfter i s.params s.dec }) := by
  cases i
  case decReset => rfl
  case decIngest => exact congrArg _ (ingest_finish_eq s)
  case decRecon => exact congrArg Host.Outcome.next (complete_dec_eq (effect := decReconEffect) 0x13 s rfl rfl)
  case decReadOut => exact congrArg Host.Outcome.next (complete_dec_eq (effect := decReadOutEffect) 0x14 s rfl rfl)
  case decReadChunk => exact congrArg Host.Outcome.next (complete_dec_eq (effect := decReadChunkEffect) 0x15 s rfl rfl)
  case decDegq => exact congrArg Host.Outcome.next (complete_dec_eq (effect := decDegqEffect) 0x16 s rfl rfl)
  case decReadPend => exact congrArg Host.Outcome.next (complete_dec_eq (effect := decReadPendEffect) 0x17 s rfl rfl)
  all_goals cases hi

/-! ### The end of a completion (R91) -/

/-- What an accepted droplet can write of the decoder (R240): the parameters once, `DMASK` and `DEC_CLAMPED`, and the
progress of the transfer. -/
theorem ingestAccepted_frame (p : Params) (d : Decoder) :
    (ingestAccepted p d).1 =
      { d.learn with
        mask := (ingestSelection p d).mask, clamped := (ingestSelection p d).clamped,
        newly := (ingestAccepted p d).1.newly, outcome := (ingestAccepted p d).1.outcome,
        chunk := (ingestAccepted p d).1.chunk, known := (ingestAccepted p d).1.known,
        resolved := (ingestAccepted p d).1.resolved, pend := (ingestAccepted p d).1.pend,
        pendCount := (ingestAccepted p d).1.pendCount } := by
  unfold ingestAccepted
  dsimp only
  split
  · rfl
  · split
    · unfold peel
      rw [Laws.peelLoop_frame]
    · rcases Laws.pendStore_cases { d.learn with
        mask := (ingestSelection p d).mask, clamped := (ingestSelection p d).clamped, newly := 0 } _ _ with
        ⟨e, _, h⟩ | ⟨e, _, _, h⟩ | ⟨_, _, h⟩ <;> rw [h]

theorem decIngest_latch (s : State) : ((ingest s).finish .dec).dec.latch = s.dec.latch.idle := by
  rcases Laws.ingest_cases s with ⟨e, _, h⟩ | ⟨_, _, h⟩ | ⟨e, _, _, h⟩ <;> rw [h]
  · rfl
  · rw [ingestAccepted_frame]
    exact congrArg Latch.idle (Laws.learn_latch s.dec)
  · rw [ingestAccepted_frame]
    exact congrArg Latch.idle (Laws.learn_latch s.dec)

theorem finish_latchOf (s : State) (u : UnitId) : (s.finish u).latchOf u = (s.latchOf u).idle := by cases u <;> rfl

theorem complete_latchOf {s effect : State} {u : UnitId} (opc : Opcode) (check : Option ErrCode)
    (h : effect.latchOf u = s.latchOf u) : (s.complete u opc check effect).latchOf u = (s.latchOf u).idle := by
  cases check with
  | none => rw [Laws.complete_none, finish_latchOf, h]
  | some e => cases u <;> rfl

/-- R91: the completion of a command frees its unit and keeps the rest of its latches. -/
theorem exec_latchOf {i : Instr} {s t : State} (h : exec i s = .next t) : t.latchOf i.unit = (s.latchOf i.unit).idle := by
  cases i <;> obtain rfl := Host.Outcome.next.inj h
  case encReset | decReset => rfl
  case decIngest => exact decIngest_latch s
  all_goals exact complete_latchOf _ _ rfl

/-- Recording an error changes `ERR` and `LAST_ERR` alone. -/
theorem raiseIf_eq (opc : Opcode) (err : Option ErrCode) (s : State) :
    State.raiseIf opc err s =
      { s with
        err := s.err ||| errorBit err
        lastErr := (err.map fun e => { src := opc, code := e }).or s.lastErr } := by
  cases err with
  | none => simp [State.raiseIf, errorBit]
  | some e => rfl

theorem exec_enc_dec {i : Instr} {s t : State} (hi : i.unit = .enc) (h : exec i s = .next t) : t.dec = s.dec := by
  rw [exec_enc hi, raiseIf_eq] at h
  obtain rfl := Host.Outcome.next.inj h
  rfl

theorem exec_dec_enc {i : Instr} {s t : State} (hi : i.unit = .dec) (h : exec i s = .next t) : t.enc = s.enc := by
  rw [exec_dec hi, raiseIf_eq] at h
  obtain rfl := Host.Outcome.next.inj h
  rfl

/-- No command takes an event, draws a value or touches the build. -/
theorem exec_inputs {i : Instr} {s t : State} (h : exec i s = .next t) :
    t.params = s.params ∧ t.events = s.events ∧ t.draws = s.draws := by
  cases hi : i.unit with
  | enc =>
    rw [exec_enc hi, raiseIf_eq] at h
    obtain rfl := Host.Outcome.next.inj h
    exact ⟨rfl, rfl, rfl⟩
  | dec =>
    rw [exec_dec hi, raiseIf_eq] at h
    obtain rfl := Host.Outcome.next.inj h
    exact ⟨rfl, rfl, rfl⟩

/-- A command leaves the other unit's latches alone. -/
theorem exec_latchOf_other {i : Instr} {s t : State} (h : exec i s = .next t) {u : UnitId} (hu : u ≠ i.unit) :
    t.latchOf u = s.latchOf u := by
  cases u with
  | enc =>
    cases hi : i.unit with
    | enc => exact absurd hi.symm hu
    | dec => exact congrArg Encoder.latch (exec_dec_enc hi h)
  | dec =>
    cases hi : i.unit with
    | enc => exact congrArg Decoder.latch (exec_enc_dec hi h)
    | dec => exact absurd hi.symm hu

/-- Settles O27: no command stops; its own latch is freed, the other unit is not its own. -/
theorem completionFreesTheUnit : Obligations.CompletionFreesTheUnit := by
  intro i s
  obtain ⟨t, ht⟩ := Laws.exec_total i s
  exact ⟨t, ht, by rw [exec_latchOf ht, Laws.idle_busy], fun u hu => exec_latchOf_other ht hu⟩

/-! ### What a command does not see, and the order of two completions -/

/-- Settles O7: a command sees the build and its unit, and writes its unit and the error registers. -/
theorem issuedCommandIgnoresLaterArguments : Obligations.IssuedCommandIgnoresLaterArguments := by
  intro i s t x0 x1 x2 x3 es n h
  cases hi : i.unit with
  | enc =>
    have herr : commandError { s with arg0 := x0, arg1 := x1, arg2 := x2, rdata := x3, events := es, draws := n } i =
        commandError s i := commandError_enc_congr hi rfl rfl
    rw [exec_enc hi, raiseIf_eq] at h
    obtain rfl := Host.Outcome.next.inj h
    rw [exec_enc hi, raiseIf_eq, herr]
  | dec =>
    have herr : commandError { s with arg0 := x0, arg1 := x1, arg2 := x2, rdata := x3, events := es, draws := n } i =
        commandError s i := commandError_dec_congr hi rfl rfl
    rw [exec_dec hi, raiseIf_eq] at h
    obtain rfl := Host.Outcome.next.inj h
    rw [exec_dec hi, raiseIf_eq, herr]

/-- Settles O51: each command sees and writes its own unit; the two errors' bits are added to `ERR` in either order. -/
theorem unitsCompleteInEitherOrder : Obligations.UnitsCompleteInEitherOrder := by
  intro i j s hi hj
  obtain ⟨t, ht⟩ := Laws.exec_total i s
  obtain ⟨u, hu⟩ := Laws.exec_total j s
  have hierr : commandError u i = commandError s i :=
    commandError_enc_congr hi (exec_inputs hu).1 (exec_dec_enc hj hu)
  have hjerr : commandError t j = commandError s j :=
    commandError_dec_congr hj (exec_inputs ht).1 (exec_enc_dec hi ht)
  refine ⟨t, _, u, _, ht, exec_dec hj t, hu, exec_enc hi u, exec_enc_dec hi ht, exec_dec_enc hj hu, ?_, ?_, ?_⟩
  · rw [hierr, hjerr]
    rw [exec_enc hi, raiseIf_eq] at ht
    rw [exec_dec hj, raiseIf_eq] at hu
    obtain rfl := Host.Outcome.next.inj ht
    obtain rfl := Host.Outcome.next.inj hu
    simp only [raiseIf_eq, BitVec.or_assoc, BitVec.or_comm (errorBit (commandError s j))]
  · intro e he
    rw [hjerr, he]
    rfl
  · intro e he
    rw [hierr, he]
    rfl

end Sys2Proof.Proofs
end

section
/-!
PROOFS. Every step keeps the invariant (10_state.md R65), and from a state with the invariant no step stops
(60_exceptions.md).
-/

namespace Sys2Proof.Proofs

open Sys2Proof Sys2Proof.Machine

/-! ### The encoder's commands -/

theorem toNat_ofNat_of_le {n m : Nat} (h : n ≤ m) (hm : m < 2 ^ 32) : (BitVec.ofNat 32 n).toNat = n := by
  rw [BitVec.toNat_ofNat, Nat.mod_eq_of_lt (h.trans_lt hm)]

theorem badChunkCount_eq_false_iff {p : Params} {k : Word} :
    badChunkCount p k = false ↔ 1 ≤ k.toNat ∧ k.toNat ≤ p.kMax := by
  rw [← Bool.not_eq_true, badChunkCount_iff]
  omega

/-- R202: an `ENC_CONFIG` that no check ends has a length that fits the buffer. -/
theorem encConfigCheck_eq_none_iff {s : State} :
    encConfigCheck s = none ↔
      s.enc.phase = .idle ∧ 1 ≤ s.enc.latch.a0.toNat ∧
        s.enc.latch.a0.toNat ≤ s.params.kMax * s.params.chunkSize := by
  have hzero : s.enc.latch.a0 = 0 ↔ s.enc.latch.a0.toNat = 0 := BitVec.toNat_inj.symm
  unfold encConfigCheck
  by_cases hphase : s.enc.phase = .idle
  · simp only [hphase, hzero, not_true_eq_false, if_false, ite_eq_right_iff, reduceCtorEq, imp_false, true_and, ne_eq]
    omega
  · simp [hphase]

/-- R202: the chunk count and the pad of a buffer of `n` bytes, as the registers hold them. -/
theorem chunking_spec {p : Params} (hp : p.wf) {n : Nat} (h1 : 1 ≤ n) (h2 : n ≤ p.kMax * p.chunkSize) :
    (BitVec.ofNat 32 (ceilDiv n p.chunkSize)).toNat = ceilDiv n p.chunkSize ∧
      (BitVec.ofNat 32 (ceilDiv n p.chunkSize * p.chunkSize - n)).toNat =
        ceilDiv n p.chunkSize * p.chunkSize - n ∧
      1 ≤ ceilDiv n p.chunkSize ∧ ceilDiv n p.chunkSize ≤ p.kMax ∧
      n ≤ ceilDiv n p.chunkSize * p.chunkSize ∧ ceilDiv n p.chunkSize * p.chunkSize < n + p.chunkSize := by
  obtain ⟨⟨hsize, hsize'⟩, ⟨_, hkMax⟩, _⟩ := hp
  have hle := Laws.ceilDiv_le hsize h2
  have hlt := Laws.ceilDiv_mul_lt (a := n) hsize
  exact ⟨toNat_ofNat_of_le hle (by omega), toNat_ofNat_of_le (m := p.chunkSize) (by omega) (by omega),
    Laws.ceilDiv_pos hsize h1, hle, Laws.ceilDiv_mul_ge hsize, hlt⟩

theorem inv_encConfigEffect {s : State} (h : s.Inv) (hc : encConfigCheck s = none) : (encConfigEffect s).Inv := by
  obtain ⟨hp, herr, ⟨hlatch, _, _, _, hmask, _, hout, hcdf, htab⟩, hdec⟩ := h
  obtain ⟨_, h1, h2⟩ := encConfigCheck_eq_none_iff.1 hc
  obtain ⟨hk, hpad, _⟩ := chunking_spec hp h1 h2
  replace hk : (encConfigEffect s).enc.k.toNat = ceilDiv s.enc.latch.a0.toNat s.params.chunkSize := hk
  refine ⟨hp, herr, ⟨hlatch, fun hidle => (nomatch hidle), fun _ => ⟨h1, h2, hk, ?_⟩, fun _ _ hc => (nomatch hc),
    hmask, Laws.sound_nil, hout, hcdf, htab⟩, hdec⟩
  rw [hk]
  exact hpad

theorem encSeedCheck_eq_none_iff {s : State} : encSeedCheck s = none ↔ s.enc.phase ≠ .idle := by
  simp [encSeedCheck]

theorem inv_encSeedEffect {s : State} (h : s.Inv) (hc : encSeedCheck s = none) : (encSeedEffect s).Inv := by
  obtain ⟨hp, herr, ⟨hlatch, _, hchunked, hpad, hmask, hsrc, hout, hcdf, htab⟩, hdec⟩ := h
  have hphase := encSeedCheck_eq_none_iff.1 hc
  exact ⟨hp, herr, ⟨hlatch, fun hidle => (nomatch hidle), fun _ => hchunked hphase, fun _ => hpad hphase, hmask, hsrc,
    hout, hcdf, htab⟩, hdec⟩

theorem encNextCheck_eq_none_iff {s : State} :
    encNextCheck s = none ↔ s.enc.phase = .running ∧ tableReady s.enc.degMode s.enc.cdfK s.enc.k := by
  unfold encNextCheck
  by_cases hphase : s.enc.phase = .running
  · simp only [hphase, ne_eq, not_true_eq_false, if_false, degTableMismatch_iff_not_tableReady, ite_eq_right_iff,
      reduceCtorEq, imp_false, not_not, true_and]
  · simp [hphase]

/-- A mask of chunks below a legal chunk count is a mask of the build. -/
theorem mask_lt_of_le {m : Mask} {k n : Nat} (h : m < 2 ^ k) (hk : k ≤ n) : m < 2 ^ n :=
  h.trans_le (Nat.pow_le_pow_right (by norm_num) hk)

theorem inv_encNextEffect {s : State} (h : s.Inv) (hc : encNextCheck s = none) : (encNextEffect s).Inv := by
  obtain ⟨hp, herr, ⟨hlatch, hidle, hchunked, hpad, _, hsrc, _, hcdf, htab⟩, hdec⟩ := h
  have hphase : s.enc.phase ≠ .idle := by
    rw [(encNextCheck_eq_none_iff.1 hc).1]
    decide
  have hk : s.enc.k.toNat ≤ s.params.kMax := chunkCount_le_kMax hp.1.1 hchunked hphase
  exact ⟨hp, herr, ⟨hlatch, hidle, hchunked, hpad, mask_lt_of_le (Laws.degreeFunction_mask_lt _ _ _ _) hk, hsrc,
    Laws.fill_sound _ _, hcdf, htab⟩, hdec⟩

/-- A degree query or a selector query writes no more of the encoder than three result registers. -/
theorem inv_encRecordSelection {s : State} (h : s.Inv) {r : Selection} (hr : r.mask < 2 ^ s.params.kMax) :
    State.Inv { s with enc := s.enc.recordSelection r } := by
  obtain ⟨hp, herr, ⟨hlatch, hidle, hchunked, hpad, _, hsrc, hout, hcdf, htab⟩, hdec⟩ := h
  exact ⟨hp, herr, ⟨hlatch, hidle, hchunked, hpad, hr, hsrc, hout, hcdf, htab⟩, hdec⟩

theorem inv_decRecordSelection {s : State} (h : s.Inv) {r : Selection} (hr : r.mask < 2 ^ s.params.kMax) :
    State.Inv { s with dec := s.dec.recordSelection r } := by
  obtain ⟨hp, herr, henc, ⟨hlatch, hfresh, hlegal, hknown, hopen, hcount, _, hrams⟩⟩ := h
  exact ⟨hp, herr, henc, ⟨hlatch, hfresh, hlegal, hknown, hopen, hcount, hr, hrams⟩⟩

theorem degqCheck_eq_none_iff {p : Params} {mode : DegMode} {cdfK k : Word} :
    degqCheck p mode cdfK k = none ↔ 1 ≤ k.toNat ∧ k.toNat ≤ p.kMax ∧ tableReady mode cdfK k := by
  unfold degqCheck
  by_cases hbad : badChunkCount p k = true
  · have := badChunkCount_iff.1 hbad
    simp only [hbad, if_true, reduceCtorEq, false_iff, not_and]
    omega
  · have := badChunkCount_eq_false_iff.1 (Bool.eq_false_of_not_eq_true hbad)
    simp only [hbad, Bool.false_eq_true, if_false, degTableMismatch_iff_not_tableReady, ite_eq_right_iff, reduceCtorEq,
      imp_false, not_not, this, true_and]

theorem encSelqCheck_eq_none_iff {s : State} :
    encSelqCheck s = none ↔ 1 ≤ s.enc.latch.a2.toNat ∧ s.enc.latch.a2.toNat ≤ s.params.kMax := by
  rw [← badChunkCount_eq_false_iff]
  simp [encSelqCheck]

/-! ### The completion of a command -/

theorem inv_complete {s effect : State} (h : s.Inv) (u : UnitId) (opc : Opcode) {check : Option ErrCode}
    (heffect : check = none → effect.Inv) : (s.complete u opc check effect).Inv := by
  cases check with
  | none => exact Laws.inv_finish (heffect rfl) u
  | some e => exact Laws.inv_fail h u e opc

/-- R65: the completion of a command keeps the invariant. -/
theorem inv_exec {i : Instr} {s t : State} (h : s.Inv) (ht : exec i s = .next t) : t.Inv := by
  cases i <;> obtain rfl := Host.Outcome.next.inj ht
  case encReset => exact ⟨h.1, h.2.1, Laws.encInv_softReset h.2.2.1, h.2.2.2⟩
  case encConfig => exact inv_complete h _ _ (inv_encConfigEffect h)
  case encSeed => exact inv_complete h _ _ (inv_encSeedEffect h)
  case encNext => exact inv_complete h _ _ (inv_encNextEffect h)
  case encDegq =>
    refine inv_complete h _ _ fun hc => inv_encRecordSelection h ?_
    obtain ⟨_, hk, _⟩ := degqCheck_eq_none_iff.1 hc
    exact mask_lt_of_le (Laws.degreeFunction_mask_lt _ _ _ _) hk
  case encSelq =>
    refine inv_complete h _ _ fun hc => inv_encRecordSelection h ?_
    exact mask_lt_of_le (Laws.select_mask_lt _ _ _) (encSelqCheck_eq_none_iff.1 hc).2
  case decReset => exact ⟨h.1, h.2.1, h.2.2.1, Laws.decInv_softReset h.2.2.2⟩
  case decIngest => exact Laws.inv_finish (Laws.inv_ingest h) .dec
  case decDegq =>
    refine inv_complete h _ _ fun hc => inv_decRecordSelection h ?_
    obtain ⟨_, hk, _⟩ := degqCheck_eq_none_iff.1 hc
    exact mask_lt_of_le (Laws.degreeFunction_mask_lt _ _ _ _) hk
  case decRecon | decReadOut | decReadChunk | decReadPend => exact inv_complete h _ _ fun _ => h

/-! ### The host's accesses -/

/-- The entry a table window names is an entry of the table (R81). -/
def locInTable (p : Params) : Loc → Prop
  | .ecdf d | .dcdf d => d < p.kMax
  | .edeg i | .ddeg i => i < p.degtabLen
  | _ => True

theorem locInTable_windowLoc {p : Params} {n w : Nat} {l : Nat → Loc} (h : w < n → locInTable p (l w)) :
    locInTable p (windowLoc n l w) := by
  unfold windowLoc
  split
  case isTrue hw => exact h hw
  case isFalse => trivial

theorem locInTable_locOf (p : Params) (a : Word) : locInTable p (locOf p a) := by
  unfold locOf
  dsimp only
  split
  case h_1 =>
    unfold registerLoc
    split <;> trivial
  case h_12 => trivial
  case h_4 | h_5 | h_8 | h_9 => exact locInTable_windowLoc id
  all_goals exact locInTable_windowLoc fun _ => trivial

theorem inv_guardEncConfig {s effect : State} (h : s.Inv) (he : effect.Inv) : (guardEncConfig s effect).Inv := by
  rcases Laws.guardEncConfig_cases s effect with ⟨e, heq⟩ | ⟨_, _, heq⟩ <;> rw [heq]
  · exact Laws.inv_raise h e 0
  · exact he

theorem inv_guardDecConfig {s effect : State} (h : s.Inv) (he : effect.Inv) : (guardDecConfig s effect).Inv := by
  rcases Laws.guardDecConfig_cases s effect with ⟨e, heq⟩ | ⟨_, _, heq⟩ <;> rw [heq]
  · exact Laws.inv_raise h e 0
  · exact he

theorem inv_guardDecInput {s effect : State} (h : s.Inv) (he : effect.Inv) : (guardDecInput s effect).Inv := by
  rcases Laws.guardDecInput_cases s effect with ⟨e, heq⟩ | ⟨_, heq⟩ <;> rw [heq]
  · exact Laws.inv_raise h e 0
  · exact he

theorem inv_writeSrc {s : State} (h : s.Inv) (w : Nat) (v : Word) : (writeSrc s w v).Inv := by
  rcases Laws.writeSrc_cases s w v with ⟨e, heq⟩ | ⟨_, hphase, _, heq⟩ <;> rw [heq]
  · exact Laws.inv_raise h e 0
  · obtain ⟨hp, herr, ⟨hlatch, hidle, hchunked, hpad, hmask, hsrc, hrams⟩, hdec⟩ := h
    have hne : s.enc.phase ≠ .idle := by
      rw [hphase]
      decide
    obtain ⟨_, hlen, _⟩ := hchunked hne
    have hwritten := Laws.writeBufferWord_sound ⟨hsrc.1, hpad hne⟩ le_rfl w v
    exact ⟨hp, herr, ⟨hlatch, hidle, hchunked, fun _ => hwritten.2, hmask,
      Laws.writeBufferWord_sound hsrc hlen w v, hrams⟩, hdec⟩

theorem inv_writeCtrl {s : State} (h : s.Inv) (v : Word) : (writeCtrl v s).Inv := by
  obtain ⟨hp, herr, henc, hdec⟩ := h
  rw [writeCtrl_eq]
  refine ⟨hp, herr, ?_, ?_⟩
  · dsimp only
    split
    · exact Laws.encInv_softReset henc
    · exact henc
  · dsimp only
    split
    · exact Laws.decInv_softReset hdec
    · exact hdec

theorem inv_writeReg {s : State} (h : s.Inv) (v : Word) (r : Reg) : (writeReg s v r).Inv := by
  cases r
  case cmd => exact Laws.inv_issue h v
  case ctrl => exact inv_writeCtrl h v
  case err => exact Laws.inv_ackErr h v
  case encMode | encCdfK => exact inv_guardEncConfig h h
  case decMode | decCdfK => exact inv_guardDecConfig h h
  case inSeed | inK | inP => exact inv_guardDecInput h h
  all_goals exact h

theorem inv_writeLoc {s : State} (h : s.Inv) (v : Word) {l : Loc} (hl : locInTable s.params l) :
    (writeLoc s v l).Inv := by
  obtain ⟨hp, herr, henc, hdec⟩ := id h
  obtain ⟨e1, e2, e3, e4, e5, e6, e7, hecdf, hetab⟩ := henc
  obtain ⟨d1, d2, d3, d4, d5, d6, d7, d8, hin, hdcdf, hdtab, d12⟩ := hdec
  cases l
  case reg r => exact inv_writeReg h v r
  case src w => exact inv_writeSrc h w v
  case ecdf d =>
    simp only [writeLoc]
    split
    · exact h
    · exact inv_guardEncConfig h
        ⟨hp, herr, ⟨e1, e2, e3, e4, e5, e6, e7, Laws.write_sound hecdf hl v, hetab⟩, h.2.2.2⟩
  case edeg i =>
    exact inv_guardEncConfig h
      ⟨hp, herr, ⟨e1, e2, e3, e4, e5, e6, e7, hecdf, Laws.write_sound hetab hl v⟩, h.2.2.2⟩
  case dcdf d =>
    simp only [writeLoc]
    split
    · exact h
    · exact inv_guardDecConfig h
        ⟨hp, herr, h.2.2.1, ⟨d1, d2, d3, d4, d5, d6, d7, d8, hin, Laws.write_sound hdcdf hl v, hdtab, d12⟩⟩
  case ddeg i =>
    exact inv_guardDecConfig h
      ⟨hp, herr, h.2.2.1, ⟨d1, d2, d3, d4, d5, d6, d7, d8, hin, hdcdf, Laws.write_sound hdtab hl v, d12⟩⟩
  case inBuf w =>
    exact inv_guardDecInput h
      ⟨hp, herr, h.2.2.1,
        ⟨d1, d2, d3, d4, d5, d6, d7, d8, Laws.writeBufferWord_sound hin le_rfl w v, hdcdf, hdtab, d12⟩⟩
  case out | emask | dmask | known | unmapped => exact h

theorem inv_hostAccess {s : State} (h : s.Inv) (a : Access) : (hostAccess s a).Inv := by
  cases a with
  | read a => exact h
  | write a v => exact inv_writeLoc h v (locInTable_locOf s.params a)

/-! ### The step -/

/-- Settles O46: a step is a host access, a completion, or nothing but a taken event, and each keeps the invariant. -/
theorem stepKeepsTheInvariant : Obligations.StepKeepsTheInvariant := by
  intro s t h hstep
  rcases Laws.step_cases hstep with ⟨a, es, _, rfl⟩ | ⟨u, i, es, n, _, _, _, _, _, hexec⟩ | ⟨_, es, rfl⟩
  · exact inv_hostAccess (s := { s with events := es }) h a
  · exact inv_exec (s := { s with events := es, draws := n }) h hexec
  · exact h

end Sys2Proof.Proofs
end

section
/-!
PROOFS. The step function: the oldest event, the latched command, the quiet block, the issue step (20_memory.md R90, R91,
30_encoding.md R122, 60_exceptions.md R304, R313).
-/

namespace Sys2Proof.Proofs

open Sys2Proof Sys2Proof.Machine

/-! ### The completion of a unit -/

/-- An op latch, read as a command word, decodes to the command its opcode names. -/
theorem decode_setWidth_eq_ok_iff {opc : Opcode} {i : Instr} :
    decode (opc.setWidth 32) = .ok i ↔ decodeOpcode opc = some i := by
  have hreserved : (opc.setWidth 32).extractLsb' 8 24 = 0 := by grind
  have hopcode : (opc.setWidth 32).extractLsb' 0 8 = opc := by grind
  rw [decode_eq_ok_iff, hreserved, hopcode]
  exact and_iff_right rfl

theorem completeUnit_of_busy {u : UnitId} {s : State} {i : Instr} (hbusy : (s.latchOf u).busy = true)
    (hop : decodeOpcode (s.latchOf u).op = some i) (hi : i.unit = u) : completeUnit u s = exec i s := by
  simp only [completeUnit, hbusy, hop, hi, if_true]

theorem completeUnit_of_idle {u : UnitId} {s : State} (hidle : (s.latchOf u).busy = false) :
    completeUnit u s = .next s := by
  simp [completeUnit, hidle]

theorem latchOf_inputs (s : State) (u : UnitId) (es : List Event) (n : Nat) :
    State.latchOf { s with events := es, draws := n } u = s.latchOf u := by cases u <;> rfl

theorem step_of_complete {s : State} {u : UnitId} {es : List Event} (h : s.events = .complete u :: es) :
    step s = completeUnit u { s with events := es } := by
  rw [step, h]

/-- Settles O3: the unit completes the command its op latch holds. -/
theorem stepRunsTheLatchedCommand : Obligations.StepRunsTheLatchedCommand := by
  intro s u es i hev hbusy hop hi _
  rw [step_of_complete hev]
  refine completeUnit_of_busy ?_ ?_ hi
  · rwa [latchOf_inputs]
  · rwa [latchOf_inputs, ← decode_setWidth_eq_ok_iff]

/-- Settles O4: an access is the whole step; an idle unit has nothing to complete. -/
theorem stepTakesTheOldestEvent : Obligations.StepTakesTheOldestEvent := by
  intro s es a v u
  refine ⟨fun hev => ?_, fun hev => ?_, fun hev hidle => ?_⟩
  · rw [step, hev]
    rfl
  · rw [step, hev]
    rfl
  · rw [step_of_complete hev, completeUnit_of_idle]
    rwa [latchOf_inputs]

/-! ### No step stops (60_exceptions.md R304) -/

/-- A unit that is idle or holds one of its commands completes. -/
theorem completeUnit_total {u : UnitId} {s : State} (h : Latch.readable u (s.latchOf u)) :
    ∃ t, completeUnit u s = .next t := by
  cases hbusy : (s.latchOf u).busy with
  | false => exact ⟨s, completeUnit_of_idle hbusy⟩
  | true =>
    obtain ⟨i, hop, hi⟩ := Option.map_eq_some_iff.1 (h hbusy)
    rw [completeUnit_of_busy hbusy hop hi]
    exact Laws.exec_total i s

theorem readable_latchOf {s : State} (h : s.Inv) (u : UnitId) : Latch.readable u (s.latchOf u) := by
  cases u with
  | enc => exact h.2.2.1.1
  | dec => exact h.2.2.2.1

/-- Settles O47: the one fault is an unreadable latch of a busy unit, which the invariant excludes. -/
theorem soundBlockNeverStops : Obligations.SoundBlockNeverStops := by
  intro s h
  have htotal (u : UnitId) (es : List Event) (n : Nat) :
      ∃ t, completeUnit u { s with events := es, draws := n } = .next t :=
    completeUnit_total (by rw [latchOf_inputs]; exact readable_latchOf h u)
  unfold step
  split
  · unfold quietStep
    split
    · exact htotal _ s.events _
    · split
      · exact htotal .enc s.events s.draws
      · exact htotal .dec s.events s.draws
  · exact ⟨_, rfl⟩
  · exact htotal _ _ s.draws

/-! ### The quiet block (log 6) -/

/-- How many units are busy. -/
def busyUnits (s : State) : Nat := s.enc.latch.busy.toNat + s.dec.latch.busy.toNat

theorem busyUnits_exec {i : Instr} {s t : State} (h : exec i s = .next t) (hbusy : (s.latchOf i.unit).busy = true) :
    busyUnits t + 1 = busyUnits s := by
  have hown := exec_latchOf h
  have hother := fun u => exec_latchOf_other h (u := u)
  unfold busyUnits
  cases hi : i.unit with
  | enc =>
    rw [hi, Laws.latchOf_enc, Laws.latchOf_enc] at hown
    rw [hi] at hbusy
    replace hother : t.dec.latch = s.dec.latch := hother .dec (by simp [hi])
    rw [hown, hother, Laws.idle_busy, show s.enc.latch.busy = true from hbusy]
    simp +arith
  | dec =>
    rw [hi, Laws.latchOf_dec, Laws.latchOf_dec] at hown
    rw [hi] at hbusy
    replace hother : t.enc.latch = s.enc.latch := hother .enc (by simp [hi])
    rw [hown, hother, Laws.idle_busy, show s.dec.latch.busy = true from hbusy]
    simp +arith

/-- A completion in a sound block: no event is taken, and the unit is no longer among the busy ones. -/
theorem completeUnit_progress {s : State} (h : s.Inv) (u : UnitId) :
    ∃ t, completeUnit u s = .next t ∧ t.Inv ∧ t.events = s.events ∧
      busyUnits t = busyUnits s - (s.latchOf u).busy.toNat := by
  cases hbusy : (s.latchOf u).busy with
  | false => exact ⟨s, completeUnit_of_idle hbusy, h, rfl, rfl⟩
  | true =>
    obtain ⟨i, hop, rfl⟩ := Option.map_eq_some_iff.1 (readable_latchOf h u hbusy)
    obtain ⟨t, ht⟩ := Laws.exec_total i s
    have hcount := busyUnits_exec ht hbusy
    exact ⟨t, (completeUnit_of_busy hbusy hop rfl).trans ht, inv_exec h ht, (exec_inputs ht).2.1, by simp; omega⟩

theorem step_of_quiet {s : State} (h : s.events = []) : step s = quietStep s := by
  rw [step, h]

theorem quietStep_of_one {s : State} {u v : UnitId} (huv : u ≠ v) (hu : (s.latchOf u).busy = true)
    (hv : (s.latchOf v).busy = false) : quietStep s = completeUnit u s := by
  cases u <;> cases v <;> simp_all [quietStep]

theorem quietStep_of_none {s : State} (he : s.enc.latch.busy = false) (hd : s.dec.latch.busy = false) :
    quietStep s = .next s := by
  have hidle : completeUnit .dec s = .next s := completeUnit_of_idle hd
  simp [quietStep, he, hidle]

/-- With both units busy the free value decides which of them completes. -/
theorem quietStep_of_both {s : State} (he : s.enc.latch.busy = true) (hd : s.dec.latch.busy = true) :
    ∃ u, quietStep s = completeUnit u { s with draws := s.draws + 1 } := by
  refine ⟨if Config.freeUnit s.draws then .enc else .dec, ?_⟩
  simp [quietStep, he, hd]

/-- A step of the quiet block frees a busy unit, if there is one. -/
theorem step_quiet_progress {s : State} (h : s.Inv) (hev : s.events = []) :
    ∃ t, step s = .next t ∧ t.Inv ∧ t.events = [] ∧ busyUnits t = busyUnits s - 1 := by
  rw [step_of_quiet hev]
  have hprogress (u : UnitId) (n : Nat) (hu : (s.latchOf u).busy = true) :
      ∃ t, completeUnit u { s with draws := n } = .next t ∧ t.Inv ∧ t.events = [] ∧ busyUnits t = busyUnits s - 1 := by
    have hlatch : (State.latchOf { s with draws := n } u).busy = true := by rwa [latchOf_inputs s u s.events n]
    obtain ⟨t, ht, hinv, hevt, hcount⟩ := completeUnit_progress (s := { s with draws := n }) h u
    exact ⟨t, ht, hinv, hevt.trans hev, by rw [hcount, hlatch]; rfl⟩
  cases he : s.enc.latch.busy <;> cases hd : s.dec.latch.busy
  case false.false => exact ⟨s, quietStep_of_none he hd, h, hev, by simp [busyUnits, he, hd]⟩
  case false.true =>
    rw [quietStep_of_one (u := .dec) (v := .enc) (by decide) hd he]
    exact hprogress .dec s.draws hd
  case true.false =>
    rw [quietStep_of_one (u := .enc) (v := .dec) (by decide) he hd]
    exact hprogress .enc s.draws he
  case true.true =>
    obtain ⟨u, hu⟩ := quietStep_of_both he hd
    rw [hu]
    exact hprogress u _ (by cases u <;> assumption)

/-- Settles O5: the quiet step is the completion of a busy unit, and each such step leaves one busy unit fewer. -/
theorem quietBlockFinishesItsCommands : Obligations.QuietBlockFinishesItsCommands := by
  intro s hev
  have hstep := step_of_quiet hev
  refine ⟨fun he hd => hstep.trans (quietStep_of_none he hd), fun u v i huv hu hv hop hi => ?_,
    fun i j he hd hop hi hop' hj => ?_, fun h => ?_⟩
  · rw [hstep, quietStep_of_one huv hu hv]
    exact completeUnit_of_busy hu (decode_setWidth_eq_ok_iff.1 hop) hi
  · obtain ⟨u, hu⟩ := quietStep_of_both he hd
    rw [hstep, hu]
    cases u with
    | enc => exact .inl (completeUnit_of_busy he (decode_setWidth_eq_ok_iff.1 hop) hi)
    | dec => exact .inr (completeUnit_of_busy hd (decode_setWidth_eq_ok_iff.1 hop') hj)
  · obtain ⟨t, ht, htinv, htev, htcount⟩ := step_quiet_progress h hev
    obtain ⟨t', ht', _, _, hcount⟩ := step_quiet_progress htinv htev
    have hzero : busyUnits t' = 0 := by
      have := Bool.toNat_le s.enc.latch.busy
      have := Bool.toNat_le s.dec.latch.busy
      unfold busyUnits at *
      omega
    refine ⟨t', ?_, ?_, ?_⟩
    · simp only [Host.Core.run, core, ht, ht']
    · simpa [busyUnits] using (Nat.add_eq_zero_iff.1 hzero).1
    · simpa [busyUnits] using (Nat.add_eq_zero_iff.1 hzero).2

/-! ### The issue step (R122) -/

/-- Settles O6: an illegal word has no command; a command's unit is busy or free. -/
theorem commandWriteIsTheIssueStep : Obligations.CommandWriteIsTheIssueStep := by
  intro s a v ha
  have hwrite : hostWrite s a v = issue v s := by simp only [hostWrite, ha, writeLoc, writeReg]
  rw [hwrite]
  refine ⟨fun hillegal => ?_, fun i hreserved hop hbusy => ?_, fun i hreserved hop hidle => ?_⟩
  · cases hdecode : decode v with
    | error e => simp only [issue, hdecode]
    | ok i =>
      obtain ⟨hreserved, hop⟩ := decode_eq_ok_iff.1 hdecode
      rcases hillegal with hbits | hnone
      · exact absurd hreserved hbits
      · cases hnone.symm.trans hop
  · simp only [issue, decode_eq_ok_iff.2 ⟨hreserved, hop⟩, hbusy, if_true]
  · simp only [issue, decode_eq_ok_iff.2 ⟨hreserved, hop⟩, hidle, Bool.false_eq_true, if_false, State.issueLatch]

end Sys2Proof.Proofs
end

section
/-!
PROOFS. The error registers and the encoder's commands (60_exceptions.md R300, R301; 42_encoder.md R201–R205;
40_degree_sampler.md R158; 41_chunk_selector.md R184).
-/

namespace Sys2Proof.Proofs

open Sys2Proof Sys2Proof.Machine

/-! ### `ERR` and `LAST_ERR` -/

theorem getLsbD_oneShiftLeft (i n : Nat) :
    (((1 <<< i : Nat) : Word)).getLsbD n = (decide (n < 32) && decide (i = n)) := by
  rw [BitVec.natCast_eq_ofNat, BitVec.getLsbD_ofNat, Nat.one_shiftLeft, Nat.testBit_two_pow]

/-- Each error's bit of `ERR` is its code (R36). -/
theorem getLsbD_errBit (e : ErrCode) (n : Nat) : e.bit.getLsbD n = decide (n = e.code) := by
  have hcode : e.code < 32 := by cases e <;> decide
  rw [ErrCode.bit, getLsbD_oneShiftLeft, ← Bool.decide_and]
  exact decide_eq_decide.2 ⟨fun h => h.2.symm, fun h => ⟨h ▸ hcode, h.symm⟩⟩

theorem extractLsb'_append_fields (a : BitVec 16) (b c : BitVec 8) :
    (a ++ b ++ c).extractLsb' 0 8 = c ∧ (a ++ b ++ c).extractLsb' 8 8 = b ∧ (a ++ b ++ c).extractLsb' 16 16 = a := by
  refine ⟨?_, ?_, ?_⟩ <;> grind

/-- Settles O8: the code of an error is its position in the list of R300, and raising writes `ERR` and `LAST_ERR`. -/
theorem raisingRecordsTheError : Obligations.RaisingRecordsTheError := by
  unfold Obligations.RaisingRecordsTheError
  intro codes
  have hcodes : ∀ x ∈ codes, x.1.code = x.2 := by decide
  refine ⟨fun e => ⟨e.code, by cases e <;> decide⟩, fun e c src s hmem => ?_⟩
  obtain rfl : e.code = c := hcodes _ hmem
  obtain ⟨hcode, hsrc, hzero⟩ := extractLsb'_append_fields 0 src (BitVec.ofNat 8 e.code)
  refine ⟨rfl, fun n _ => ?_, hcode, hsrc, hzero, rfl⟩
  rw [Laws.raise_err, BitVec.getLsbD_or, getLsbD_errBit]

/-- The bits of `ERR` that exist are 1 to 10 (R36). -/
theorem getLsbD_errBits : ∀ n < 32, errBits.getLsbD n = decide (1 ≤ n ∧ n ≤ 10) := by decide

/-- Settles O9: the write clears the bits of the word that exist. -/
theorem errorBitsAreWriteOneToClear : Obligations.ErrorBitsAreWriteOneToClear := by
  intro s a v ha
  have hwrite : hostWrite s a v = s.ackErr v := by simp only [hostWrite, ha, writeLoc, writeReg]
  rw [hwrite]
  refine ⟨fun n hn => ?_, rfl⟩
  rw [Laws.ackErr_err, BitVec.getLsbD_and, BitVec.getLsbD_not, BitVec.getLsbD_and, getLsbD_errBits n hn]
  simp [hn]

/-! ### Encoder commands that a check ends (R303) -/

theorem encConfigCheck_of_ne_idle {s : State} (h : s.enc.phase ≠ .idle) : encConfigCheck s = some .badState := if_pos h

theorem encConfigCheck_of_badLength {s : State} (h : s.enc.phase = .idle)
    (hlen : s.enc.latch.a0.toNat = 0 ∨ s.params.kMax * s.params.chunkSize < s.enc.latch.a0.toNat) :
    encConfigCheck s = some .badArg := by
  rw [encConfigCheck, if_neg (not_not.2 h), if_pos (hlen.imp_left BitVec.eq_of_toNat_eq)]

theorem degqCheck_of_badCount {p : Params} {k : Word} (mode : DegMode) (cdfK : Word)
    (h : k.toNat = 0 ∨ p.kMax < k.toNat) : degqCheck p mode cdfK k = some .badArg := by
  rw [degqCheck, if_pos (badChunkCount_iff.2 h)]

/-- ROBUST mode with a table built for another chunk count (R156). -/
theorem degTableMismatch_of_robust {mode : DegMode} {cdfK k : Word} (hmode : mode = .robust) (hk : cdfK ≠ k) :
    degTableMismatch mode cdfK k = true := by
  rw [degTableMismatch, hmode, Bool.and_eq_true]
  exact ⟨rfl, bne_iff_ne.2 hk⟩

theorem degqCheck_of_mismatch {p : Params} {mode : DegMode} {cdfK k : Word} (h1 : 1 ≤ k.toNat) (h2 : k.toNat ≤ p.kMax)
    (hmode : mode = .robust) (hk : cdfK ≠ k) : degqCheck p mode cdfK k = some .degTableMismatch := by
  rw [degqCheck, badChunkCount_eq_false h1 h2, degTableMismatch_of_robust hmode hk]
  rfl

/-- Settles O10: the check that each condition of the ladder fails first, and the command ends with its error. -/
theorem encoderCommandRefusals : Obligations.EncoderCommandRefusals := by
  intro s
  refine ⟨fun h => ?_, fun h hlen => ?_, fun h => ?_, fun h => ?_, fun h hmode hk => ?_, fun h => ?_,
    fun h1 h2 hmode hk => ?_, fun h => ?_⟩
  · rw [Laws.exec_encConfig, encConfigCheck_of_ne_idle h, Laws.complete_some]
  · rw [Laws.exec_encConfig, encConfigCheck_of_badLength h hlen, Laws.complete_some]
  · rw [Laws.exec_encSeed, encSeedCheck, if_pos h, Laws.complete_some]
  · rw [Laws.exec_encNext, encNextCheck, if_pos h, Laws.complete_some]
  · rw [Laws.exec_encNext, encNextCheck, if_neg (not_not.2 h), if_pos (degTableMismatch_of_robust hmode hk),
      Laws.complete_some]
  · rw [Laws.exec_encDegq, encDegqCheck, degqCheck_of_badCount _ _ h, Laws.complete_some]
  · rw [Laws.exec_encDegq, encDegqCheck, degqCheck_of_mismatch h1 h2 hmode hk, Laws.complete_some]
  · rw [Laws.exec_encSelq, encSelqCheck, if_pos (badChunkCount_iff.2 h), Laws.complete_some]

/-! ### Encoder commands that have their effect -/

/-- Settles O13: the reset, field by field. -/
theorem encResetReturnsToIdle : Obligations.EncResetReturnsToIdle := fun _ => rfl

/-- Settles O14: the chunk count is the least that holds the length, so it is within the build and the pad within a
chunk. -/
theorem encConfigEstablishesTheBuffer : Obligations.EncConfigEstablishesTheBuffer := by
  intro s hp hphase h1 h2
  have hcheck : encConfigCheck s = none := encConfigCheck_eq_none_iff.2 ⟨hphase, h1, h2⟩
  obtain ⟨hk, hpad, hpos, hle, hge, hlt⟩ := chunking_spec hp h1 h2
  refine ⟨(encConfigEffect s).finish .enc, by rw [Laws.exec_encConfig, hcheck, Laws.complete_none], rfl, ?_⟩
  replace hk : ((encConfigEffect s).finish .enc).enc.k.toNat = _ := hk
  replace hpad : ((encConfigEffect s).finish .enc).enc.pad.toNat = _ := hpad
  rw [hk, hpad]
  exact ⟨hpos, hle, by omega, by omega, Laws.read_nil, rfl, rfl⟩

/-- Settles O15. -/
theorem encSeedSetsTheSeedAndSeals : Obligations.EncSeedSetsTheSeedAndSeals := fun _ h => exec_encSeed_of_ne_idle h

/-- Settles O16: the droplet emitted, its payload byte by byte. -/
theorem encNextEmitsTheDroplet : Obligations.EncNextEmitsTheDroplet := by
  intro s hrun hready
  exact ⟨_, exec_encNext_of_ready hrun hready, fun b => Laws.read_fill _ _ b, rfl⟩

/-- Settles O17. -/
theorem encDegqReportsTheDegree : Obligations.EncDegqReportsTheDegree := by
  intro s h1 h2 hready
  have hcheck : encDegqCheck s = none := degqCheck_eq_none_iff.2 ⟨h1, h2, hready⟩
  rw [Laws.exec_encDegq, hcheck, Laws.complete_none]
  rfl

/-- Settles O18. -/
theorem encSelqReportsTheSelection : Obligations.EncSelqReportsTheSelection := by
  intro s h1 h2
  rw [Laws.exec_encSelq, encSelqCheck_eq_none_iff.2 ⟨h1, h2⟩, Laws.complete_none]
  rfl

end Sys2Proof.Proofs
end

section
/-!
PROOFS. The words of byte and mask windows, and the decoder's queries and readouts (20_memory.md R82, R88;
43_decoder.md R248–R253; 40_degree_sampler.md R159).
-/

namespace Sys2Proof.Proofs

open Sys2Proof Sys2Proof.Machine

/-! ### The words of byte and mask windows -/

/-- Bytes stand in a word little-endian (R82). -/
theorem extractLsb'_packWord (f : Nat → Byte) (w : Nat) {b : Nat} (hb : b < 4) :
    (packWord f w).extractLsb' (8 * b) 8 = f (4 * w + b) := by
  unfold packWord
  interval_cases b <;> grind

theorem extractLsb'_limitedWord (n : Nat) (f : Nat → Byte) (w : Nat) {b : Nat} (hb : b < 4) :
    (packWord (limitBytes n f) w).extractLsb' (8 * b) 8 = if 4 * w + b < n then f (4 * w + b) else 0 :=
  extractLsb'_packWord _ w hb

theorem extractLsb'_bufferWord (n : Nat) (m : Memory 8) (w : Nat) {b : Nat} (hb : b < 4) :
    (bufferWord n m w).extractLsb' (8 * b) 8 = if 4 * w + b < n then m.read (4 * w + b) else 0 :=
  extractLsb'_limitedWord n m.read w hb

/-- Bit `b` of word `w` is index `32w + b` (R12, R88). -/
theorem getLsbD_maskWord (n : Nat) (m : Mask) (w : Nat) {b : Nat} (hb : b < 32) :
    (maskWord n m w).getLsbD b = (decide (32 * w + b < n) && m.testBit (32 * w + b)) := by
  rw [maskWord, BitVec.getLsbD_ofNat, Nat.testBit_shiftRight, Nat.testBit_mod_two_pow, decide_eq_true hb, Bool.true_and]

/-! ### Decoder commands that a check ends (R303) -/

/-- Settles O11: the check that each condition of the ladder fails first, and the command ends with its error. -/
theorem decoderReadoutRefusals : Obligations.DecoderReadoutRefusals := by
  intro s
  refine ⟨fun h => ?_, fun h => ?_, fun h hlen => ?_, fun h => ?_, fun hset hi hw hk => ?_, fun h => ?_,
    fun h1 h2 hmode hk => ?_, fun h => ?_⟩
  · rw [Laws.exec_decRecon, decReconCheck, h]
    rfl
  · rw [Laws.exec_decReadOut, decReadOutCheck, h]
    rfl
  · have hcheck : decReadOutCheck s = some .badArg := (if_neg (not_not.2 h)).trans (if_pos hlen)
    rw [Laws.exec_decReadOut, hcheck, Laws.complete_some]
  · have hcheck : decReadChunkCheck s = some .badArg := by
      unfold decReadChunkCheck
      split
      · rfl
      · rename_i hlegal
        rw [Bool.not_eq_true, BitVec.le_def] at hlegal
        rw [if_pos]
        tauto
    rw [Laws.exec_decReadChunk, hcheck, Laws.complete_some]
  · rw [Laws.exec_decReadChunk, decReadChunkCheck, if_neg (by simp [hset, hi, BitVec.lt_def]), if_neg (by omega),
      if_pos (by simp [hk]), Laws.complete_some]
  · rw [Laws.exec_decDegq, decDegqCheck, degqCheck_of_badCount _ _ h, Laws.complete_some]
  · rw [Laws.exec_decDegq, decDegqCheck, degqCheck_of_mismatch h1 h2 hmode hk, Laws.complete_some]
  · have hcheck : decReadPendCheck s = some .badArg := if_pos h
    rw [Laws.exec_decReadPend, hcheck, Laws.complete_some]

/-! ### Decoder commands that have their effect -/

/-- Settles O19: the reset, field by field. -/
theorem decResetForgetsTheTransfer : Obligations.DecResetForgetsTheTransfer := fun _ => rfl

/-- Settles O20. -/
theorem decReconReportsTheLength : Obligations.DecReconReportsTheLength := by
  intro s h
  rw [Laws.exec_decRecon, decReconCheck, h]
  rfl

/-- Settles O23. -/
theorem decDegqReportsTheDegree : Obligations.DecDegqReportsTheDegree := by
  intro s h1 h2 hready
  have hcheck : decDegqCheck s = none := degqCheck_eq_none_iff.2 ⟨h1, h2, hready⟩
  rw [Laws.exec_decDegq, hcheck, Laws.complete_none]
  rfl

/-- A readout that no check ends writes `DEC_RESULT` and the busy flag. -/
theorem complete_setDecResult (s : State) (opc : Opcode) (v : Word) :
    s.complete .dec opc none (s.setDecResult v) =
      { s with dec := { s.dec with latch := s.dec.latch.idle, result := v } } := rfl

/-- Byte `o` of the chunks in index order is byte `o` of `CHUNK`. -/
theorem outByte_eq_read (s : State) (o : Nat) : outByte s o = s.dec.chunk.read o := by
  rw [outByte, chunkByte, Nat.div_add_mod']

/-- Settles O21. -/
theorem decReadOutReturnsTheStream : Obligations.DecReadOutReturnsTheStream := by
  intro s hcomplete hlen
  have hcheck : decReadOutCheck s = none := (if_neg (not_not.2 hcomplete)).trans (if_neg (Nat.not_le.2 hlen))
  refine ⟨_, by rw [Laws.exec_decReadOut, hcheck, decReadOutEffect, complete_setDecResult], fun b hb => ?_, rfl⟩
  dsimp only
  rw [extractLsb'_limitedWord _ _ _ hb, outByte_eq_read, outLength]

/-- Settles O22. -/
theorem decReadChunkReturnsTheChunk : Obligations.DecReadChunkReturnsTheChunk := by
  intro s hset hi hw hk
  have hcheck : decReadChunkCheck s = none := by
    rw [decReadChunkCheck, if_neg (by simp [hset, hi, BitVec.lt_def]), if_neg (by omega), if_neg (by simp [hk])]
  refine ⟨_, by rw [Laws.exec_decReadChunk, hcheck, decReadChunkEffect, complete_setDecResult], fun b hb => ?_, rfl⟩
  dsimp only
  rw [extractLsb'_limitedWord _ _ _ hb, chunkByte]

/-! ### A row of the dependency matrix (R253) -/

theorem pendRowWord_of_free {sl : Slot} (p : Params) (w : Nat) (h : sl.valid = false) : pendRowWord p sl w = 0 := by
  simp [pendRowWord, h]

theorem pendRowWord_of_valid {sl : Slot} (p : Params) (w : Nat) (h : sl.valid = true) :
    pendRowWord p sl w =
      if w = 0 then (1 <<< 31) ||| BitVec.ofNat 32 (popcount p.kMax sl.mask)
      else if w ≤ p.maskWords then maskWord p.kMax sl.mask (w - 1)
      else bufferWord p.chunkSize sl.pay (w - 1 - p.maskWords) := by
  simp [pendRowWord, h]

/-- Settles O24. -/
theorem decReadPendReturnsTheRow : Obligations.DecReadPendReturnsTheRow := by
  intro s sl he hsl hw w mw
  have hcheck : decReadPendCheck s = none := if_neg (not_or.2 ⟨Nat.not_le.2 he, Nat.not_lt.2 hw⟩)
  have hslot : s.dec.slot s.dec.latch.a0.toNat = sl := by
    rw [Decoder.slot, List.getD_eq_getElem?_getD, hsl]
    rfl
  refine ⟨{ s with dec := { s.dec with latch := s.dec.latch.idle, result := pendRowWord s.params sl w } }, ?_,
    pendRowWord_of_free s.params w, fun hv hw0 => ?_, fun hv h1 hmw b hb => ?_, fun hv hmw b hb => ?_, rfl⟩
  · rw [Laws.exec_decReadPend, hcheck, decReadPendEffect, complete_setDecResult, hslot]
  · dsimp only
    rw [pendRowWord_of_valid _ _ hv, if_pos hw0]
  · dsimp only
    rw [pendRowWord_of_valid _ _ hv, if_neg (by omega), Params.maskWords, if_pos hmw, getLsbD_maskWord _ _ _ hb]
  · dsimp only
    rw [pendRowWord_of_valid _ _ hv, if_neg (by omega), Params.maskWords, if_neg (Nat.not_le.2 hmw),
      extractLsb'_bufferWord _ _ _ hb]

end Sys2Proof.Proofs
end

section
/-!
PROOFS. What a host write can change of a unit, and which steps change a resolved chunk, the phase or a sealed buffer
(10_state.md R49, R56, R60; 20_memory.md R83, R97; 42_encoder.md R200).
-/

namespace Sys2Proof.Proofs

open Sys2Proof Sys2Proof.Machine

/-! ### What a host write can change -/

/-- The fields of the encoder that a host write other than to `CTRL` can change: the latches at an issue, the
configuration, and `SRC` in LOADING. -/
def encHostWritten (e e' : Encoder) : Prop :=
  e' = { e with
    latch := e'.latch, degMode := e'.degMode, cdfK := e'.cdfK, src := e'.src, cdf := e'.cdf, degTab := e'.degTab } ∧
  (e.phase ≠ .loading → e'.src = e.src)

theorem encHostWritten_kept {e e' : Encoder} (h : encHostWritten e e') :
    e'.phase = e.phase ∧ e'.len = e.len ∧ e'.k = e.k ∧ e'.pad = e.pad := by
  rw [h.1]
  exact ⟨rfl, rfl, rfl, rfl⟩

/-- The fields of the decoder that a host write other than to `CTRL` can change: the latches at an issue, the
configuration and the input. -/
def decHostWritten (d d' : Decoder) : Prop :=
  d' = { d with
    latch := d'.latch, degMode := d'.degMode, cdfK := d'.cdfK, inSeed := d'.inSeed, inK := d'.inK, inPad := d'.inPad,
    inBuf := d'.inBuf, cdf := d'.cdf, degTab := d'.degTab }

theorem issue_enc (s : State) (v : Word) :
    (issue v s).enc = s.enc ∨ (s.enc.latch.busy = false ∧ encHostWritten s.enc (issue v s).enc) := by
  rcases Laws.issue_cases v s with ⟨e, h⟩ | ⟨i, _, hidle, h⟩ <;> rw [h]
  · exact .inl rfl
  · cases hi : i.unit with
    | enc =>
      rw [hi] at hidle
      exact .inr ⟨hidle, rfl, fun _ => rfl⟩
    | dec => exact .inl rfl

theorem issue_dec (s : State) (v : Word) :
    (issue v s).dec = s.dec ∨ (s.dec.latch.busy = false ∧ decHostWritten s.dec (issue v s).dec) := by
  rcases Laws.issue_cases v s with ⟨e, h⟩ | ⟨i, _, hidle, h⟩ <;> rw [h]
  · exact .inl rfl
  · cases hi : i.unit with
    | enc => exact .inl rfl
    | dec =>
      rw [hi] at hidle
      exact .inr ⟨hidle, rfl⟩

theorem guardEncConfig_enc {s effect : State} (h : encHostWritten s.enc effect.enc) :
    (guardEncConfig s effect).enc = s.enc ∨
      (s.enc.latch.busy = false ∧ encHostWritten s.enc (guardEncConfig s effect).enc) := by
  rcases Laws.guardEncConfig_cases s effect with ⟨e, heq⟩ | ⟨hidle, _, heq⟩ <;> rw [heq]
  · exact .inl rfl
  · exact .inr ⟨hidle, h⟩

theorem guardEncConfig_dec {s effect : State} (h : effect.dec = s.dec) : (guardEncConfig s effect).dec = s.dec := by
  rcases Laws.guardEncConfig_cases s effect with ⟨e, heq⟩ | ⟨_, _, heq⟩ <;> rw [heq]
  · rfl
  · exact h

theorem guardDecConfig_dec {s effect : State} (h : decHostWritten s.dec effect.dec) :
    (guardDecConfig s effect).dec = s.dec ∨
      (s.dec.latch.busy = false ∧ decHostWritten s.dec (guardDecConfig s effect).dec) := by
  rcases Laws.guardDecConfig_cases s effect with ⟨e, heq⟩ | ⟨hidle, _, heq⟩ <;> rw [heq]
  · exact .inl rfl
  · exact .inr ⟨hidle, h⟩

theorem guardDecConfig_enc {s effect : State} (h : effect.enc = s.enc) : (guardDecConfig s effect).enc = s.enc := by
  rcases Laws.guardDecConfig_cases s effect with ⟨e, heq⟩ | ⟨_, _, heq⟩ <;> rw [heq]
  · rfl
  · exact h

theorem guardDecInput_dec {s effect : State} (h : decHostWritten s.dec effect.dec) :
    (guardDecInput s effect).dec = s.dec ∨
      (s.dec.latch.busy = false ∧ decHostWritten s.dec (guardDecInput s effect).dec) := by
  rcases Laws.guardDecInput_cases s effect with ⟨e, heq⟩ | ⟨hidle, heq⟩ <;> rw [heq]
  · exact .inl rfl
  · exact .inr ⟨hidle, h⟩

theorem guardDecInput_enc {s effect : State} (h : effect.enc = s.enc) : (guardDecInput s effect).enc = s.enc := by
  rcases Laws.guardDecInput_cases s effect with ⟨e, heq⟩ | ⟨_, heq⟩ <;> rw [heq]
  · rfl
  · exact h

theorem writeSrc_enc (s : State) (w : Nat) (v : Word) :
    (writeSrc s w v).enc = s.enc ∨ (s.enc.latch.busy = false ∧ encHostWritten s.enc (writeSrc s w v).enc) := by
  rcases Laws.writeSrc_cases s w v with ⟨e, heq⟩ | ⟨hidle, hphase, _, heq⟩ <;> rw [heq]
  · exact .inl rfl
  · exact .inr ⟨hidle, rfl, fun hne => absurd hphase hne⟩

theorem writeSrc_dec (s : State) (w : Nat) (v : Word) : (writeSrc s w v).dec = s.dec := by
  rcases Laws.writeSrc_cases s w v with ⟨e, heq⟩ | ⟨_, _, _, heq⟩ <;>
    rw [heq]
  · rfl

/-- Outside `CTRL` a host write leaves a busy encoder alone, and of an idle one changes no more than `encHostWritten`. -/
theorem writeLoc_enc (s : State) (v : Word) {l : Loc} (hl : l ≠ .reg .ctrl) :
    (writeLoc s v l).enc = s.enc ∨ (s.enc.latch.busy = false ∧ encHostWritten s.enc (writeLoc s v l).enc) := by
  cases l
  case reg r =>
    cases r
    case cmd => exact issue_enc s v
    case ctrl => exact absurd rfl hl
    case encMode | encCdfK => exact guardEncConfig_enc ⟨rfl, fun _ => rfl⟩
    case decMode | decCdfK => exact .inl (guardDecConfig_enc rfl)
    case inSeed | inK | inP => exact .inl (guardDecInput_enc rfl)
    all_goals exact .inl rfl
  case src w => exact writeSrc_enc s w v
  case ecdf d =>
    simp only [writeLoc]
    split
    · exact .inl rfl
    · exact guardEncConfig_enc ⟨rfl, fun _ => rfl⟩
  case edeg => exact guardEncConfig_enc ⟨rfl, fun _ => rfl⟩
  case dcdf d =>
    simp only [writeLoc]
    split
    · exact .inl rfl
    · exact .inl (guardDecConfig_enc rfl)
  case ddeg => exact .inl (guardDecConfig_enc rfl)
  case inBuf => exact .inl (guardDecInput_enc rfl)
  case out | emask | dmask | known | unmapped => exact .inl rfl

/-- Outside `CTRL` a host write leaves a busy decoder alone, and of an idle one changes no more than `decHostWritten`. -/
theorem writeLoc_dec (s : State) (v : Word) {l : Loc} (hl : l ≠ .reg .ctrl) :
    (writeLoc s v l).dec = s.dec ∨ (s.dec.latch.busy = false ∧ decHostWritten s.dec (writeLoc s v l).dec) := by
  cases l
  case reg r =>
    cases r
    case cmd => exact issue_dec s v
    case ctrl => exact absurd rfl hl
    case encMode | encCdfK => exact .inl (guardEncConfig_dec rfl)
    case decMode | decCdfK => exact guardDecConfig_dec rfl
    case inSeed | inK | inP => exact guardDecInput_dec rfl
    all_goals exact .inl rfl
  case src w => exact .inl (writeSrc_dec s w v)
  case ecdf d =>
    simp only [writeLoc]
    split
    · exact .inl rfl
    · exact .inl (guardEncConfig_dec rfl)
  case edeg => exact .inl (guardEncConfig_dec rfl)
  case dcdf d =>
    simp only [writeLoc]
    split
    · exact .inl rfl
    · exact guardDecConfig_dec rfl
  case ddeg => exact guardDecConfig_dec rfl
  case inBuf => exact guardDecInput_dec rfl
  case out | emask | dmask | known | unmapped => exact .inl rfl

/-- Settles O39: a busy unit is no idle one, and each input's guard has the busy check first. -/
theorem busyUnitInputsAreLocked : Obligations.BusyUnitInputsAreLocked := by
  intro s a v
  refine ⟨fun hbusy => ⟨fun hctrl => ?_, fun hin => ?_⟩, fun hbusy => ⟨fun hctrl => ?_, fun hin => ?_⟩⟩
  · rcases writeLoc_enc s v hctrl with h | ⟨hidle, _⟩
    · exact h
    · cases hbusy.symm.trans hidle
  · have hguard (effect : State) : guardEncConfig s effect = s.raise .unitBusy 0 := if_pos hbusy
    unfold hostWrite
    rcases hin with h | h | ⟨w, h⟩ | ⟨d, hd, h⟩ | ⟨i, h⟩ <;> rw [h]
    · exact hguard _
    · exact hguard _
    · exact if_pos hbusy
    · exact (if_neg hd).trans (hguard _)
    · exact hguard _
  · rcases writeLoc_dec s v hctrl with h | ⟨hidle, _⟩
    · exact h
    · cases hbusy.symm.trans hidle
  · have hguard (effect : State) : guardDecConfig s effect = s.raise .unitBusy 0 := if_pos hbusy
    have hguardIn (effect : State) : guardDecInput s effect = s.raise .unitBusy 0 := if_pos hbusy
    unfold hostWrite
    rcases hin with h | h | h | h | h | ⟨w, h⟩ | ⟨d, hd, h⟩ | ⟨i, h⟩ <;> rw [h]
    · exact hguard _
    · exact hguard _
    · exact hguardIn _
    · exact hguardIn _
    · exact hguardIn _
    · exact hguardIn _
    · exact (if_neg hd).trans (hguard _)
    · exact hguard _

/-- The host's write of a step, at `CTRL` or elsewhere. -/
theorem writesNext_ctrl {s : State} {a v : Word} {es : List Event} (hev : s.events = .access (.write a v) :: es)
    (ha : locOf s.params a = .reg .ctrl) : writesNext s (.reg .ctrl) v := ⟨a, es, hev, ha⟩

/-! ### The encoder's phase and a sealed buffer -/

/-- An encoder command other than `ENC_RESET` and `ENC_CONFIG` leaves the buffer alone. -/
theorem exec_enc_buffer {i : Instr} {s t : State} (hi : i ≠ .encReset) (hi' : i ≠ .encConfig) (h : exec i s = .next t) :
    t.enc.src = s.enc.src ∧ t.enc.len = s.enc.len ∧ t.enc.k = s.enc.k ∧ t.enc.pad = s.enc.pad := by
  cases hu : i.unit with
  | dec => rw [exec_dec_enc hu h]; exact ⟨rfl, rfl, rfl, rfl⟩
  | enc =>
    cases i
    case encReset => exact absurd rfl hi
    case encConfig => exact absurd rfl hi'
    case encSeed | encNext | encDegq | encSelq =>
      obtain rfl := Host.Outcome.next.inj h
      rcases Laws.complete_cases s _ _ _ _ with ⟨e, _, h⟩ | ⟨_, h⟩ <;> rw [h]
      · exact ⟨rfl, rfl, rfl, rfl⟩
      · exact ⟨rfl, rfl, rfl, rfl⟩
    all_goals cases hu

/-- R200: what a command can do to the phase. -/
theorem exec_phase {i : Instr} {s t : State} (h : exec i s = .next t) (hne : t.enc.phase ≠ s.enc.phase) :
    (i = .encReset ∧ t.enc.phase = .idle) ∨
    (i = .encConfig ∧ s.enc.phase = .idle ∧ t.enc.phase = .loading ∧ 1 ≤ s.enc.latch.a0.toNat ∧
      s.enc.latch.a0.toNat ≤ s.params.kMax * s.params.chunkSize) ∨
    (i = .encSeed ∧ s.enc.phase = .loading ∧ t.enc.phase = .running) := by
  cases hu : i.unit with
  | dec => exact absurd (congrArg Encoder.phase (exec_dec_enc hu h)) hne
  | enc =>
    cases i
    case encReset =>
      obtain rfl := Host.Outcome.next.inj h
      exact .inl ⟨rfl, rfl⟩
    case encConfig =>
      obtain rfl := Host.Outcome.next.inj h
      rcases Laws.complete_cases s .enc Instr.encConfig.opcode (encConfigCheck s) (encConfigEffect s) with
        ⟨e, _, heq⟩ | ⟨hc, heq⟩
      · exact absurd (by rw [heq]; rfl) hne
      · obtain ⟨hphase, h1, h2⟩ := encConfigCheck_eq_none_iff.1 hc
        exact .inr (.inl ⟨rfl, hphase, by rw [heq]; rfl, h1, h2⟩)
    case encSeed =>
      obtain rfl := Host.Outcome.next.inj h
      rcases Laws.complete_cases s .enc Instr.encSeed.opcode (encSeedCheck s) (encSeedEffect s) with
        ⟨e, _, heq⟩ | ⟨hc, heq⟩
      · exact absurd (by rw [heq]; rfl) hne
      · have hidle := encSeedCheck_eq_none_iff.1 hc
        rw [heq] at hne
        refine .inr (.inr ⟨rfl, ?_, by rw [heq]; rfl⟩)
        cases hphase : s.enc.phase
        case idle => exact absurd hphase hidle
        case loading => rfl
        case running => exact absurd hphase.symm hne
    case encNext | encDegq | encSelq =>
      obtain rfl := Host.Outcome.next.inj h
      rcases Laws.complete_cases s _ _ _ _ with ⟨e, _, heq⟩ | ⟨_, heq⟩
      · exact absurd (by rw [heq]; rfl) hne
      · exact absurd (by rw [heq]; rfl) hne
    all_goals cases hu

/-- A host access changes the phase at a write of 1 to `CTRL.ENC_SRST` alone. -/
theorem hostWrite_enc (s : State) (a v : Word) :
    encHostWritten s.enc (hostWrite s a v).enc ∨
      (locOf s.params a = .reg .ctrl ∧ v.getLsbD 0 = true ∧ (hostWrite s a v).enc = s.enc.softReset) := by
  have hsame : encHostWritten s.enc s.enc := ⟨rfl, fun _ => rfl⟩
  by_cases hctrl : locOf s.params a = .reg .ctrl
  · rw [hostWrite_ctrl s v hctrl, writeCtrl_eq]
    cases hbit : v.getLsbD 0 with
    | false => exact .inl hsame
    | true => exact .inr ⟨hctrl, rfl, rfl⟩
  · rcases writeLoc_enc s v hctrl with h | ⟨_, h⟩
    · left
      rw [show (hostWrite s a v).enc = s.enc from h]
      exact hsame
    · exact .inl h

/-- Settles O49: a host write resets the encoder or leaves the phase; a command changes it as `exec_phase` lists. -/
theorem phaseChangesOnlyAsListed : Obligations.PhaseChangesOnlyAsListed := by
  intro s t hstep hne
  rcases Laws.step_cases hstep with ⟨a, es, hev, rfl⟩ | ⟨u, i, es, n, _, hcmd, _, _, _, hexec⟩ | ⟨_, es, rfl⟩
  · cases a with
    | read a => exact absurd rfl hne
    | write a v =>
      rcases hostWrite_enc { s with events := es } a v with h | ⟨hctrl, hbit, h⟩
      · exact absurd (encHostWritten_kept h).1 hne
      · exact .inl ⟨congrArg Encoder.phase h, .inr ⟨v, writesNext_ctrl hev hctrl, hbit⟩⟩
  · rcases exec_phase hexec hne with ⟨rfl, hidle⟩ | ⟨rfl, hphase, hload, h1, h2⟩ | ⟨rfl, hphase, hrun⟩
    · exact .inl ⟨hidle, .inl hcmd⟩
    · exact .inr (.inl ⟨hphase, hload, hcmd, h1, h2⟩)
    · exact .inr (.inr ⟨hphase, hrun, hcmd⟩)
  · exact absurd rfl hne

/-- Settles O50: in RUNNING the host's writes leave `SRC` alone, `ENC_CONFIG` is refused, and only a reset would end it. -/
theorem sealedBufferNeverChanges : Obligations.SealedBufferNeverChanges := by
  intro s t hstep hrun hrun'
  rcases Laws.step_cases hstep with ⟨a, es, hev, rfl⟩ | ⟨u, i, es, n, _, _, _, _, _, hexec⟩ | ⟨_, es, rfl⟩
  · cases a with
    | read a => exact ⟨rfl, rfl, rfl, rfl⟩
    | write a v =>
      rcases hostWrite_enc { s with events := es } a v with h | ⟨_, _, h⟩
      · refine ⟨h.2 ?_, (encHostWritten_kept h).2⟩
        show s.enc.phase ≠ .loading
        rw [hrun]
        decide
      · cases hrun'.symm.trans (congrArg Encoder.phase h)
  · by_cases hreset : i = .encReset
    · subst hreset
      obtain rfl := Host.Outcome.next.inj hexec
      cases hrun'
    · by_cases hconfig : i = .encConfig
      · subst hconfig
        rw [Laws.exec_encConfig, encConfigCheck_of_ne_idle (by simp [hrun]), Laws.complete_some] at hexec
        obtain rfl := Host.Outcome.next.inj hexec
        exact ⟨rfl, rfl, rfl, rfl⟩
      · exact exec_enc_buffer (s := { s with events := es, draws := n }) hreset hconfig hexec
  · exact ⟨rfl, rfl, rfl, rfl⟩

end Sys2Proof.Proofs
end

section
/-!
PROOFS. What an accepted droplet does (43_decoder.md R240–R247): its three cases, the bound of the peeling loop, and what
it keeps of the resolved chunks.
-/

namespace Sys2Proof.Proofs

open Sys2Proof Sys2Proof.Machine

/-! ### The three cases of an accepted droplet -/

/-- The decoder with the droplet's header taken in (R242, R240): the parameters learned, the selection recorded. -/
def takeHeader (p : Params) (d : Decoder) : Decoder :=
  { d.learn with mask := (ingestSelection p d).mask, clamped := (ingestSelection p d).clamped, newly := 0 }

/-- The chunks of the droplet that are not resolved yet (R243). -/
def unknownMask (p : Params) (d : Decoder) : Mask := reduceMask d (ingestSelection p d).mask

/-- The droplet's payload with its resolved chunks XORed out (R243). -/
def unknownPayload (p : Params) (d : Decoder) : Memory 8 :=
  reducePayload p d d.inK.toNat (ingestSelection p d).mask d.inBuf

theorem reduceMask_takeHeader (p : Params) (d : Decoder) :
    reduceMask (takeHeader p d) (ingestSelection p d).mask = unknownMask p d := by
  simp only [reduceMask, unknownMask, takeHeader, Laws.learn_known]

theorem reducePayload_takeHeader (p : Params) (d : Decoder) :
    reducePayload p (takeHeader p d) (takeHeader p d).inK.toNat (ingestSelection p d).mask (takeHeader p d).inBuf =
      unknownPayload p d := by
  simp only [reducePayload, unknownPayload, takeHeader, Laws.learn_known, Laws.learn_chunk, Laws.learn_inK,
    Laws.learn_inBuf]

/-- R240: a droplet without unknown chunks is discarded, one with a single unknown is peeled, any other is stored. -/
theorem ingestAccepted_eq (p : Params) (d : Decoder) :
    ingestAccepted p d =
      if popcount p.kMax (unknownMask p d) = 0 then ({ takeHeader p d with outcome := .discarded }, none)
      else if popcount p.kMax (unknownMask p d) = 1 then
        let res := peel p (takeHeader p d) (firstIndex p.kMax (unknownMask p d)) (unknownPayload p d)
        ({ res.1 with newly := BitVec.ofNat 32 res.2.2, outcome := .resolved }, none)
      else pendStore (takeHeader p d) (unknownMask p d) (unknownPayload p d) := by
  rw [← reduceMask_takeHeader, ← reducePayload_takeHeader]
  rfl

theorem ingestAccepted_of_none {p : Params} {d : Decoder} (h : popcount p.kMax (unknownMask p d) = 0) :
    ingestAccepted p d = ({ takeHeader p d with outcome := .discarded }, none) := by
  rw [ingestAccepted_eq, if_pos h]

theorem ingestAccepted_of_one {p : Params} {d : Decoder} (h : popcount p.kMax (unknownMask p d) = 1) :
    ingestAccepted p d =
      let res := peel p (takeHeader p d) (firstIndex p.kMax (unknownMask p d)) (unknownPayload p d)
      ({ res.1 with newly := BitVec.ofNat 32 res.2.2, outcome := .resolved }, none) := by
  rw [ingestAccepted_eq, if_neg (by omega), if_pos h]

theorem ingestAccepted_of_several {p : Params} {d : Decoder} (h : 2 ≤ popcount p.kMax (unknownMask p d)) :
    ingestAccepted p d = pendStore (takeHeader p d) (unknownMask p d) (unknownPayload p d) := by
  rw [ingestAccepted_eq, if_neg (by omega), if_neg (by omega)]

/-- The completion of an accepted droplet: the error of an overflow, if any, and the decoder with its unit freed. -/
theorem exec_decIngest_of_accepted {s : State} (h : headerAccepted s) :
    exec .decIngest s =
      .next (State.raiseIf 0x12 (ingestAccepted s.params s.dec).2
        { s with dec := { (ingestAccepted s.params s.dec).1 with latch := s.dec.latch.idle } }) := by
  have hlatch : (ingestAccepted s.params s.dec).1.latch = s.dec.latch := by
    rw [ingestAccepted_frame]
    exact Laws.learn_latch s.dec
  rw [Laws.exec_decIngest, ingest_of_headerAccepted h, ← hlatch]
  cases (ingestAccepted s.params s.dec).2 <;> rfl

theorem dec_of_accepted {s t : State} (ha : headerAccepted s) (h : exec .decIngest s = .next t) :
    t.dec = { (ingestAccepted s.params s.dec).1 with latch := s.dec.latch.idle } := by
  rw [exec_decIngest_of_accepted ha, raiseIf_eq] at h
  obtain rfl := Host.Outcome.next.inj h
  rfl

/-- What the completion of a `DEC_INGEST` leaves in the decoder, rejected or accepted. -/
theorem exec_decIngest_dec {s t : State} (h : exec .decIngest s = .next t) :
    (ingestCheck s ≠ none ∧ t.dec = { s.dec.reject with latch := s.dec.latch.idle }) ∨
    (headerAccepted s ∧ t.dec = { (ingestAccepted s.params s.dec).1 with latch := s.dec.latch.idle }) := by
  cases hc : ingestCheck s with
  | some e =>
    rw [exec_decIngest_of_ingestCheck hc] at h
    obtain rfl := Host.Outcome.next.inj h
    exact .inl ⟨nofun, rfl⟩
  | none =>
    have ha := (Laws.ingestCheck_eq_none_iff s).1 hc
    exact .inr ⟨ha, dec_of_accepted ha h⟩

/-! ### The peeling loop (R246) -/

/-- Every entry taken either is known or frees the slots whose entries it adds, so a bound of the entries on the worklist
and the valid slots empties it. -/
theorem peelLoop_empties (p : Params) : ∀ (fuel : Nat) (d : Decoder) (w : List WorkItem) (n : Nat),
    w.length + d.pend.countP (·.valid) ≤ fuel → (peelLoop p fuel d w n).2.1 = []
  | 0, _, _, _, h => List.length_eq_zero_iff.1 (Nat.add_eq_zero_iff.1 (Nat.le_zero.1 h)).1
  | _ + 1, _, [], _, _ => rfl
  | fuel + 1, d, (j, v) :: w, n, h => by
    unfold peelLoop
    rw [List.length_cons] at h
    split
    · exact peelLoop_empties p fuel d w n (by omega)
    · refine peelLoop_empties p fuel _ _ _ ?_
      have hfreed := Laws.countP_scanSlots p j v d.pend
      rw [Laws.resolveChunk_eq, List.length_append]
      dsimp only
      omega

/-- Settles O52: the worklist starts with one entry, and the valid slots are some of the slots. -/
theorem peelingEmptiesTheWorklist : Obligations.PeelingEmptiesTheWorklist := by
  intro p d j v
  refine peelLoop_empties p _ d _ 0 ?_
  have hvalid : d.pend.countP (·.valid) ≤ d.pend.length := List.countP_le_length
  rw [List.length_singleton]
  omega

theorem peelLoop_known (p : Params) (fuel : Nat) {d : Decoder} (w : List WorkItem) (n : Nat) {i : Nat}
    (h : d.known.testBit i = true) : (peelLoop p fuel d w n).1.known.testBit i = true := by
  refine Laws.peelLoop_induct p (fun d' _ _ => d'.known.testBit i = true) (fun _ _ _ _ _ h _ => h) ?_ fuel d w n h
  intro d' j v w n h _
  simp [Laws.resolveChunk_eq, h]

/-- The chunk peeling starts from is resolved at its end. -/
theorem peel_known_start (p : Params) (d : Decoder) (j : Nat) (v : Memory 8) :
    (peel p d j v).1.known.testBit j = true := by
  unfold peel peelLoop
  split
  case isTrue h => exact peelLoop_known p _ _ _ h
  case isFalse => exact peelLoop_known p _ _ _ (by simp [Laws.resolveChunk_eq])

/-! ### What an accepted droplet keeps -/

theorem pendStore_keeps (d : Decoder) (m : Mask) (pay : Memory 8) :
    (pendStore d m pay).1.known = d.known ∧ (pendStore d m pay).1.chunk = d.chunk := by
  rcases Laws.pendStore_cases d m pay with ⟨e, _, h⟩ | ⟨e, _, _, h⟩ | ⟨_, _, h⟩ <;> rw [h] <;> exact ⟨rfl, rfl⟩

/-- An accepted droplet keeps resolved chunks resolved. -/
theorem ingestAccepted_known (p : Params) {d : Decoder} {i : Nat} (h : d.known.testBit i = true) :
    (ingestAccepted p d).1.known.testBit i = true := by
  have htaken : (takeHeader p d).known.testBit i = true := by rwa [takeHeader, Laws.learn_known]
  rw [ingestAccepted_eq]
  split
  · exact htaken
  · split
    · exact peelLoop_known p _ _ _ htaken
    · rwa [(pendStore_keeps _ _ _).1]

/-- An accepted droplet keeps the bytes of resolved chunks. -/
theorem ingestAccepted_chunkByte {p : Params} {d : Decoder} (hwf : d.chunk.wf) {i b : Nat}
    (h : d.known.testBit i = true) (hb : b < p.chunkSize) :
    chunkByte p (ingestAccepted p d).1.chunk i b = chunkByte p d.chunk i b := by
  have hchunk : (takeHeader p d).chunk = d.chunk := Laws.learn_chunk d
  have hknown : (takeHeader p d).known = d.known := Laws.learn_known d
  rw [ingestAccepted_eq]
  split
  · exact congrArg (chunkByte p · i b) hchunk
  · split
    · have hkeeps := Laws.peelLoop_keeps p ((takeHeader p d).pend.length + 1) (takeHeader p d) (hchunk ▸ hwf)
        [(firstIndex p.kMax (unknownMask p d), unknownPayload p d)] 0
      rw [← hchunk]
      exact (hkeeps.2 i (hknown ▸ h)).2 b hb
    · rw [(pendStore_keeps _ _ _).2, hchunk]

/-- Settles O53: the chunk was resolved before and stays so, or it is the one unknown of the droplet and is peeled. -/
theorem degreeOneDropletResolvesItsChunk : Obligations.DegreeOneDropletResolvesItsChunk := by
  intro s i ha hmask
  refine ⟨_, exec_decIngest_of_accepted ha, ?_⟩
  rw [raiseIf_eq]
  show (ingestAccepted s.params s.dec).1.known.testBit i = true
  cases hk : s.dec.known.testBit i with
  | true => exact ingestAccepted_known s.params hk
  | false =>
    have hi : i < s.params.kMax := by
      have hlt : (ingestSelection s.params s.dec).mask < 2 ^ s.dec.inK.toNat := Laws.degreeFunction_mask_lt _ _ _ _
      rw [hmask] at hlt
      exact (Laws.lt_of_testBit hlt Nat.testBit_two_pow_self).trans_le ha.2.1
    have hbit : (unknownMask s.params s.dec).testBit i = true := by
      rw [unknownMask, reduceMask, Laws.testBit_without, hmask, Nat.testBit_two_pow_self, hk]
      rfl
    have hone : popcount s.params.kMax (unknownMask s.params s.dec) = 1 := by
      refine Laws.popcount_eq_one hi hbit fun i' hi' => ?_
      rw [unknownMask, reduceMask, Laws.testBit_without, hmask, Nat.testBit_two_pow, Bool.and_eq_true,
        decide_eq_true_iff] at hi'
      exact hi'.1.symm
    rw [ingestAccepted_of_one hone, ← Laws.eq_firstIndex_of_popcount_one hone hi hbit]
    exact peel_known_start _ _ _ _

/-! ### Only a decoder reset forgets (R49, R60, R249) -/

/-- The decoder `d'` knows at least what `d` knows, with the same bytes, and is no less complete. -/
def remembers (p : Params) (d d' : Decoder) : Prop :=
  (∀ i, d.known.testBit i = true → d'.known.testBit i = true ∧
    ∀ b, b < p.chunkSize → chunkByte p d'.chunk i b = chunkByte p d.chunk i b) ∧
  d.resolved.toNat ≤ d'.resolved.toNat ∧ (d.complete = true → d'.complete = true)

/-- A decoder with the same progress remembers. -/
theorem remembers_of_sameProgress (p : Params) {d d' : Decoder} (hknown : d'.known = d.known) (hchunk : d'.chunk = d.chunk)
    (hresolved : d'.resolved = d.resolved) (hset : d'.paramsSet = d.paramsSet) (hk : d'.k = d.k) :
    remembers p d d' := by
  have hcomplete : d'.complete = d.complete := by simp only [Decoder.complete, hset, hresolved, hk]
  rw [remembers, hknown, hchunk, hresolved, hcomplete]
  exact ⟨fun i hi => ⟨hi, fun _ _ => rfl⟩, le_rfl, id⟩

theorem remembers_refl (p : Params) (d : Decoder) : remembers p d d := remembers_of_sameProgress p rfl rfl rfl rfl rfl

theorem complete_iff {d : Decoder} : d.complete = true ↔ d.paramsSet = true ∧ d.resolved = d.k := by
  rw [Decoder.complete, Bool.and_eq_true, beq_iff_eq]

theorem popcount_mono {n : Nat} {m m' : Mask} (h : ∀ i, m.testBit i = true → m'.testBit i = true) :
    popcount n m ≤ popcount n m' := List.countP_mono_left fun i _ => h i

/-- A decoder learns parameters once: after an accepted header they are the header's (R242). -/
theorem learn_of_accepted {s : State} (h : headerAccepted s) :
    s.dec.learn.k = s.dec.inK ∧ s.dec.learn.pad = s.dec.inPad := by
  obtain ⟨_, _, _, hsame, _⟩ := h
  rw [Laws.learn_k, Laws.learn_pad]
  cases hset : s.dec.paramsSet with
  | false => exact ⟨rfl, rfl⟩
  | true => exact ⟨(hsame hset).1.symm, (hsame hset).2.symm⟩

/-- An accepted droplet only adds to the transfer. -/
theorem ingestAccepted_remembers {s : State} (h : s.Inv) (ha : headerAccepted s) :
    remembers s.params s.dec (ingestAccepted s.params s.dec).1 := by
  obtain ⟨hp, _, _, hdec⟩ := h
  obtain ⟨_, _, _, ⟨_, hcount', hle'⟩, _⟩ := Laws.decInv_ingestAccepted hp hdec ha
  obtain ⟨_, _, _, ⟨_, hcount, _⟩, _, _, _, hchunk, _⟩ := hdec
  have hresolved : s.dec.resolved.toNat ≤ (ingestAccepted s.params s.dec).1.resolved.toNat := by
    rw [hcount, hcount']
    exact popcount_mono fun i hi => ingestAccepted_known s.params hi
  refine ⟨fun i hi => ⟨ingestAccepted_known s.params hi, fun b hb => ingestAccepted_chunkByte hchunk.1 hi hb⟩,
    hresolved, fun hcomplete => ?_⟩
  obtain ⟨hset, hk⟩ := complete_iff.1 hcomplete
  have hset' : (ingestAccepted s.params s.dec).1.paramsSet = true := by
    rw [ingestAccepted_frame]
    exact Laws.learn_paramsSet s.dec
  have hk' : (ingestAccepted s.params s.dec).1.k = s.dec.k := by
    rw [ingestAccepted_frame]
    exact (Laws.learn_k s.dec).trans (if_pos hset)
  rw [hk] at hresolved
  rw [hk'] at hle'
  exact complete_iff.2 ⟨hset', (BitVec.eq_of_toNat_eq (le_antisymm hle' hresolved)).trans hk'.symm⟩

/-- A command other than `DEC_RESET` forgets nothing. -/
theorem exec_remembers {i : Instr} {s t : State} (h : s.Inv) (hi : i ≠ .decReset) (ht : exec i s = .next t) :
    remembers s.params s.dec t.dec := by
  cases hu : i.unit with
  | enc =>
    rw [exec_enc_dec hu ht]
    exact remembers_refl _ _
  | dec =>
    cases i
    case decReset => exact absurd rfl hi
    case decIngest =>
      rcases exec_decIngest_dec ht with ⟨_, hdec⟩ | ⟨ha, hdec⟩ <;> rw [hdec]
      · exact remembers_of_sameProgress _ rfl rfl rfl rfl rfl
      · exact ingestAccepted_remembers h ha
    case decRecon | decReadOut | decReadChunk | decDegq | decReadPend =>
      obtain rfl := Host.Outcome.next.inj ht
      rcases Laws.complete_cases s _ _ _ _ with ⟨e, _, heq⟩ | ⟨_, heq⟩ <;> rw [heq]
      · exact remembers_of_sameProgress _ rfl rfl rfl rfl rfl
      · exact remembers_of_sameProgress _ rfl rfl rfl rfl rfl
    all_goals cases hu

/-- A host write forgets nothing, or it is a write of 1 to `CTRL.DEC_SRST`. -/
theorem hostWrite_remembers (s : State) (a v : Word) :
    remembers s.params s.dec (hostWrite s a v).dec ∨ (locOf s.params a = .reg .ctrl ∧ v.getLsbD 1 = true) := by
  by_cases hctrl : locOf s.params a = .reg .ctrl
  · cases hbit : v.getLsbD 1 with
    | true => exact .inr ⟨hctrl, rfl⟩
    | false =>
      rw [hostWrite_ctrl s v hctrl, writeCtrl_eq, hbit]
      exact .inl (remembers_refl _ _)
  · left
    rcases writeLoc_dec s v hctrl with h | ⟨_, h⟩ <;> rw [hostWrite, h]
    · exact remembers_refl _ _
    · exact remembers_of_sameProgress _ rfl rfl rfl rfl rfl

/-- Settles O48: a step that does not reset the decoder leaves one that remembers, which excludes each way to forget. -/
theorem onlyResetsForgetResolvedChunks : Obligations.OnlyResetsForgetResolvedChunks := by
  intro s t h hstep hforgets
  have hnot : ¬ remembers s.params s.dec t.dec := by
    rintro ⟨hknown, hresolved, hcomplete⟩
    rcases hforgets with ⟨i, hi, hi'⟩ | ⟨i, b, hi, hb, hne⟩ | hlt | ⟨hc, hc'⟩
    · exact absurd ((hknown i hi).1.symm.trans hi') (by decide)
    · exact hne ((hknown i hi).2 b hb)
    · exact absurd hresolved (Nat.not_le.2 hlt)
    · exact absurd ((hcomplete hc).symm.trans hc') (by decide)
  rcases Laws.step_cases hstep with ⟨a, es, hev, rfl⟩ | ⟨u, i, es, n, _, hcmd, _, _, _, hexec⟩ | ⟨_, es, rfl⟩
  · cases a with
    | read a => exact absurd (remembers_refl _ _) hnot
    | write a v =>
      rcases hostWrite_remembers { s with events := es } a v with hkeeps | ⟨hctrl, hbit⟩
      · exact absurd hkeeps hnot
      · exact .inr ⟨v, writesNext_ctrl hev hctrl, hbit⟩
  · by_cases hreset : i = .decReset
    · exact .inl (hreset ▸ hcmd)
    · exact absurd (exec_remembers (s := { s with events := es, draws := n }) h hreset hexec) hnot
  · exact absurd (remembers_refl _ _) hnot

end Sys2Proof.Proofs
end

section
/-!
PROOFS. A droplet that is stored or dropped, and a droplet ingested twice (43_decoder.md R245, R255).
-/

namespace Sys2Proof.Proofs

open Sys2Proof Sys2Proof.Machine

/-! ### An accepted header (R242) -/

theorem learn_eq (d : Decoder) : d.learn = { d with k := d.learn.k, pad := d.learn.pad, paramsSet := true } := by
  rcases d with ⟨latch, paramsSet⟩
  cases paramsSet <;> rfl

theorem takeHeader_of_accepted {s : State} (h : headerAccepted s) :
    takeHeader s.params s.dec =
      { s.dec with
        k := s.dec.inK, pad := s.dec.inPad, paramsSet := true, mask := (ingestSelection s.params s.dec).mask,
        clamped := (ingestSelection s.params s.dec).clamped, newly := 0 } := by
  obtain ⟨hk, hpad⟩ := learn_of_accepted h
  rw [takeHeader, learn_eq, hk, hpad]

@[simp] theorem takeHeader_pend (p : Params) (d : Decoder) : (takeHeader p d).pend = d.pend := Laws.learn_pend d
@[simp] theorem takeHeader_pendCount (p : Params) (d : Decoder) : (takeHeader p d).pendCount = d.pendCount :=
  Laws.learn_pendCount d
@[simp] theorem takeHeader_known (p : Params) (d : Decoder) : (takeHeader p d).known = d.known := Laws.learn_known d
@[simp] theorem takeHeader_chunk (p : Params) (d : Decoder) : (takeHeader p d).chunk = d.chunk := Laws.learn_chunk d

/-! ### Where a droplet is stored (R245) -/

/-- The lowest-numbered slot with a property, slot by slot. -/
theorem findIdx?_eq_some_iff_slot {l : List Slot} {q : Slot → Bool} {e : Nat} :
    l.findIdx? q = some e ↔
      (∃ sl, l[e]? = some sl ∧ q sl = true) ∧ ∀ e' sl', e' < e → l[e']? = some sl' → ¬ q sl' = true := by
  rw [List.findIdx?_eq_some_iff_getElem]
  constructor
  · rintro ⟨hlt, hq, hbefore⟩
    refine ⟨⟨_, List.getElem?_eq_getElem hlt, hq⟩, fun e' sl' he' hsl' => ?_⟩
    rw [List.getElem?_eq_getElem (he'.trans hlt)] at hsl'
    exact Option.some.inj hsl' ▸ hbefore e' he'
  · rintro ⟨⟨sl, hsl, hq⟩, hbefore⟩
    obtain ⟨hlt, rfl⟩ := List.getElem?_eq_some_iff.1 hsl
    exact ⟨hlt, hq, fun e' he' => hbefore e' _ he' (List.getElem?_eq_getElem _)⟩

theorem findSameMask_eq_some_iff {d : Decoder} {m : Mask} {e : Nat} :
    findSameMask d m = some e ↔
      (∃ sl, d.pend[e]? = some sl ∧ sl.valid = true ∧ sl.mask = m) ∧
        ∀ e' sl', e' < e → d.pend[e']? = some sl' → ¬ (sl'.valid = true ∧ sl'.mask = m) := by
  simp only [findSameMask, findIdx?_eq_some_iff_slot, Bool.and_eq_true, beq_iff_eq]

theorem findSameMask_eq_none_iff {d : Decoder} {m : Mask} :
    findSameMask d m = none ↔ ∀ sl ∈ d.pend, ¬ (sl.valid = true ∧ sl.mask = m) := by
  simp [findSameMask]

theorem findFree_eq_some_iff {d : Decoder} {e : Nat} :
    findFree d = some e ↔
      (∃ sl, d.pend[e]? = some sl ∧ sl.valid = false) ∧
        ∀ e' sl', e' < e → d.pend[e']? = some sl' → sl'.valid = true := by
  simp only [findFree, findIdx?_eq_some_iff_slot, Bool.not_eq_true', Bool.not_eq_false]

theorem findFree_eq_none_iff {d : Decoder} : findFree d = none ↔ ∀ sl ∈ d.pend, sl.valid = true := by
  simp [findFree]

/-- Replacing the payload of the slot with this mask writes the droplet into the slot. -/
theorem modify_pay_eq_set {l : List Slot} {e : Nat} {sl : Slot} {m : Mask} (pay : Memory 8) (hsl : l[e]? = some sl)
    (hvalid : sl.valid = true) (hmask : sl.mask = m) :
    l.modify e (fun sl => { sl with pay := pay }) = l.set e { valid := true, mask := m, pay := pay } := by
  obtain ⟨hlt, rfl⟩ := List.getElem?_eq_some_iff.1 hsl
  rw [List.modify_eq_set_getElem?, hsl, ← hmask, ← hvalid]
  rfl

/-- Settles O25: the three ways to store a droplet are those of `PEND_STORE`, found slot by slot. -/
theorem acceptedDropletIsStoredOrDropped : Obligations.AcceptedDropletIsStoredOrDropped := by
  intro s ha r m pay d
  have htaken := takeHeader_of_accepted ha
  have hpend := takeHeader_pend s.params s.dec
  refine ⟨fun hnone => ?_, fun e sl hm hsl hvalid hmask hbefore => ?_, fun e sl hm hsame hsl hfree hbefore => ?_,
    fun hm hfull => ?_⟩
  · rw [exec_decIngest_of_accepted ha, ingestAccepted_of_none hnone, htaken]
    rfl
  · have hfound : findSameMask (takeHeader s.params s.dec) (unknownMask s.params s.dec) = some e := by
      rw [findSameMask_eq_some_iff, hpend]
      exact ⟨⟨sl, hsl, hvalid, hmask⟩, hbefore⟩
    rw [exec_decIngest_of_accepted ha, ingestAccepted_of_several hm, pendStore, hfound]
    dsimp only
    rw [hpend, modify_pay_eq_set _ hsl hvalid hmask, htaken]
    rfl
  · have hnone : findSameMask (takeHeader s.params s.dec) (unknownMask s.params s.dec) = none := by
      rw [findSameMask_eq_none_iff, hpend]
      exact hsame
    have hfound : findFree (takeHeader s.params s.dec) = some e := by
      rw [findFree_eq_some_iff, hpend]
      exact ⟨⟨sl, hsl, hfree⟩, hbefore⟩
    rw [exec_decIngest_of_accepted ha, ingestAccepted_of_several hm, pendStore, hnone, hfound, htaken]
    rfl
  · have hnone : findSameMask (takeHeader s.params s.dec) (unknownMask s.params s.dec) = none := by
      rw [findSameMask_eq_none_iff, hpend]
      exact fun sl hsl h => (hfull sl hsl).2 h.2
    have hnofree : findFree (takeHeader s.params s.dec) = none := by
      rw [findFree_eq_none_iff, hpend]
      exact fun sl hsl => (hfull sl hsl).1
    rw [exec_decIngest_of_accepted ha, ingestAccepted_of_several hm, pendStore, hnone, hnofree, htaken]
    rfl

end Sys2Proof.Proofs
end

section
/-!
PROOFS. A droplet ingested twice in a row (43_decoder.md R255 item 2).
-/

namespace Sys2Proof.Proofs

open Sys2Proof Sys2Proof.Machine

/-- What an accepted droplet leaves of what `CHECK` and the selection read: the header and the configuration as they were,
and the header's parameters learned. -/
theorem header_after_ingest {s t : State} (ha : headerAccepted s) (h : exec .decIngest s = .next t) :
    t.params = s.params ∧ headerAccepted t ∧
      ingestSelection t.params t.dec = ingestSelection s.params s.dec ∧
      takeHeader t.params t.dec = { t.dec with newly := 0 } := by
  have hparams := (exec_inputs h).1
  have hdec := dec_of_accepted ha h
  obtain ⟨hk, hpad⟩ := learn_of_accepted ha
  rw [ingestAccepted_frame, learn_eq, hk, hpad] at hdec
  have hsel : ingestSelection t.params t.dec = ingestSelection s.params s.dec := by rw [hdec, hparams]; rfl
  have ha' : headerAccepted t := by
    obtain ⟨h1, h2, h3, _, h5⟩ := ha
    unfold headerAccepted
    rw [hdec, hparams]
    exact ⟨h1, h2, h3, fun _ => ⟨rfl, rfl⟩, h5⟩
  refine ⟨hparams, ha', hsel, ?_⟩
  rw [takeHeader_of_accepted ha', hsel, hdec]

/-! ### Storing a droplet that is stored already -/

/-- A droplet written into slot `e` stands in the lowest slot with its mask, if no slot before `e` has it. -/
theorem findSameMask_of_set {d d' : Decoder} {m : Mask} {pay : Memory 8} {e : Nat} (hlt : e < d.pend.length)
    (hbefore : ∀ e' sl', e' < e → d.pend[e']? = some sl' → ¬ (sl'.valid = true ∧ sl'.mask = m))
    (hd' : d'.pend = d.pend.set e { valid := true, mask := m, pay := pay }) :
    findSameMask d' m = some e ∧ d'.pend[e]? = some { valid := true, mask := m, pay := pay } := by
  have hslot : d'.pend[e]? = some { valid := true, mask := m, pay := pay } := by
    rw [hd', List.getElem?_set_self hlt]
  refine ⟨findSameMask_eq_some_iff.2 ⟨⟨_, hslot, rfl, rfl⟩, fun e' sl' he' hsl' => ?_⟩, hslot⟩
  rw [hd', List.getElem?_set_ne (by omega)] at hsl'
  exact hbefore e' sl' he' hsl'

/-- A stored droplet stands in the lowest slot with its mask, which its outcome names. -/
theorem pendStore_stored {d : Decoder} {m : Mask} {pay : Memory 8} (h : (pendStore d m pay).2 = none) :
    ∃ e, (findSameMask (pendStore d m pay).1 m = some e ∧
      (pendStore d m pay).1.pend[e]? = some { valid := true, mask := m, pay := pay }) ∧
      ((pendStore d m pay).1.outcome = .replaced (BitVec.ofNat 16 e) ∨
        (pendStore d m pay).1.outcome = .pending (BitVec.ofNat 16 e)) := by
  rcases Laws.pendStore_cases d m pay with ⟨e, hfound, heq⟩ | ⟨e, hnone, hfree, heq⟩ | ⟨_, _, heq⟩
  · obtain ⟨⟨sl, hsl, hvalid, hmask⟩, hbefore⟩ := findSameMask_eq_some_iff.1 hfound
    have hlt := (List.getElem?_eq_some_iff.1 hsl).1
    rw [heq]
    exact ⟨e, findSameMask_of_set hlt hbefore (modify_pay_eq_set pay hsl hvalid hmask), .inl rfl⟩
  · obtain ⟨⟨sl, hsl, _⟩, _⟩ := findFree_eq_some_iff.1 hfree
    have hlt := (List.getElem?_eq_some_iff.1 hsl).1
    have hothers := findSameMask_eq_none_iff.1 hnone
    rw [heq]
    exact ⟨e, findSameMask_of_set hlt (fun e' sl' _ hsl' => hothers sl' (List.mem_of_getElem? hsl')) rfl, .inr rfl⟩
  · rw [heq] at h
    cases h

theorem pendStore_again {d : Decoder} {m : Mask} {pay : Memory 8} {e : Nat} (hfound : findSameMask d m = some e)
    (hslot : d.pend[e]? = some { valid := true, mask := m, pay := pay }) :
    pendStore d m pay = ({ d with outcome := .replaced (BitVec.ofNat 16 e) }, none) := by
  have hsame : d.pend.modify e (fun sl => { sl with pay := pay }) = d.pend := by
    obtain ⟨hlt, hget⟩ := List.getElem?_eq_some_iff.1 hslot
    rw [modify_pay_eq_set pay hslot rfl rfl, ← hget, List.set_getElem_self]
  rw [pendStore, hfound]
  dsimp only
  rw [hsame]

/-- A droplet that found no slot finds none again. -/
theorem pendStore_dropped {d : Decoder} {m : Mask} {pay : Memory 8} (h : (pendStore d m pay).2 ≠ none) :
    findSameMask d m = none ∧ findFree d = none ∧
      pendStore d m pay = ({ d with outcome := .dropped }, some .pendingOverflow) := by
  rcases Laws.pendStore_cases d m pay with ⟨e, _, heq⟩ | ⟨e, _, _, heq⟩ | hdropped
  · exact absurd (by rw [heq]) h
  · exact absurd (by rw [heq]) h
  · exact hdropped

/-! ### The second ingest -/

/-- The outcome of a droplet that is ingested again, by the outcome of the first time (R255 item 2). -/
def repeatOutcome : IngestOutcome → IngestOutcome
  | .pending e | .replaced e => .replaced e
  | .dropped => .dropped
  | _ => .discarded

/-- What is unknown of an accepted droplet afterwards: nothing, unless it had two or more unknown chunks. -/
theorem unknownMask_after_ingest {p : Params} {d : Decoder} (h : ¬ 2 ≤ popcount p.kMax (unknownMask p d)) :
    popcount p.kMax (Mask.without (ingestSelection p d).mask (ingestAccepted p d).1.known) = 0 := by
  rw [Laws.popcount_eq_zero_iff]
  intro i hi
  rw [Laws.testBit_without, Bool.and_eq_false_iff, Bool.not_eq_false', or_iff_not_imp_left, Bool.not_eq_false]
  intro hsel
  cases hk : d.known.testBit i with
  | true => exact ingestAccepted_known p hk
  | false =>
    have hbit : (unknownMask p d).testBit i = true := by
      rw [unknownMask, reduceMask, Laws.testBit_without, hsel, hk]
      rfl
    have hone : popcount p.kMax (unknownMask p d) = 1 := by
      have := Laws.popcount_clear hi hbit
      omega
    rw [ingestAccepted_of_one hone, ← Laws.eq_firstIndex_of_popcount_one hone hi hbit]
    exact peel_known_start _ _ _ _

theorem ingestAccepted_outcome_of_few {p : Params} {d : Decoder} (h : ¬ 2 ≤ popcount p.kMax (unknownMask p d)) :
    repeatOutcome (ingestAccepted p d).1.outcome = .discarded := by
  rw [ingestAccepted_eq]
  split
  · rfl
  · rw [if_pos (by omega)]
    rfl

/-- A droplet with several unknown chunks has the same ones afterwards, and the same payload for them. -/
theorem unknown_after_store {s t : State} (ha : headerAccepted s) (h : exec .decIngest s = .next t)
    (hknown : t.dec.known = s.dec.known) (hchunk : t.dec.chunk = s.dec.chunk) :
    unknownMask t.params t.dec = unknownMask s.params s.dec ∧
      unknownPayload t.params t.dec = unknownPayload s.params s.dec := by
  obtain ⟨hp, _, hsel, htake⟩ := header_after_ingest ha h
  have hin : t.dec.inK = s.dec.inK ∧ t.dec.inBuf = s.dec.inBuf := by
    rw [dec_of_accepted ha h]
    dsimp only
    rw [ingestAccepted_frame]
    exact ⟨Laws.learn_inK s.dec, Laws.learn_inBuf s.dec⟩
  rw [hp] at hsel
  simp only [unknownMask, unknownPayload, reduceMask, reducePayload, hsel, hknown, hchunk, hin, hp, and_self]

/-- R255 item 2: the second ingest of an accepted droplet writes its outcome and `DEC_NEWLY`, and no more. -/
theorem ingestAccepted_again {s t : State} (ha : headerAccepted s) (h : exec .decIngest s = .next t) :
    (ingestAccepted t.params t.dec).1 = { t.dec with newly := 0, outcome := repeatOutcome t.dec.outcome } := by
  obtain ⟨hp, _, hsel, htake⟩ := header_after_ingest ha h
  have hdec := dec_of_accepted ha h
  by_cases hm : 2 ≤ popcount s.params.kMax (unknownMask s.params s.dec)
  case neg =>
    have hnone : popcount t.params.kMax (unknownMask t.params t.dec) = 0 := by
      rw [unknownMask, reduceMask, hsel, hp, hdec]
      exact unknownMask_after_ingest hm
    have houtcome : repeatOutcome t.dec.outcome = .discarded := by
      rw [hdec]
      exact ingestAccepted_outcome_of_few hm
    rw [ingestAccepted_of_none hnone, htake, houtcome]
  case pos =>
    have hstore := ingestAccepted_of_several hm
    rw [hstore] at hdec
    obtain ⟨hknown, hchunk⟩ := pendStore_keeps (takeHeader s.params s.dec) (unknownMask s.params s.dec)
      (unknownPayload s.params s.dec)
    rw [takeHeader_known] at hknown
    rw [takeHeader_chunk] at hchunk
    obtain ⟨hmask, hpay⟩ := unknown_after_store ha h (by rw [hdec]; exact hknown) (by rw [hdec]; exact hchunk)
    rw [ingestAccepted_of_several (by rw [hmask, hp]; exact hm), hmask, hpay, htake]
    by_cases herr : (pendStore (takeHeader s.params s.dec) (unknownMask s.params s.dec)
        (unknownPayload s.params s.dec)).2 = none
    · obtain ⟨e, ⟨hfound, hslot⟩, houtcome⟩ := pendStore_stored herr
      have hrepeat : repeatOutcome t.dec.outcome = .replaced (BitVec.ofNat 16 e) := by
        rw [hdec]
        dsimp only
        rcases houtcome with houtcome | houtcome <;> rw [houtcome] <;> rfl
      rw [hrepeat, pendStore_again (e := e)]
      · rw [hdec]
        exact hfound
      · rw [hdec]
        exact hslot
    · obtain ⟨hnone, hnofree, heq⟩ := pendStore_dropped herr
      rw [heq] at hdec
      have hrepeat : repeatOutcome t.dec.outcome = .dropped := by rw [hdec]; rfl
      have hnone' : findSameMask { t.dec with newly := 0 } (unknownMask s.params s.dec) = none := by
        rw [hdec]
        exact hnone
      have hnofree' : findFree { t.dec with newly := 0 } = none := by
        rw [hdec]
        exact hnofree
      rw [hrepeat, pendStore, hnone', hnofree']

/-- Settles O55: the decoder after the second ingest, with each outcome of the first. -/
theorem immediateDuplicateChangesNothing : Obligations.ImmediateDuplicateChangesNothing := by
  intro s t u _ ha ht hu
  obtain ⟨_, ha', _⟩ := header_after_ingest ha ht
  have hdec : u.dec =
      { t.dec with newly := 0, outcome := repeatOutcome t.dec.outcome, latch := t.dec.latch.idle } := by
    rw [dec_of_accepted ha' hu, ingestAccepted_again ha ht]
  have houtcome : u.dec.outcome = repeatOutcome t.dec.outcome := by rw [hdec]
  rw [houtcome]
  refine ⟨?_, ?_, ?_, ?_, ?_, ?_, fun h => ?_, fun e h => ?_, fun h => ?_⟩
  iterate 6 rw [hdec]
  · rcases h with h | h <;> rw [h] <;> rfl
  · rcases h with h | h <;> rw [h] <;> rfl
  · rw [h]
    rfl

end Sys2Proof.Proofs
end

section
/-!
PROOFS. A droplet with one unknown chunk: the propagation and what it leaves (43_decoder.md R246, R247, R255 item 5).
-/

namespace Sys2Proof.Proofs

open Sys2Proof Sys2Proof.Machine

/-! ### What the peeling loop counts -/

/-- Every resolved chunk is one more in `DEC_RESOLVED`. -/
theorem peelLoop_resolved (p : Params) (fuel : Nat) (d : Decoder) (w : List WorkItem) :
    (peelLoop p fuel d w 0).1.resolved = d.resolved + BitVec.ofNat 32 (peelLoop p fuel d w 0).2.2 := by
  refine Laws.peelLoop_induct p (fun d' _ n => d'.resolved = d.resolved + BitVec.ofNat 32 n) (fun _ _ _ _ _ h _ => h) ?_
    fuel d w 0 (BitVec.add_zero _).symm
  intro d' j v w n h _
  rw [Laws.resolveChunk_eq]
  dsimp only
  rw [h, BitVec.ofNat_add, BitVec.add_assoc]
  rfl

/-- Every chunk resolved after the first took a valid slot (R247). -/
theorem peelLoop_count (p : Params) (fuel : Nat) (d : Decoder) (w : List WorkItem) :
    (peelLoop p fuel d w 0).2.2 + (peelLoop p fuel d w 0).1.pend.countP (·.valid) ≤
      w.length + d.pend.countP (·.valid) := by
  have hkept := Laws.peelLoop_induct p
    (fun d' w' n => n + w'.length + d'.pend.countP (·.valid) ≤ w.length + d.pend.countP (·.valid))
    (fun _ _ _ _ _ h _ => by rw [List.length_cons] at h; omega) ?_ fuel d w 0 (by omega)
  · omega
  · intro d' j v w' n h _
    have hfreed := Laws.countP_scanSlots p j v d'.pend
    rw [Laws.resolveChunk_eq, List.length_append]
    rw [List.length_cons] at h
    dsimp only
    omega

/-! ### The propagation of an accepted droplet -/

/-- A slot of a sound decoder that is valid: two unknown chunks at least, within the build's chunks. -/
theorem slotOpen_of_inv {p : Params} {d : Decoder} (h : d.Inv p) (hset : d.paramsSet = true) :
    ∀ sl ∈ d.pend, sl.valid = true → 2 ≤ popcount p.kMax sl.mask ∧ sl.mask &&& d.known = 0 ∧ sl.mask < 2 ^ p.kMax := by
  obtain ⟨_, _, hlegal, _, hopen, _⟩ := h
  obtain ⟨_, hk, _⟩ := hlegal hset
  intro sl hsl hvalid
  obtain ⟨h2, hdisjoint, hlt⟩ := hopen sl hsl hvalid
  exact ⟨h2, hdisjoint, mask_lt_of_le hlt hk⟩

theorem takeHeader_inv {s : State} (h : s.Inv) (ha : headerAccepted s) :
    (takeHeader s.params s.dec).Inv s.params := by
  obtain ⟨⟨hlatch, hfresh, hlegal, hknown, hopen, hcount, _, hrams⟩, _⟩ := Laws.decInv_learn h.2.2.2 ha
  exact ⟨hlatch, hfresh, hlegal, hknown, hopen, hcount,
    mask_lt_of_le (Laws.degreeFunction_mask_lt _ _ _ _) ha.2.1, hrams⟩

theorem unknownMask_lt (s : State) : unknownMask s.params s.dec < 2 ^ s.dec.inK.toNat :=
  Laws.without_lt (Laws.degreeFunction_mask_lt _ _ _ _)

theorem testBit_unknownMask (p : Params) (d : Decoder) (i : Nat) :
    (unknownMask p d).testBit i = ((ingestSelection p d).mask.testBit i && !d.known.testBit i) :=
  Laws.testBit_without _ _ _

/-- R246: peeling an accepted droplet's one unknown chunk propagates until the worklist is empty. -/
theorem peel_propagates {s : State} (h : s.Inv) (ha : headerAccepted s)
    (hone : popcount s.params.kMax (unknownMask s.params s.dec) = 1) :
    let j := firstIndex s.params.kMax (unknownMask s.params s.dec)
    let res := peel s.params (takeHeader s.params s.dec) j (unknownPayload s.params s.dec)
    ∃ order : List Nat, order.length = res.2.2 ∧
      Laws.Propagation s.params (takeHeader s.params s.dec) j (unknownPayload s.params s.dec) res.1 [] order := by
  intro j res
  have hinv := takeHeader_inv h ha
  obtain ⟨_, _, _, _, _, _, _, hchunk, _⟩ := takeHeader_inv h ha
  obtain ⟨_, hbit⟩ := Laws.firstIndex_spec (n := s.params.kMax) (m := unknownMask s.params s.dec) (by omega)
  have hj : (takeHeader s.params s.dec).known.testBit j = false := by
    rw [testBit_unknownMask, Bool.and_eq_true, Bool.not_eq_true'] at hbit
    rw [takeHeader_known]
    exact hbit.2
  obtain ⟨order, hlen, hprop⟩ := Laws.peelLoop_propagates hchunk.1
    (slotOpen_of_inv hinv (Laws.learn_paramsSet s.dec)) hj (unknownPayload s.params s.dec)
    ((takeHeader s.params s.dec).pend.length + 1)
  have hempty : res.2.1 = [] := peelingEmptiesTheWorklist _ _ _ _
  exact ⟨order, hlen, hempty ▸ hprop⟩

/-- The counters of the transfer after such a droplet: `DEC_NEWLY` counts the chunks resolved, `DEC_RESOLVED` rises by
them, and each but the first freed a slot. -/
theorem counts_after_peel {s : State} (h : s.Inv) (ha : headerAccepted s)
    (hone : popcount s.params.kMax (unknownMask s.params s.dec) = 1) :
    let d := (ingestAccepted s.params s.dec).1
    let n := (peel s.params (takeHeader s.params s.dec) (firstIndex s.params.kMax (unknownMask s.params s.dec))
      (unknownPayload s.params s.dec)).2.2
    d.newly.toNat = n ∧ d.resolved.toNat = s.dec.resolved.toNat + n ∧
      d.pendCount.toNat = d.pend.countP (·.valid) ∧ n + d.pendCount.toNat ≤ s.dec.pendCount.toNat + 1 := by
  intro d n
  obtain ⟨hp, _, _, hdec⟩ := h
  have hd : d = { (peel s.params (takeHeader s.params s.dec) (firstIndex s.params.kMax (unknownMask s.params s.dec))
      (unknownPayload s.params s.dec)).1 with newly := BitVec.ofNat 32 n, outcome := .resolved } :=
    congrArg Prod.fst (ingestAccepted_of_one hone)
  obtain ⟨_, _, _, _, _, ⟨_, hpend'⟩, _⟩ := Laws.decInv_ingestAccepted hp hdec ha
  replace hpend' : d.pendCount.toNat = d.pend.countP (·.valid) := hpend'
  obtain ⟨_, _, _, ⟨_, hcount, _⟩, _, ⟨hslots, hpend⟩, _⟩ := hdec
  obtain ⟨_, ⟨_, hkMax⟩, _, ⟨_, hnPend⟩, _⟩ := hp
  have hresolved : d.resolved = s.dec.resolved + BitVec.ofNat 32 n := by
    rw [hd, ← Laws.learn_resolved s.dec]
    exact peelLoop_resolved _ _ _ _
  have hle : n + d.pend.countP (·.valid) ≤ 1 + s.dec.pend.countP (·.valid) := by
    rw [hd, ← takeHeader_pend s.params s.dec]
    exact peelLoop_count _ _ _ _
  have hvalid : s.dec.pend.countP (·.valid) ≤ s.dec.pend.length := List.countP_le_length
  have hpop := Laws.popcount_le s.params.kMax s.dec.known
  refine ⟨?_, ?_, hpend', by omega⟩
  · rw [hd]
    exact toNat_ofNat_of_le (m := 65537) (by omega) (by omega)
  · rw [hresolved, BitVec.toNat_add, toNat_ofNat_of_le (n := n) (m := 65537) (by omega) (by omega),
      Nat.mod_eq_of_lt (by omega)]

theorem decIngest_of_one_unknown {s : State} (ha : headerAccepted s)
    (hone : popcount s.params.kMax (unknownMask s.params s.dec) = 1) :
    exec .decIngest s =
      .next { s with dec := { (ingestAccepted s.params s.dec).1 with latch := s.dec.latch.idle } } := by
  rw [exec_decIngest_of_accepted ha, ingestAccepted_of_one hone]
  rfl

/-- The scan's order among reduced slots, read off the chunks resolved up to one of them. -/
theorem earlier_take {order : List Nat} {n e i e' i' : Nat} {sl sl' : Slot} (hn : n ≤ order.length)
    (h : Laws.Earlier (order.take n) e i sl e' i' sl') {m : Nat} (hm : m ≤ n) (hr : sl'.reducedTo i' (order.take m)) :
    sl.reducedTo i (order.take m) ∧ (e ≤ e' ∨ ∃ m' < m, sl.reducedTo i (order.take m')) := by
  have htake (m' : Nat) (hm' : m' ≤ n) : (order.take n).take m' = order.take m' := by
    rw [List.take_take, Nat.min_eq_left hm']
  obtain ⟨h1, h2⟩ := h m (by rw [List.length_take]; omega) (by rwa [htake m hm])
  rw [htake m hm] at h1
  refine ⟨h1, h2.imp_right fun ⟨m', hlt, hr'⟩ => ⟨m', hlt, ?_⟩⟩
  rwa [htake m' (by omega)] at hr'

/-- The propagation of an accepted droplet, between the decoder before and after it. -/
theorem ingestAccepted_propagates {s : State} (h : s.Inv) (ha : headerAccepted s)
    (hone : popcount s.params.kMax (unknownMask s.params s.dec) = 1) :
    ∃ order : List Nat, (ingestAccepted s.params s.dec).1.newly.toNat = order.length ∧
      Laws.Propagation s.params s.dec (firstIndex s.params.kMax (unknownMask s.params s.dec))
        (unknownPayload s.params s.dec) (ingestAccepted s.params s.dec).1 [] order := by
  obtain ⟨order, hlen, hprop⟩ := peel_propagates h ha hone
  obtain ⟨hnewly, _⟩ := counts_after_peel h ha hone
  refine ⟨order, hnewly.trans hlen.symm, ?_⟩
  rw [ingestAccepted_of_one hone]
  rw [takeHeader_of_accepted ha] at hprop ⊢
  exact ⟨hprop.start, hprop.first, hprop.later, hprop.queued, hprop.freed, hprop.nodup, hprop.wf, hprop.known,
    hprop.fresh, hprop.length, hprop.slots⟩

/-- Settles O26: the propagation gives the order and its values, the counters count it, and the rest is the frame of an
accepted droplet. -/
theorem dropletOfOneUnknownResolves : Obligations.DropletOfOneUnknownResolves := by
  intro s h ha r m hone
  obtain ⟨order, hlen, hprop⟩ := ingestAccepted_propagates h ha hone
  obtain ⟨hnewly, hresolved, hpend, hbound⟩ := counts_after_peel h ha hone
  rw [← hnewly] at hresolved hbound
  have hwf : s.dec.chunk.wf := by
    obtain ⟨_, _, _, _, _, _, _, _, _, _, hchunk, _⟩ := h
    exact hchunk.1
  have hm : m < 2 ^ s.params.kMax := mask_lt_of_le (unknownMask_lt s) ha.2.1
  have hhead : order.head? = some (firstIndex s.params.kMax (unknownMask s.params s.dec)) := by
    rcases hprop.start with ⟨_, hw⟩ | hhead
    · cases hw
    · exact hhead
  refine ⟨_, order, decIngest_of_one_unknown ha hone, fun j hj => ?_, fun n i hi => ?_, hprop.nodup, hlen, hresolved,
    fun i => ⟨hprop.known i, fun hi => ?_⟩, fun i hi b hb => ingestAccepted_chunkByte hwf hi hb, hprop.length,
    fun e sl sl' hsl hsl' => ?_, hpend, hbound, ?_⟩
  · obtain rfl := Laws.eq_firstIndex_of_popcount_one hone (Laws.lt_of_testBit hm hj) hj
    exact ⟨hhead, hprop.first (List.ne_nil_of_mem (List.mem_of_head? hhead))⟩
  · obtain ⟨e, sl, hsl, ⟨hreduced, hvalue⟩, hearlier⟩ := hprop.later n i hi
    have hn : n + 1 ≤ order.length := (List.getElem?_eq_some_iff.1 hi).1.le
    exact ⟨e, sl, hsl, hreduced, fun e' i' m sl' hsl' hi' hm hr =>
      earlier_take hn (hearlier e' i' sl' hsl' hi') hm hr, hvalue⟩
  · rw [hprop.fresh i hi.2] at hi
    cases hi.1
  · obtain ⟨hfree, hkept, hfreed⟩ := hprop.slots e sl sl' hsl hsl'
    exact ⟨hfree, hkept, fun hv hf i hi => (hfreed hv hf i hi).resolve_right fun ⟨_, hmem⟩ => nomatch hmem⟩
  · have hframe := ingestAccepted_frame s.params s.dec
    obtain ⟨hk, hpad⟩ := learn_of_accepted ha
    have houtcome : (ingestAccepted s.params s.dec).1.outcome = .resolved := by rw [ingestAccepted_of_one hone]
    rw [learn_eq, hk, hpad, houtcome] at hframe
    dsimp only
    rw [hframe]
    rfl

/-! ### A transfer of one chunk (R255 item 5) -/

/-- With `K = 1` a non-empty set is `{0}`, and chunk 0 is unknown as long as nothing is resolved. -/
theorem popcount_unknownMask_of_single {s : State} (h : s.Inv) (hresolved : s.dec.resolved = 0) (hk : s.dec.inK = 1)
    (hsel : (ingestSelection s.params s.dec).mask ≠ 0) :
    popcount s.params.kMax (unknownMask s.params s.dec) = 1 := by
  obtain ⟨⟨_, ⟨hkMax, _⟩, _⟩, _, _, ⟨_, _, _, ⟨_, hcount, _⟩, _⟩⟩ := h
  have hlt : (ingestSelection s.params s.dec).mask < 2 ^ s.dec.inK.toNat := Laws.degreeFunction_mask_lt _ _ _ _
  rw [hk] at hlt
  have honly : (ingestSelection s.params s.dec).mask = 1 :=
    le_antisymm (Nat.le_of_lt_succ hlt) (Nat.one_le_iff_ne_zero.2 hsel)
  rw [hresolved] at hcount
  have hknown : s.dec.known.testBit 0 = false := Laws.popcount_eq_zero_iff.1 hcount.symm 0 hkMax
  refine Laws.popcount_eq_one hkMax ?_ fun i hi => ?_
  · rw [testBit_unknownMask, honly, hknown]
    rfl
  · rw [testBit_unknownMask, honly, Bool.and_eq_true, Nat.testBit_one_eq_true_iff_self_eq_zero] at hi
    exact hi.1

/-- Settles O54: the one unknown chunk is resolved, and no more than `DEC_K` = 1 can be. -/
theorem singleChunkTransferCompletes : Obligations.SingleChunkTransferCompletes := by
  intro s h hresolved ha hinK hsel
  have hone := popcount_unknownMask_of_single h hresolved hinK hsel
  obtain ⟨order, hlen, hprop⟩ := ingestAccepted_propagates h ha hone
  obtain ⟨hnewly, hcount, _⟩ := counts_after_peel h ha hone
  obtain ⟨_, _, _, ⟨_, _, hle⟩, _⟩ := Laws.decInv_ingestAccepted h.1 h.2.2.2 ha
  have hframe := ingestAccepted_frame s.params s.dec
  have hk : (ingestAccepted s.params s.dec).1.k = 1 := by
    rw [hframe, ← hinK]
    exact (learn_of_accepted ha).1
  have hset : (ingestAccepted s.params s.dec).1.paramsSet = true := by
    rw [hframe]
    exact Laws.learn_paramsSet s.dec
  have hpos : 1 ≤ order.length := by
    rcases hprop.start with ⟨_, hw⟩ | hhead
    · cases hw
    · exact List.length_pos_of_mem (List.mem_of_head? hhead)
  rw [hresolved, ← hnewly, hlen] at hcount
  rw [hk] at hle
  replace hle : (ingestAccepted s.params s.dec).1.resolved.toNat ≤ 1 := hle
  replace hcount : (ingestAccepted s.params s.dec).1.resolved.toNat = 0 + order.length := hcount
  have hlen1 : order.length = 1 := by omega
  refine ⟨_, decIngest_of_one_unknown ha hone, complete_iff.2 ⟨hset, ?_⟩, ?_, ?_⟩
  · show (ingestAccepted s.params s.dec).1.resolved = (ingestAccepted s.params s.dec).1.k
    rw [hk]
    exact BitVec.eq_of_toNat_eq (by rw [hcount, hlen1]; rfl)
  · dsimp only
    rw [ingestAccepted_of_one hone]
  · exact BitVec.eq_of_toNat_eq (by rw [hlen, hlen1]; rfl)

end Sys2Proof.Proofs
end

section
/-!
PROOFS. The transfer: a droplet that matches a source buffer, a decoder that agrees with it, and the output
(42_encoder.md R205; 43_decoder.md R251, R256; 70_reset_and_hazards.md R353).
-/

namespace Sys2Proof.Proofs

open Sys2Proof Sys2Proof.Machine

/-! ### The emitted droplet -/

/-- Settles O58: the degree function reads no more of a configuration than the agreement covers. -/
theorem emittedDropletMatchesTheSource : Obligations.EmittedDropletMatchesTheSource := by
  intro s t d hinv hrun hready hexec hagrees hseed hk hbuf
  obtain ⟨⟨_, _, _, _, hdegtab, _⟩, _⟩ := hinv
  obtain rfl := Host.Outcome.next.inj ((exec_encNext_of_ready hrun hready).symm.trans hexec)
  have hsel : (ingestSelection s.params d).mask = (emitted s.params s.enc.seedNext s.enc).mask := by
    rw [ingestSelection, hseed, hk]
    exact congrArg Selection.mask (degreeFunction_congr hdegtab hagrees _).symm
  refine ⟨hsel, fun b hb => ?_⟩
  rw [hbuf b hb, hsel]
  exact (Laws.read_fill _ _ b).trans (if_pos hb)

/-! ### Taking a chunk out of a payload -/

theorem xorcByte_clear {p : Params} {c : Memory 8} {m : Mask} {j : Nat} (hj : j < p.kMax) (hm : m.testBit j = true)
    (b : Nat) : xorcByte p c m b = xorcByte p c (Mask.clear m j) b ^^^ chunkByte p c j b := by
  rw [← Laws.xorcByte_insert hj (by simp)]
  refine Laws.xorcByte_congr (fun i => ?_) fun _ _ => rfl
  rw [Laws.testBit_insert, Laws.testBit_clear]
  by_cases hij : j = i
  · simp [← hij, hm]
  · simp [hij]

/-- A payload is the source's chunk `j`. -/
def chunkMatches (p : Params) (source : Memory 8) (j : Nat) (v : Memory 8) : Prop :=
  ∀ b, b < p.chunkSize → v.read b = chunkByte p source j b

theorem payloadMatches_clear {p : Params} {source : Memory 8} {m : Mask} {j : Nat} {pay v : Memory 8} (hj : j < p.kMax)
    (hm : m.testBit j = true) (h : payloadMatches p source m pay) (hv : chunkMatches p source j v) :
    payloadMatches p source (Mask.clear m j) (xorBytes p.chunkSize pay v) := by
  intro b hb
  rw [Laws.read_xorBytes, if_pos hb, h b hb, hv b hb, xorcByte_clear hj hm, BitVec.xor_assoc, BitVec.xor_self,
    BitVec.xor_zero]

theorem eq_two_pow_of_popcount_one {n : Nat} {m : Mask} (hlt : m < 2 ^ n) (h : popcount n m = 1) :
    m = 2 ^ firstIndex n m := by
  obtain ⟨_, hbit⟩ := Laws.firstIndex_spec (n := n) (m := m) (by omega)
  apply Nat.eq_of_testBit_eq
  intro i
  rw [Nat.testBit_two_pow]
  by_cases hi : firstIndex n m = i
  · rw [← hi, hbit, decide_eq_true rfl]
  · rw [decide_eq_false hi]
    by_contra hset
    rw [Bool.not_eq_false] at hset
    exact hi (Laws.eq_firstIndex_of_popcount_one h (Laws.lt_of_testBit hlt hset) hset).symm

/-- A payload of one chunk is that chunk. -/
theorem chunkMatches_of_popcount_one {p : Params} {source : Memory 8} {m : Mask} {pay : Memory 8}
    (hlt : m < 2 ^ p.kMax) (hone : popcount p.kMax m = 1) (h : payloadMatches p source m pay) :
    chunkMatches p source (firstIndex p.kMax m) pay := by
  obtain ⟨hfirst, _⟩ := Laws.firstIndex_spec (n := p.kMax) (m := m) (by omega)
  intro b hb
  rw [h b hb]
  conv_lhs => rw [eq_two_pow_of_popcount_one hlt hone]
  exact xorcByte_two_pow hfirst source b

/-! ### The reduction of a payload (R243) -/

/-- The resolved chunks of a decoder are the source's. -/
def knownMatch (p : Params) (source : Memory 8) (d : Decoder) : Prop :=
  ∀ i, i < p.kMax → d.known.testBit i = true → ∀ b, b < p.chunkSize → chunkByte p d.chunk i b = chunkByte p source i b

theorem reducePayload_succ (p : Params) (d : Decoder) (n : Nat) (m : Mask) (pl : Memory 8) :
    reducePayload p d (n + 1) m pl =
      if m.testBit n && d.known.testBit n then xorBytes p.chunkSize (reducePayload p d n m pl) (chunkOf p d.chunk n)
      else reducePayload p d n m pl := by
  simp only [reducePayload, List.range_succ, List.foldl_append, List.foldl_cons, List.foldl_nil]

/-- Reducing by the first `n` chunks takes the resolved ones among them out of the mask. -/
theorem payloadMatches_reducePayload_mod {p : Params} {source : Memory 8} {d : Decoder} (hd : knownMatch p source d)
    {m : Mask} {pl : Memory 8} (h : payloadMatches p source m pl) :
    ∀ n, n ≤ p.kMax →
      payloadMatches p source (Mask.without m (d.known % 2 ^ n)) (reducePayload p d n m pl)
  | 0, _ => by
    rw [pow_zero, Nat.mod_one, Mask.without, Nat.and_zero, Nat.xor_zero]
    exact h
  | n + 1, hn => by
    have ih := payloadMatches_reducePayload_mod hd h n (by omega)
    have hbits (i : Nat) : (Mask.without m (d.known % 2 ^ (n + 1))).testBit i =
        ((Mask.without m (d.known % 2 ^ n)).testBit i && !(decide (n = i) && d.known.testBit i)) := by
      rw [Laws.testBit_without, Laws.testBit_without, Nat.testBit_mod_two_pow, Nat.testBit_mod_two_pow]
      by_cases hlt : i < n
      · simp [hlt, Nat.lt_succ_of_lt hlt, show n ≠ i by omega]
      · by_cases heq : n = i
        · simp [heq]
        · simp [hlt, heq, show ¬ i < n + 1 by omega]
    rw [reducePayload_succ]
    split
    case isTrue hboth =>
      obtain ⟨hm, hk⟩ := Bool.and_eq_true_iff.1 hboth
      have hmask : Mask.without m (d.known % 2 ^ (n + 1)) = Mask.clear (Mask.without m (d.known % 2 ^ n)) n := by
        apply Nat.eq_of_testBit_eq
        intro i
        rw [hbits, Laws.testBit_clear]
        by_cases heq : n = i
        · rw [← heq, hk]
          simp
        · simp [heq]
      rw [hmask]
      refine payloadMatches_clear (by omega) ?_ ih fun b hb => ?_
      · rw [Laws.testBit_without, Nat.testBit_mod_two_pow, hm]
        simp
      · rw [Laws.read_chunkOf, if_pos hb, hd n (by omega) hk b hb]
    case isFalse hnot =>
      have hmask : Mask.without m (d.known % 2 ^ (n + 1)) = Mask.without m (d.known % 2 ^ n) := by
        apply Nat.eq_of_testBit_eq
        intro i
        rw [hbits]
        by_cases heq : n = i
        · rw [← heq, Laws.testBit_without]
          cases hm : m.testBit n <;> cases hk : d.known.testBit n <;> simp_all
        · simp [heq]
      rw [hmask]
      exact ih

theorem payloadMatches_reducePayload {p : Params} {source : Memory 8} {d : Decoder} (hd : knownMatch p source d)
    {m : Mask} {pl : Memory 8} (h : payloadMatches p source m pl) {k : Nat} (hk : k ≤ p.kMax) (hm : m < 2 ^ k) :
    payloadMatches p source (Mask.without m d.known) (reducePayload p d k m pl) := by
  have hmask : Mask.without m (d.known % 2 ^ k) = Mask.without m d.known := by
    apply Nat.eq_of_testBit_eq
    intro i
    rw [Laws.testBit_without, Laws.testBit_without, Nat.testBit_mod_two_pow]
    cases hbit : m.testBit i with
    | false => rfl
    | true => simp [Laws.lt_of_testBit hm hbit]
  rw [← hmask]
  exact payloadMatches_reducePayload_mod hd h k hk

/-! ### Peeling keeps the agreement (R256) -/

/-- A decoder at some point of a propagation that agrees with a source, with its worklist. -/
structure Agreeing (p : Params) (source : Memory 8) (d : Decoder) (w : List WorkItem) : Prop where
  wf : d.chunk.wf
  known : knownMatch p source d
  slots : ∀ sl ∈ d.pend, sl.valid = true → sl.mask < 2 ^ p.kMax ∧ payloadMatches p source sl.mask sl.pay
  queued : ∀ x ∈ w, chunkMatches p source x.1 x.2

theorem Agreeing.resolve {p : Params} {source : Memory 8} {d : Decoder} {j : Nat} {v : Memory 8} {w : List WorkItem}
    (h : Agreeing p source d ((j, v) :: w)) :
    Agreeing p source (resolveChunk p d j v).1 (w ++ (resolveChunk p d j v).2) := by
  have hv : chunkMatches p source j v := h.queued (j, v) List.mem_cons_self
  have hreduced (sl : Slot) (hsl : sl ∈ d.pend) (hvalid : sl.valid = true) (hbit : sl.mask.testBit j = true) :
      Mask.clear sl.mask j < 2 ^ p.kMax ∧
        payloadMatches p source (Mask.clear sl.mask j) (xorBytes p.chunkSize sl.pay v) := by
    obtain ⟨hlt, hmatch⟩ := h.slots sl hsl hvalid
    exact ⟨Laws.clear_lt hlt, payloadMatches_clear (Laws.lt_of_testBit hlt hbit) hbit hmatch hv⟩
  rw [Laws.resolveChunk_eq]
  refine ⟨Laws.writeBlock_wf h.wf _ _ _, fun i hi hk b hb => ?_, fun x hx hvalid => ?_, fun x hx => ?_⟩
  · dsimp only at hk ⊢
    rw [Laws.chunkByte_setChunk h.wf j v hb]
    split
    case isTrue hij => rw [hij, hv b hb]
    case isFalse hij =>
      rw [Laws.testBit_insert, decide_eq_false (Ne.symm hij), Bool.or_false] at hk
      exact h.known i hi hk b hb
  · obtain ⟨sl, hsl, rfl⟩ := Laws.mem_scanSlots.1 hx
    rcases Laws.peelSlot_cases p j v sl with ⟨_, heq⟩ | ⟨hvalid', hbit, _, heq⟩ | ⟨_, _, _, heq⟩
    · rw [heq] at hvalid ⊢
      exact h.slots sl hsl hvalid
    · rw [heq]
      exact hreduced sl hsl hvalid' hbit
    · rw [heq] at hvalid
      cases hvalid
  · rcases List.mem_append.1 hx with hx | hx
    · exact h.queued x (List.mem_cons_of_mem _ hx)
    · obtain ⟨sl, hsl, hentry⟩ := Laws.mem_scanQueue.1 hx
      rcases Laws.peelSlot_cases p j v sl with ⟨_, heq⟩ | ⟨_, _, _, heq⟩ | ⟨hvalid, hbit, hone, heq⟩
      · rw [heq] at hentry
        cases hentry
      · rw [heq] at hentry
        cases hentry
      · rw [heq] at hentry
        obtain rfl := Option.some.inj hentry
        obtain ⟨hlt, hmatch⟩ := hreduced sl hsl hvalid hbit
        exact chunkMatches_of_popcount_one hlt hone hmatch

theorem Agreeing.peelLoop {p : Params} {source : Memory 8} {d : Decoder} {w : List WorkItem}
    (h : Agreeing p source d w) (fuel n : Nat) :
    Agreeing p source (peelLoop p fuel d w n).1 (peelLoop p fuel d w n).2.1 :=
  Laws.peelLoop_induct p (fun d' w' _ => Agreeing p source d' w')
    (fun _ _ _ _ _ h _ => ⟨h.wf, h.known, h.slots, fun x hx => h.queued x (List.mem_cons_of_mem _ hx)⟩)
    (fun _ _ _ _ _ h _ => h.resolve) fuel d w n h

/-! ### Storing keeps the agreement -/

theorem agrees_iff {p : Params} {source : Memory 8} {d : Decoder} :
    d.agrees p source ↔
      knownMatch p source d ∧ ∀ sl ∈ d.pend, sl.valid = true → payloadMatches p source sl.mask sl.pay := Iff.rfl

theorem agrees_pendStore {p : Params} {source : Memory 8} {d : Decoder} {m : Mask} {pay : Memory 8}
    (hd : d.agrees p source) (hpay : payloadMatches p source m pay) : (pendStore d m pay).1.agrees p source := by
  obtain ⟨hknown, hslots⟩ := agrees_iff.1 hd
  have hset (e : Nat) : ∀ sl ∈ d.pend.set e { valid := true, mask := m, pay := pay }, sl.valid = true →
      payloadMatches p source sl.mask sl.pay := by
    intro sl hsl hvalid
    rcases List.mem_or_eq_of_mem_set hsl with hold | rfl
    · exact hslots sl hold hvalid
    · exact hpay
  rcases Laws.pendStore_cases d m pay with ⟨e, hfound, heq⟩ | ⟨e, _, _, heq⟩ | ⟨_, _, heq⟩ <;> rw [heq]
  · obtain ⟨⟨sl, hsl, hvalid, hmask⟩, _⟩ := findSameMask_eq_some_iff.1 hfound
    rw [modify_pay_eq_set pay hsl hvalid hmask]
    exact ⟨hknown, hset e⟩
  · exact ⟨hknown, hset e⟩
  · exact ⟨hknown, hslots⟩

theorem agrees_ingestAccepted {s : State} {source : Memory 8} (h : s.Inv) (ha : headerAccepted s)
    (hagrees : s.dec.agrees s.params source)
    (hmatch : payloadMatches s.params source (ingestSelection s.params s.dec).mask s.dec.inBuf) :
    (ingestAccepted s.params s.dec).1.agrees s.params source := by
  have htaken : (takeHeader s.params s.dec).agrees s.params source := by
    rw [takeHeader_of_accepted ha]
    exact hagrees
  have hpay : payloadMatches s.params source (unknownMask s.params s.dec) (unknownPayload s.params s.dec) :=
    payloadMatches_reducePayload hagrees.1 hmatch ha.2.1 (Laws.degreeFunction_mask_lt _ _ _ _)
  have hinv := takeHeader_inv h ha
  rw [ingestAccepted_eq]
  split
  · exact htaken
  · split
    case isTrue hone =>
      obtain ⟨_, _, _, _, _, _, _, hchunk, _⟩ := id hinv
      have hlt : unknownMask s.params s.dec < 2 ^ s.params.kMax := mask_lt_of_le (unknownMask_lt s) ha.2.1
      have hstart : Agreeing s.params source (takeHeader s.params s.dec)
          [(firstIndex s.params.kMax (unknownMask s.params s.dec), unknownPayload s.params s.dec)] := by
        refine ⟨hchunk.1, htaken.1, fun sl hsl hvalid => ⟨?_, htaken.2 sl hsl hvalid⟩, fun x hx => ?_⟩
        · exact (slotOpen_of_inv hinv (Laws.learn_paramsSet s.dec) sl hsl hvalid).2.2
        · obtain rfl := List.mem_singleton.1 hx
          exact chunkMatches_of_popcount_one hlt hone hpay
      have hend := hstart.peelLoop ((takeHeader s.params s.dec).pend.length + 1) 0
      exact ⟨hend.known, fun sl hsl hvalid => (hend.slots sl hsl hvalid).2⟩
    case isFalse => exact agrees_pendStore htaken hpay

/-- Settles O59: a rejected droplet leaves chunks and slots alone; an accepted one is reduced by resolved chunks, which
are the source's, and then stored or propagated. -/
theorem ingestKeepsAgreementWithTheSource : Obligations.IngestKeepsAgreementWithTheSource := by
  intro s t source h hagrees hmatch hexec
  rcases exec_decIngest_dec hexec with ⟨_, hdec⟩ | ⟨ha, hdec⟩ <;> rw [hdec]
  · exact hagrees
  · exact agrees_ingestAccepted h ha hagrees hmatch

/-! ### The output (R251) -/

theorem testBit_of_popcount_eq {n : Nat} {m : Mask} (h : popcount n m = n) {i : Nat} (hi : i < n) :
    m.testBit i = true := by
  have hall : (List.range n).countP (fun i => m.testBit i) = (List.range n).length := by
    rw [List.length_range]
    exact h
  exact List.countP_eq_length.1 hall i (List.mem_range.2 hi)

/-- In a complete decoder every chunk of the transfer is resolved. -/
theorem known_of_complete {p : Params} {d : Decoder} (h : d.Inv p) (hcomplete : d.complete = true) {i : Nat}
    (hi : i < d.k.toNat) : d.k.toNat ≤ p.kMax ∧ d.known.testBit i = true := by
  obtain ⟨_, _, hlegal, ⟨hlt, hcount, _⟩, _⟩ := h
  obtain ⟨hset, hk⟩ := complete_iff.1 hcomplete
  obtain ⟨_, hkMax, _⟩ := hlegal hset
  rw [hk, Laws.popcount_of_le hkMax hlt] at hcount
  exact ⟨hkMax, testBit_of_popcount_eq hcount.symm hi⟩

/-- Settles O60: the readout returns the chunks' bytes, and each chunk below `DEC_K` is resolved, so it is the source's. -/
theorem completeOutputEqualsTheSource : Obligations.CompleteOutputEqualsTheSource := by
  intro s source h hagrees hcomplete hlen
  obtain ⟨hp, _, _, hdec⟩ := h
  obtain ⟨t, ht, hbytes, _⟩ := decReadOutReturnsTheStream s hcomplete hlen
  refine ⟨t, ht, fun b hb => ?_⟩
  rw [hbytes b hb]
  split
  case isTrue hlt =>
    generalize 4 * s.dec.latch.a0.toNat + b = o at hlt
    have hchunk : o / s.params.chunkSize < s.dec.k.toNat :=
      Nat.div_lt_of_lt_mul (by rw [Nat.mul_comm]; omega)
    obtain ⟨hkMax, hknown⟩ := known_of_complete hdec hcomplete hchunk
    have hbyte := hagrees.1 _ (hchunk.trans_le hkMax) hknown _ (Nat.mod_lt o hp.1.1)
    rwa [chunkByte, chunkByte, Nat.div_add_mod'] at hbyte
  case isFalse => rfl

end Sys2Proof.Proofs
end

section
/-!
PROOFS. The generator (41_chunk_selector.md R180): each of its turns is one to one, so only 0 becomes 0.
-/

namespace Sys2Proof.Proofs

open Sys2Proof Sys2Proof.Machine

/-- A word that equals itself shifted right is 0. -/
theorem xor_ushiftRight_eq_zero_iff {n : Nat} (hn : 0 < n) {x : Word} : x ^^^ (x >>> n) = 0 ↔ x = 0 := by
  constructor
  · intro h
    have hfix : x.toNat = x.toNat / 2 ^ n := by
      rw [← Nat.shiftRight_eq_div_pow, ← BitVec.toNat_ushiftRight]
      exact congrArg BitVec.toNat (BitVec.xor_eq_zero_iff.1 h)
    refine BitVec.eq_of_toNat_eq ?_
    by_contra hne
    have hlt := Nat.div_lt_self (Nat.pos_of_ne_zero hne) (Nat.one_lt_two_pow (Nat.pos_iff_ne_zero.1 hn))
    exact absurd hfix (Nat.ne_of_gt hlt)
  · rintro rfl
    simp

/-- A word that equals itself shifted left is 0: its lowest set bit would have to stand `n` places higher. -/
theorem xor_shiftLeft_eq_zero {n : Nat} (hn : 0 < n) {x : Word} (h : x ^^^ (x <<< n) = 0) : x = 0 := by
  have hfix : x = x <<< n := BitVec.xor_eq_zero_iff.1 h
  have hbits (i : Nat) : x.getLsbD i = false := by
    induction i using Nat.strong_induction_on with
    | _ i ih =>
      rw [hfix, BitVec.getLsbD_shiftLeft]
      by_cases hi : i < n
      · simp [hi]
      · rw [ih (i - n) (by omega), Bool.and_false]
  exact BitVec.eq_of_getLsbD_eq fun i _ => (hbits i).trans BitVec.getLsbD_zero.symm

/-- Multiplication by a word with an inverse is one to one. -/
theorem mul_eq_zero_iff_of_inverse {x c inv : Word} (h : c * inv = 1#32) : x * c = 0 ↔ x = 0 := by
  constructor
  · intro hx
    calc x = x * c * inv := by rw [BitVec.mul_assoc, h, BitVec.mul_one]
      _ = 0 := by rw [hx]; exact BitVec.zero_mul
  · rintro rfl
    exact BitVec.zero_mul

theorem fmix32_eq_zero_iff (seed : Word) : fmix32 seed = 0 ↔ seed = 0 := by
  unfold fmix32
  dsimp only
  rw [xor_ushiftRight_eq_zero_iff (by norm_num), mul_eq_zero_iff_of_inverse (inv := 0x7ED1B41D) (by decide),
    xor_ushiftRight_eq_zero_iff (by norm_num), mul_eq_zero_iff_of_inverse (inv := 0xA5CB9243) (by decide),
    xor_ushiftRight_eq_zero_iff (by norm_num)]

/-- Settles O28: the finaliser is 0 for seed 0 alone, which has a state of its own; no shift step makes a word 0. -/
theorem generatorStateIsNeverZero : Obligations.GeneratorStateIsNeverZero := by
  refine ⟨fun seed => ⟨rfl, fmix32_eq_zero_iff seed, ?_⟩, fun s => ⟨rfl, fun hs hzero => hs ?_⟩⟩
  · unfold rngInit
    split
    case isTrue => decide
    case isFalse h => exact h
  · unfold rngNext at hzero
    exact xor_shiftLeft_eq_zero (by norm_num)
      ((xor_ushiftRight_eq_zero_iff (by norm_num)).1 (xor_shiftLeft_eq_zero (by norm_num) hzero))

end Sys2Proof.Proofs
end

section
/-!
PROOFS. The address map and the registers of the port (10_state.md R31–R38, R67; 20_memory.md R81, R87).
-/

namespace Sys2Proof.Proofs

open Sys2Proof Sys2Proof.Machine

/-! ### The fields of an address (R81, R87) -/

/-- Word `w` of a region: the region in bits 31:24, the word index in bits 23:2. -/
theorem fields_of_wordAddress {base r w : Nat} (hbase : base = r * 2 ^ 24) (hr : r < 256) (hw : w < 2 ^ 22) :
    regionOf (BitVec.ofNat 32 (base + 4 * w)) = r ∧ wordIndexOf (BitVec.ofNat 32 (base + 4 * w)) = w := by
  simp only [regionOf, wordIndexOf, BitVec.extractLsb'_toNat, BitVec.toNat_ofNat, Nat.shiftRight_eq_div_pow]
  omega

/-- The window words that each obey their window's size are words of the region's 24-bit address space. -/
theorem windowSizes_le {p : Params} (hp : p.wf) :
    ceilDiv (p.kMax * p.chunkSize) 4 ≤ 2 ^ 22 ∧ ceilDiv p.chunkSize 4 ≤ 2 ^ 22 ∧ p.kMax ≤ 2 ^ 22 ∧
      p.degtabLen ≤ 2 ^ 22 ∧ ceilDiv p.kMax 32 ≤ 2 ^ 22 := by
  obtain ⟨⟨_, hsize⟩, ⟨_, hkMax⟩, hbuffer, _, ⟨_, hdegtab⟩⟩ := hp
  exact ⟨Laws.ceilDiv_le (by norm_num) (by omega), Laws.ceilDiv_le (by norm_num) (by omega), by omega, by omega,
    Laws.ceilDiv_le (by norm_num) (by omega)⟩

/-- The 36 offsets of R67 are in region 0 and name their registers. -/
theorem registerLoc_registerMap :
    ∀ x ∈ registerMap, regionOf (BitVec.ofNat 32 x.1) = 0 ∧
      registerLoc (wordIndexOf (BitVec.ofNat 32 x.1)) = .reg x.2 := by
  decide

/-- Word `w` of the window that stands in region `r`. -/
theorem locOf_windowWord {p : Params} {base r n w : Nat} {l : Nat → Loc} (hbase : base = r * 2 ^ 24)
    (hwindow : ∀ a, regionOf a = r → locOf p a = windowLoc n l (wordIndexOf a)) (hr : r < 256) (hn : n ≤ 2 ^ 22)
    (hw : w < n) :
    locOf p (BitVec.ofNat 32 (base + 4 * w)) = l w := by
  obtain ⟨hregion, hindex⟩ := fields_of_wordAddress hbase hr (hw.trans_le hn)
  rw [hwindow _ hregion, hindex]
  exact if_pos hw

/-- Settles O32: the address's fields pick the region and the word, which is within the window. -/
theorem addressMapPlacesEveryLocation : Obligations.AddressMapPlacesEveryLocation := by
  intro p hp
  obtain ⟨hsrc, hpayload, hkMax, hdegtab, hmask⟩ := windowSizes_le hp
  refine ⟨fun x hx => ?_, fun w => locOf_windowWord (r := 0x01) rfl (fun a h => by simp only [locOf, h]) (by norm_num) hsrc,
    fun w => locOf_windowWord (r := 0x02) rfl (fun a h => by simp only [locOf, h]; rfl) (by norm_num) hpayload,
    fun w => locOf_windowWord (r := 0x03) rfl (fun a h => by simp only [locOf, h]) (by norm_num) hkMax,
    fun w => locOf_windowWord (r := 0x04) rfl (fun a h => by simp only [locOf, h]) (by norm_num) hdegtab,
    fun w => locOf_windowWord (r := 0x05) rfl (fun a h => by simp only [locOf, h]; rfl) (by norm_num) hmask,
    fun w => locOf_windowWord (r := 0x08) rfl (fun a h => by simp only [locOf, h]; rfl) (by norm_num) hpayload,
    fun w => locOf_windowWord (r := 0x09) rfl (fun a h => by simp only [locOf, h]) (by norm_num) hkMax,
    fun w => locOf_windowWord (r := 0x0A) rfl (fun a h => by simp only [locOf, h]) (by norm_num) hdegtab,
    fun w => locOf_windowWord (r := 0x0B) rfl (fun a h => by simp only [locOf, h]; rfl) (by norm_num) hmask,
    fun w => locOf_windowWord (r := 0x0C) rfl (fun a h => by simp only [locOf, h]; rfl) (by norm_num) hmask⟩
  obtain ⟨hregion, hreg⟩ := registerLoc_registerMap x hx
  rw [locOf_register p hregion, hreg]

/-- Bits 1:0 are in neither field of an address. -/
theorem locOf_aligned (p : Params) (a : Word) : locOf p (a &&& 0xFFFFFFFC) = locOf p a := by
  have hregion : (a &&& 0xFFFFFFFC).extractLsb' 24 8 = a.extractLsb' 24 8 := by
    rw [BitVec.extractLsb'_and]
    exact BitVec.and_allOnes
  have hindex : (a &&& 0xFFFFFFFC).extractLsb' 2 22 = a.extractLsb' 2 22 := by
    rw [BitVec.extractLsb'_and]
    exact BitVec.and_allOnes
  simp only [locOf, regionOf, wordIndexOf, hregion, hindex]

/-- Settles O33: both accesses use the address through its location only. -/
theorem accessesIgnoreTheLowAddressBits : Obligations.AccessesIgnoreTheLowAddressBits := by
  intro s a v
  simp only [hostRead, hostWrite, locOf_aligned, and_self]

/-! ### The registers of the port (R31 to R38, R67) -/

/-- The registers the host can only read (R67). -/
def readOnlyRegs : List Reg :=
  [.id, .cfgS, .cfgKmax, .cfgNpend, .cfgDegtabLen, .status, .lastErr, .encL, .encK, .encP, .encSeedNext, .outSeed, .outK,
    .outP, .outDeg, .encResult, .decK, .decP, .decResolved, .decPendCount, .decResult, .decOutcome, .decNewly]

theorem writeReg_readOnly (s : State) (v : Word) {r : Reg} (hr : r ∈ readOnlyRegs) : writeReg s v r = s := by
  cases r
  case cmd | arg0 | arg1 | arg2 | err | ctrl | encMode | encCdfK | decMode | decCdfK | inSeed | inK | inP =>
    exact absurd hr (by decide)
  all_goals rfl

theorem hostWrite_reg {s : State} {a : Word} {r : Reg} (v : Word) (ha : locOf s.params a = .reg r) :
    hostWrite s a v = writeReg s v r := by
  simp only [hostWrite, ha, writeLoc]

theorem hostWrite_readOnly {s : State} {a : Word} {r : Reg} (v : Word) (ha : locOf s.params a = .reg r)
    (hr : r ∈ readOnlyRegs) : hostWrite s a v = s := by
  rw [hostWrite_reg v ha, writeReg_readOnly s v hr]

/-- A register of the port reads back what a write put there. -/
theorem hostRead_hostWrite {s t : State} {a v : Word} {r : Reg} (ha : locOf s.params a = .reg r) (hr : r ∈ hostOnlyRegs)
    (hw : writeReg s v r = t) (hp : t.params = s.params) (hv : readReg t r = v) :
    hostWrite s a v = t ∧ (hostRead (hostWrite s a v) a).rdata = v := by
  have ht : hostWrite s a v = t := (hostWrite_reg v ha).trans hw
  refine ⟨ht, ?_⟩
  rw [ht, hostRead_hostOnly t (hp ▸ ha) hr, hv]

/-- Settles O35: no command writes these registers, and a write to a read-only location is ignored. -/
theorem constantAndArgumentRegisters : Obligations.ConstantAndArgumentRegisters := by
  intro s a v
  have hconstant {r : Reg} (hr : r ∈ hostOnlyRegs) (hr' : r ∈ readOnlyRegs) (ha : locOf s.params a = .reg r) :
      (hostRead s a).rdata = readReg s r ∧ hostWrite s a v = s :=
    ⟨hostRead_hostOnly s ha hr, hostWrite_readOnly v ha hr'⟩
  refine ⟨hconstant (by decide) (by decide), hconstant (by decide) (by decide), hconstant (by decide) (by decide),
    hconstant (by decide) (by decide), hconstant (by decide) (by decide), fun ha => ?_,
    fun ha => hostRead_hostWrite ha (by decide) rfl rfl rfl, fun ha => hostRead_hostWrite ha (by decide) rfl rfl rfl,
    fun ha => hostRead_hostWrite ha (by decide) rfl rfl rfl, fun r hr ha => hostWrite_readOnly v ha ?_, fun w ha => ?_⟩
  · rcases ha with ha | ha
    · exact hostRead_hostOnly s ha (by decide)
    · exact hostRead_hostOnly s ha (by decide)
  · exact List.mem_of_mem_drop (i := 5) hr
  · rcases ha with ha | ha | ha | ha <;> simp only [hostWrite, ha, writeLoc]

/-! ### `STATUS` (R35) -/

theorem getLsbD_flagAt (i : Nat) (b : Bool) (n : Nat) :
    (flagAt i b).getLsbD n = (b && (decide (n < 32) && decide (i = n))) := by
  cases b
  · exact BitVec.getLsbD_zero
  · exact getLsbD_oneShiftLeft i n

/-- Bit `n` of `STATUS` from its fields. -/
def statusBit (f : StatusFields) : Nat → Bool
  | 0 => f.encBusy
  | 1 => f.decBusy
  | 2 => decide (f.phase = .loading)
  | 3 => decide (f.phase = .running)
  | 4 => f.paramsSet
  | 5 => f.complete
  | 6 => f.encClamped
  | 7 => f.decClamped
  | 8 => f.errAny
  | _ => false

theorem getLsbD_phaseField (p : Phase) (n : Nat) :
    (BitVec.ofNat 32 p.code <<< 2).getLsbD n = (decide (n = 2 ∧ p = .loading) || decide (n = 3 ∧ p = .running)) := by
  rcases Nat.lt_or_ge n 32 with hn | hn
  · cases p <;> decide +revert
  · rw [BitVec.getLsbD_of_ge _ _ hn, decide_eq_false (by omega), decide_eq_false (by omega)]
    rfl

theorem getLsbD_statusWord (f : StatusFields) (n : Nat) : f.word.getLsbD n = statusBit f n := by
  simp only [StatusFields.word, BitVec.getLsbD_or, getLsbD_flagAt, getLsbD_phaseField]
  rcases Nat.lt_or_ge n 9 with hn | hn
  · interval_cases n <;> simp [statusBit]
  · obtain ⟨m, rfl⟩ := Nat.exists_eq_add_of_le' hn
    simp [statusBit]

theorem toNat_twoBits (v : Word) (i : Nat) :
    (v.extractLsb' i 2).toNat = (v.getLsbD i).toNat + 2 * (v.getLsbD (i + 1)).toNat := by
  have hbits : ∀ x : BitVec 2, x.toNat = (x.getLsbD 0).toNat + 2 * (x.getLsbD 1).toNat := by decide
  rw [hbits, BitVec.getLsbD_extractLsb', BitVec.getLsbD_extractLsb']
  rfl

/-- Settles O36: the bits of `STATUS` are its fields', and the phase's two bits its code. -/
theorem statusFieldsStandInTheirPlaces : Obligations.StatusFieldsStandInTheirPlaces := by
  intro s v
  have hbit (n : Nat) : v.getLsbD n = statusBit s.status n := getLsbD_statusWord s.status n
  refine ⟨hbit 0, hbit 1, ?_, hbit 4, hbit 5, hbit 6, hbit 7, (hbit 8).trans ?_, fun i hi => ?_⟩
  · rw [toNat_twoBits, hbit, hbit]
    cases hp : s.enc.phase <;> simp [statusBit, State.status, hp]
  · exact Bool.eq_iff_iff.2 ((bne_iff_ne (a := s.err) (b := 0)).trans decide_eq_true_iff.symm)
  · obtain ⟨m, rfl⟩ := Nat.exists_eq_add_of_le' hi
    exact hbit (m + 9)

end Sys2Proof.Proofs
end

section
/-!
PROOFS. Power-on reset (10_state.md R65, R68; 70_reset_and_hazards.md R340).
-/

namespace Sys2Proof.Proofs

open Sys2Proof Sys2Proof.Machine

theorem sound_nil {w : Nat} (n : Nat) : Memory.sound n ([] : Memory w) := ⟨Laws.wf_nil, fun _ h => nomatch h⟩

theorem encoder_por_inv {p : Params} {d : PorContents} (hd : d.wf p) : (Encoder.por d).Inv p := by
  obtain ⟨hsrc, hecdf, hedegTab, -⟩ := hd
  exact ⟨fun h => (nomatch h), fun _ => ⟨rfl, rfl, rfl⟩, fun h => (h rfl).elim, fun h => (h rfl).elim,
    Nat.two_pow_pos _, hsrc, sound_nil _, hecdf, hedegTab⟩

/-- A slot at power-on: free, with the contents drawn. -/
theorem slot_por {p : Params} {d : PorContents} {sl : Slot} (h : sl ∈ (Decoder.por p d).pend) :
    ∃ e, sl = { valid := false, mask := (d.slot.getD e (0, [])).1, pay := (d.slot.getD e (0, [])).2 } := by
  obtain ⟨e, -, rfl⟩ := List.mem_map.1 h
  exact ⟨e, rfl⟩

theorem valid_slot_por {p : Params} {d : PorContents} {sl : Slot} (h : sl ∈ (Decoder.por p d).pend) : sl.valid = false := by
  obtain ⟨e, rfl⟩ := slot_por h
  rfl

theorem pay_slot_por {p : Params} {d : PorContents} (hd : ∀ c ∈ d.slot, Memory.sound p.chunkSize c.2) {sl : Slot}
    (h : sl ∈ (Decoder.por p d).pend) : Memory.sound p.chunkSize sl.pay := by
  obtain ⟨e, rfl⟩ := slot_por h
  rcases Nat.lt_or_ge e d.slot.length with he | he
  · rw [List.getD_eq_getElem _ _ he]
    exact hd _ (List.getElem_mem he)
  · rw [List.getD_eq_default _ _ he]
    exact sound_nil _

theorem decoder_por_inv {p : Params} {d : PorContents} (hd : d.wf p) : (Decoder.por p d).Inv p := by
  obtain ⟨-, -, -, hdcdf, hddegTab, hinBuf, hchunk, hslot⟩ := hd
  have hfree : ∀ sl ∈ (Decoder.por p d).pend, sl.valid = false := fun _ => valid_slot_por
  have hnone : (Decoder.por p d).pend.countP (·.valid) = 0 := List.countP_eq_zero.2 fun sl hsl => by simp [hfree sl hsl]
  exact ⟨fun h => (nomatch h), fun _ => ⟨rfl, hfree, rfl, rfl, rfl, rfl⟩, fun h => (nomatch h),
    ⟨Nat.two_pow_pos _, (Laws.popcount_zero _).symm, Nat.le_refl _⟩, fun sl hsl hv => absurd hv (by simp [hfree sl hsl]),
    ⟨by simp [Decoder.por], hnone.symm⟩, Nat.two_pow_pos _, hchunk, hinBuf, hdcdf, hddegTab, fun _ => pay_slot_por hslot⟩

theorem state_por_inv {p : Params} {d : PorContents} (hp : p.wf) (hd : d.wf p) : (State.por p d).Inv :=
  ⟨hp, BitVec.zero_and, encoder_por_inv hd, decoder_por_inv hd⟩

theorem bufferWord_nil (n w : Nat) : bufferWord n [] w = 0 := by
  have hbytes : limitBytes n (Memory.read []) = fun _ => 0 := funext fun o => ite_self 0
  have hzero : ((0 : Byte) ++ (0 : Byte) ++ (0 : Byte) ++ (0 : Byte) : Word) = 0 := by decide
  rw [bufferWord, hbytes]
  exact hzero

theorem maskWord_zero (n w : Nat) : maskWord n 0 w = 0 := by simp [maskWord]

theorem status_por (p : Params) (d : PorContents) :
    (State.por p d).status = ⟨false, false, .idle, false, false, false, false, false⟩ := rfl

theorem readReg_por (p : Params) (d : PorContents) {r : Reg} (hr : r ∉ [Reg.id, .cfgS, .cfgKmax, .cfgNpend, .cfgDegtabLen]) :
    readReg (State.por p d) r = 0 := by
  cases r
  case id | cfgS | cfgKmax | cfgNpend | cfgDegtabLen => exact absurd (by decide) hr
  case status =>
    rw [readReg, status_por]
    decide
  all_goals rfl

theorem zero_wf (p : Params) : PorContents.zero.wf p :=
  ⟨sound_nil _, sound_nil _, sound_nil _, sound_nil _, sound_nil _, sound_nil _, sound_nil _, fun _ h => nomatch h⟩

/-- Settles O45: the values field by field, and the invariant part by part. -/
theorem powerOnHasTheInvariant : Obligations.PowerOnHasTheInvariant := by
  have hreference : Params.reference.wf := by decide
  refine ⟨fun p d hp hd => ⟨state_por_inv hp hd, rfl, fun r => readReg_por p d, fun u => by cases u <;> rfl, fun w => ?_,
    by simp [State.por, Decoder.por], fun _ => valid_slot_por, rfl, rfl, rfl, rfl, rfl, rfl, rfl⟩,
    ⟨_, _, hreference, zero_wf _, rfl⟩, state_por_inv hreference (zero_wf _)⟩
  exact ⟨rfl, bufferWord_nil _ w, maskWord_zero _ w, maskWord_zero _ w, maskWord_zero _ w⟩

end Sys2Proof.Proofs
end

section
/-!
PROOFS. What the host's writes do to a unit that is not busy (10_state.md R39, R40, R46, R47, R51; 20_memory.md R82, R83,
R85, R89).
-/

namespace Sys2Proof.Proofs

open Sys2Proof Sys2Proof.Machine

theorem hostWrite_loc {s : State} {a : Word} {l : Loc} (v : Word) (ha : locOf s.params a = l) :
    hostWrite s a v = writeLoc s v l := by
  rw [hostWrite, ha]

theorem ofWord_eq_stub_iff (v : Word) : DegMode.ofWord v = .stub ↔ v.getLsbD 0 = true := by
  unfold DegMode.ofWord
  split <;> simp_all

/-! ### The configuration and the input registers -/

theorem guardEncConfig_of_running {s effect : State} (hbusy : s.enc.latch.busy = false) (hphase : s.enc.phase = .running) :
    guardEncConfig s effect = s.raise .badState 0 := by
  simp only [guardEncConfig, hbusy, hphase, Bool.false_eq_true, if_false, if_true]

theorem guardEncConfig_of_ne_running {s effect : State} (hbusy : s.enc.latch.busy = false) (hphase : s.enc.phase ≠ .running) :
    guardEncConfig s effect = effect := by
  simp only [guardEncConfig, hbusy, hphase, Bool.false_eq_true, if_false]

theorem guardDecConfig_of_paramsSet {s effect : State} (hbusy : s.dec.latch.busy = false) (hset : s.dec.paramsSet = true) :
    guardDecConfig s effect = s.raise .badState 0 := by
  simp only [guardDecConfig, hbusy, hset, Bool.false_eq_true, if_false, if_true]

theorem guardDecConfig_of_fresh {s effect : State} (hbusy : s.dec.latch.busy = false) (hset : s.dec.paramsSet = false) :
    guardDecConfig s effect = effect := by
  simp only [guardDecConfig, hbusy, hset, Bool.false_eq_true, if_false]

theorem guardDecInput_of_idle {s effect : State} (hbusy : s.dec.latch.busy = false) : guardDecInput s effect = effect := by
  simp only [guardDecInput, hbusy, Bool.false_eq_true, if_false]

/-- Settles O40: each of these writes goes through the guard of the encoder's configuration. -/
theorem encoderConfigurationWrites : Obligations.EncoderConfigurationWrites := by
  intro s a v hbusy hcdf hdegTab
  refine ⟨fun hphase ha => ?_, fun ha => hostWrite_loc v ha, fun hphase => ?_⟩
  · have hrefuse {effect : State} : guardEncConfig s effect = s.raise .badState 0 := guardEncConfig_of_running hbusy hphase
    rcases ha with ha | ha | ⟨d, hd, ha⟩ | ⟨i, ha⟩
    · exact (hostWrite_loc v ha).trans hrefuse
    · exact (hostWrite_loc v ha).trans hrefuse
    · exact (hostWrite_loc v ha).trans ((if_neg hd).trans hrefuse)
    · exact (hostWrite_loc v ha).trans hrefuse
  · have haccept {effect : State} : guardEncConfig s effect = effect := guardEncConfig_of_ne_running hbusy hphase
    intro t
    refine ⟨fun ha => ?_, fun ha => (hostWrite_loc v ha).trans haccept, fun d hd ha => ?_, fun i ha => ?_⟩
    · have ht : t = { s with enc := { s.enc with degMode := DegMode.ofWord v } } := (hostWrite_loc v ha).trans haccept
      rw [ht]
      exact ⟨rfl, ofWord_eq_stub_iff v⟩
    · have ht : t = { s with enc := { s.enc with cdf := s.enc.cdf.write d v } } :=
        (hostWrite_loc v ha).trans ((if_neg hd).trans haccept)
      rw [ht]
      exact ⟨rfl, fun x => by simp only [Laws.read_write hcdf, eq_comm]⟩
    · have ht : t = { s with enc := { s.enc with degTab := s.enc.degTab.write i v } } :=
        (hostWrite_loc v ha).trans haccept
      rw [ht]
      exact ⟨rfl, fun x => by simp only [Laws.read_write hdegTab, eq_comm]⟩

/-- Settles O41: the configuration goes through the guard on the parameters, the input through the busy guard alone. -/
theorem decoderConfigurationWrites : Obligations.DecoderConfigurationWrites := by
  intro s a v hbusy hcdf hdegTab
  have hinput {effect : State} : guardDecInput s effect = effect := guardDecInput_of_idle hbusy
  refine ⟨fun hset ha => ?_, fun ha => hostWrite_loc v ha, fun ha => (hostWrite_loc v ha).trans hinput,
    fun ha => (hostWrite_loc v ha).trans hinput, fun ha => (hostWrite_loc v ha).trans hinput, fun hset => ?_⟩
  · have hrefuse {effect : State} : guardDecConfig s effect = s.raise .badState 0 := guardDecConfig_of_paramsSet hbusy hset
    rcases ha with ha | ha | ⟨d, hd, ha⟩ | ⟨i, ha⟩
    · exact (hostWrite_loc v ha).trans hrefuse
    · exact (hostWrite_loc v ha).trans hrefuse
    · exact (hostWrite_loc v ha).trans ((if_neg hd).trans hrefuse)
    · exact (hostWrite_loc v ha).trans hrefuse
  · have haccept {effect : State} : guardDecConfig s effect = effect := guardDecConfig_of_fresh hbusy hset
    intro t
    refine ⟨fun ha => ?_, fun ha => (hostWrite_loc v ha).trans haccept, fun d hd ha => ?_, fun i ha => ?_⟩
    · have ht : t = { s with dec := { s.dec with degMode := DegMode.ofWord v } } := (hostWrite_loc v ha).trans haccept
      rw [ht]
      exact ⟨rfl, ofWord_eq_stub_iff v⟩
    · have ht : t = { s with dec := { s.dec with cdf := s.dec.cdf.write d v } } :=
        (hostWrite_loc v ha).trans ((if_neg hd).trans haccept)
      rw [ht]
      exact ⟨rfl, fun x => by simp only [Laws.read_write hcdf, eq_comm]⟩
    · have ht : t = { s with dec := { s.dec with degTab := s.dec.degTab.write i v } } :=
        (hostWrite_loc v ha).trans haccept
      rw [ht]
      exact ⟨rfl, fun x => by simp only [Laws.read_write hdegTab, eq_comm]⟩

/-! ### A word of a byte buffer -/

/-- Writing the first `c` bytes of word `w`. -/
def writeBytes (n : Nat) (m : Memory 8) (w : Nat) (v : Word) (c : Nat) : Memory 8 :=
  (List.range c).foldl (fun m b => if 4 * w + b < n then m.write (4 * w + b) (wordByte v b) else m) m

theorem writeBytes_succ (n : Nat) (m : Memory 8) (w : Nat) (v : Word) (c : Nat) :
    writeBytes n m w v (c + 1) =
      if 4 * w + c < n then (writeBytes n m w v c).write (4 * w + c) (wordByte v c) else writeBytes n m w v c := by
  simp only [writeBytes, List.range_succ, List.foldl_append, List.foldl_cons, List.foldl_nil]

theorem writeBytes_wf {m : Memory 8} (hm : m.wf) (n w : Nat) (v : Word) : ∀ c, (writeBytes n m w v c).wf
  | 0 => hm
  | c + 1 => by
    rw [writeBytes_succ]
    split
    · exact Laws.write_wf (writeBytes_wf hm n w v c) _ _
    · exact writeBytes_wf hm n w v c

theorem read_writeBytes {m : Memory 8} (hm : m.wf) (n w : Nat) (v : Word) (o : Nat) : ∀ c,
    (writeBytes n m w v c).read o = if 4 * w ≤ o ∧ o < 4 * w + c ∧ o < n then wordByte v (o - 4 * w) else m.read o
  | 0 => by
    rw [if_neg (by omega)]
    rfl
  | c + 1 => by
    have ih := read_writeBytes hm n w v o c
    rcases eq_or_ne o (4 * w + c) with rfl | hne
    · rw [writeBytes_succ, Nat.add_sub_cancel_left]
      split
      · rw [Laws.read_write_same (writeBytes_wf hm n w v c), if_pos (by omega)]
      · rw [ih, if_neg (by omega), if_neg (by omega)]
    · have hiff : (4 * w ≤ o ∧ o < 4 * w + c ∧ o < n) ↔ (4 * w ≤ o ∧ o < 4 * w + (c + 1) ∧ o < n) := by omega
      rw [writeBytes_succ, ← if_congr hiff rfl rfl, ← ih]
      split
      · exact Laws.read_write_other (writeBytes_wf hm n w v c) hne.symm _
      · rfl

/-- A word write changes the word's bytes within the buffer, little-endian, and no other. -/
theorem read_writeBufferWord {m : Memory 8} (hm : m.wf) (n w : Nat) (v : Word) (o : Nat) :
    (writeBufferWord n m w v).read o =
      if 4 * w ≤ o ∧ o < 4 * w + 4 ∧ o < n then v.extractLsb' (8 * (o - 4 * w)) 8 else m.read o :=
  read_writeBytes hm n w v o 4

/-- Settles O42, along the checks of R83. -/
theorem sourceWindowWritesTheBuffer : Obligations.SourceWindowWritesTheBuffer := by
  intro s a v w ha hbusy
  have hwrite : hostWrite s a v = writeSrc s w v := hostWrite_loc v ha
  refine ⟨fun hphase => ?_, fun hphase hlen => ?_, fun hphase hlen hwf => ?_⟩
  · rw [hwrite, writeSrc, if_neg (by simp [hbusy]), if_pos hphase]
  · rw [hwrite, writeSrc, if_neg (by simp [hbusy]), if_neg (not_not.2 hphase), if_pos hlen]
  · intro t
    have ht : t = { s with enc := { s.enc with src := writeBufferWord s.enc.len.toNat s.enc.src w v } } := by
      rw [show t = _ from hwrite, writeSrc, if_neg (by simp [hbusy]), if_neg (not_not.2 hphase), if_neg (by omega)]
    rw [ht]
    exact ⟨rfl, read_writeBufferWord hwf _ w v⟩

end Sys2Proof.Proofs
end

section
/-!
PROOFS. What a host read returns (20_memory.md R92, R94, R98; 10_state.md R37 to R54).
-/

namespace Sys2Proof.Proofs

open Sys2Proof Sys2Proof.Machine

/-! ### A command that runs past its checks -/

theorem passesChecks_iff (s : State) (i : Instr) :
    passesChecks s i = true ↔ if i = .decIngest then headerAccepted s else commandError s i = none := by
  unfold passesChecks
  split
  · rw [Option.isNone_iff_eq_none, Laws.ingestCheck_eq_none_iff]
  · exact Option.isNone_iff_eq_none

theorem runsPast_iff {s : State} {u : UnitId} {i : Instr} :
    runsPast s u i ↔ executing s u = some i ∧ passesChecks s i = true := by
  rw [runsPast, passesChecks_iff]

theorem executing_of_idle {s : State} {u : UnitId} (h : (s.latchOf u).busy = false) : executing s u = none := by
  rw [executing, if_neg (by simp [h])]

theorem not_runsPast_of_idle {s : State} {u : UnitId} (h : executing s u = none) (i : Instr) : ¬ runsPast s u i :=
  fun hrun => nomatch h.symm.trans hrun.1

theorem effectIsIn_eq_false {s : State} {u : UnitId} {l : List Instr} (h : ∀ i ∈ l, ¬ runsPast s u i) :
    effectIsIn s u l = false := by
  unfold effectIsIn
  split
  next i hi =>
    refine Bool.eq_false_iff.2 fun hin => ?_
    obtain ⟨hmem, hpass⟩ := Bool.and_eq_true_iff.1 hin
    exact h i (List.contains_iff_mem.1 hmem) (runsPast_iff.2 ⟨hi, hpass⟩)
  next => rfl

/-- Neither a `DEC_INGEST` past its checks nor a `DEC_RESET` runs in the decoder. -/
def progressStays (s : State) : Prop := ∀ i ∈ [Instr.decReset, .decIngest], ¬ runsPast s .dec i

/-- Then the progress after the running command is that of now: a rejected droplet writes its outcome alone (R241). -/
theorem decPost_of_progressStays {s : State} (h : progressStays s) : decPost s = s.dec ∨ decPost s = s.dec.reject := by
  unfold decPost
  split
  next hexec =>
    have hnot : ingestCheck s ≠ none := fun hcheck =>
      h .decIngest (by decide) ⟨hexec, (Laws.ingestCheck_eq_none_iff s).1 hcheck⟩
    rcases Laws.ingest_cases s with ⟨e, _, heq⟩ | ⟨hcheck, _⟩ | ⟨e, hcheck, _⟩
    · exact .inr (by rw [heq]; rfl)
    · exact absurd hcheck hnot
    · exact absurd hcheck hnot
  next hexec => exact absurd ⟨hexec, rfl⟩ (h .decReset (by decide))
  next => exact .inl rfl

theorem progress_of_progressStays {s : State} (h : progressStays s) :
    (decPost s).known = s.dec.known ∧ (decPost s).resolved = s.dec.resolved ∧ (decPost s).complete = s.dec.complete := by
  rcases decPost_of_progressStays h with heq | heq <;> rw [heq] <;> exact ⟨rfl, rfl, rfl⟩

theorem between_self (n f : Nat) : between n n f = n := by simp [between, Nat.mod_one]

theorem betweenBits_self (v f : Word) : betweenBits v v f = v := by
  ext i hi
  simp [betweenBits]

/-! ### The locations a command names (R81, R92) -/

/-- The region a location stands in. -/
def locRegion : Loc → Nat
  | .reg _ => 0x00
  | .src _ => 0x01
  | .out _ => 0x02
  | .ecdf _ => 0x03
  | .edeg _ => 0x04
  | .emask _ => 0x05
  | .inBuf _ => 0x08
  | .dcdf _ => 0x09
  | .ddeg _ => 0x0A
  | .dmask _ => 0x0B
  | .known _ => 0x0C
  | .unmapped => 0xFF

theorem region_windowLoc {n w : Nat} {l : Nat → Loc} {r : Nat} (hl : ∀ w, locRegion (l w) = r)
    (h : windowLoc n l w ≠ .unmapped) : locRegion (windowLoc n l w) = r := by
  unfold windowLoc at h ⊢
  split at h
  next hw => rw [if_pos hw, hl]
  next => exact absurd rfl h

theorem region_registerLoc {w : Nat} (h : registerLoc w ≠ .unmapped) : locRegion (registerLoc w) = 0 := by
  unfold registerLoc at h ⊢
  split
  next => rfl
  next hnone => exact absurd (by rw [hnone]) h

/-- A location other than `unmapped` is named by addresses of its own region only. -/
theorem region_locOf {p : Params} {a : Word} (h : locOf p a ≠ .unmapped) : locRegion (locOf p a) = regionOf a := by
  unfold locOf at h ⊢
  generalize regionOf a = r at h ⊢
  split at h
  case h_1 => exact region_registerLoc h
  case h_12 => exact absurd rfl h
  all_goals exact region_windowLoc (fun _ => rfl) h

theorem reg_of_isReg {rs : List Reg} {l : Loc} (h : l.isReg rs = true) : ∃ r ∈ rs, l = .reg r := by
  cases l with
  | reg r => exact ⟨r, List.contains_iff_mem.1 h, rfl⟩
  | _ => cases h

/-- The locations R92 item 6 counts as written are of the registers and windows the command's rule names. -/
theorem named_of_effectWrites {s : State} {i : Instr} {l : Loc} (h : effectWrites s i l = true) :
    (∃ r ∈ outputRegs s i, l = .reg r) ∨ (l ≠ .unmapped ∧ locRegion l ∈ outputRegions i) := by
  cases l with
  | reg r =>
    refine .inl ⟨r, ?_, rfl⟩
    cases i <;> simp_all [effectWrites, Loc.isReg, Loc.isSrc, Loc.isOut, Loc.isEmask, Loc.isDmask, outputRegs]
    all_goals tauto
  | src w | out w | emask w | dmask w =>
    refine .inr ⟨nofun, ?_⟩
    cases i <;> simp_all [effectWrites, Loc.isReg, Loc.isSrc, Loc.isOut, Loc.isEmask, Loc.isDmask, outputRegions, locRegion]
  | ecdf | edeg | inBuf | dcdf | ddeg | known | unmapped =>
    exfalso
    cases i <;> simp_all [effectWrites, Loc.isReg, Loc.isSrc, Loc.isOut, Loc.isEmask, Loc.isDmask]

theorem writtenBy_of_leavesAlone {s : State} {u : UnitId} {a : Word} (h : leavesAlone s u a) :
    writtenBy s u (locOf s.params a) = false := by
  obtain ⟨hnamed, houtcome⟩ := h
  unfold writtenBy
  split
  next i hexec =>
    split
    next hpass =>
      obtain ⟨hregs, hregion⟩ := hnamed i (runsPast_iff.2 ⟨hexec, hpass⟩)
      refine Bool.eq_false_iff.2 fun hwrites => ?_
      rcases named_of_effectWrites hwrites with ⟨r, hr, hloc⟩ | ⟨hmapped, hmem⟩
      · exact hregs r hr hloc
      · exact hregion (region_locOf hmapped ▸ hmem)
    next =>
      refine Bool.eq_false_iff.2 fun hwrites => ?_
      obtain ⟨hi, hreg⟩ := Bool.and_eq_true_iff.1 hwrites
      obtain ⟨r, hr, hloc⟩ := reg_of_isReg hreg
      obtain ⟨hne, hne'⟩ := houtcome (beq_iff_eq.1 hi ▸ hexec)
      rcases List.mem_pair.1 hr with rfl | rfl
      · exact hne hloc
      · exact hne' hloc
  next => rfl

/-- Where `leavesAlone` forbids a write of the progress, the progress stays. -/
theorem progressStays_of_leavesAlone {s : State} {a : Word} (h : leavesAlone s .dec a)
    (hl : locOf s.params a = .reg .decResolved ∨ locOf s.params a = .reg .decPendCount ∨ ∃ w, locOf s.params a = .known w) :
    progressStays s := by
  have hreset : ∀ r ∈ [Reg.decResolved, .decPendCount], ∀ i ∈ [Instr.decReset, .decIngest], r ∈ outputRegs s i := by
    simp [outputRegs]
  have hregions : ∀ i ∈ [Instr.decReset, .decIngest], 0x0C ∈ outputRegions i := by decide
  intro i hi hrun
  obtain ⟨hregs, hregion⟩ := h.1 i hrun
  rcases hl with hl | hl | ⟨w, hl⟩
  · exact hregs _ (hreset _ (by decide) i hi) hl
  · exact hregs _ (hreset _ (by decide) i hi) hl
  · have hmapped : locOf s.params a ≠ .unmapped := by rw [hl]; nofun
    have hknown : regionOf a = 0x0C := by rw [← region_locOf hmapped, hl]; rfl
    exact hregion (hknown ▸ hregions i hi)

/-! ### The value a read returns (R92, R94) -/

/-- A location that no running command writes, with its progress staying if it is a progress location, reads what it
holds. -/
theorem readValue_of_notWritten {s : State} {l : Loc} (f : Word) (hstatus : l ≠ .reg .status) (herr : l ≠ .reg .err)
    (hlast : l ≠ .reg .lastErr) (hwritten : isWritten s l = false)
    (hstays : l = .reg .decResolved ∨ l = .reg .decPendCount ∨ (∃ w, l = .known w) → progressStays s) :
    readValue s f l = readLoc s l := by
  unfold readValue
  split
  next => exact absurd rfl hstatus
  next => exact absurd rfl herr
  next => exact absurd rfl hlast
  next =>
    rw [(progress_of_progressStays (hstays (.inl rfl))).2.1, between_self, BitVec.ofNat_toNat]
    exact BitVec.setWidth_eq _
  next =>
    rw [effectIsIn_eq_false (hstays (.inr (.inl rfl)))]
    rfl
  next w =>
    rw [(progress_of_progressStays (hstays (.inr (.inr ⟨w, rfl⟩)))).1, betweenBits_self]
    rfl
  next =>
    rw [hwritten]
    rfl

theorem readValue_of_leavesAlone {s : State} {a : Word} (f : Word) (hstatus : locOf s.params a ≠ .reg .status)
    (herr : locOf s.params a ≠ .reg .err) (hlast : locOf s.params a ≠ .reg .lastErr) (henc : leavesAlone s .enc a)
    (hdec : leavesAlone s .dec a) : readValue s f (locOf s.params a) = readLoc s (locOf s.params a) := by
  refine readValue_of_notWritten f hstatus herr hlast ?_ (progressStays_of_leavesAlone hdec)
  rw [isWritten, writtenBy_of_leavesAlone henc, writtenBy_of_leavesAlone hdec]
  rfl

/-- No running command will raise an error. -/
def raisesNothing (s : State) : Prop := ∀ u i, executing s u = some i → commandError s i = none

theorem pendingError_of_raisesNothing {s : State} (h : raisesNothing s) (u : UnitId) : pendingError s u = none :=
  Option.bind_eq_none_iff.2 (h u)

theorem busyLastErr_of_raisesNothing {s : State} (h : raisesNothing s) (f : Word) :
    busyLastErr s f = lastErrWord s.lastErr := by
  simp [busyLastErr, pendingError_of_raisesNothing h]

/-- The bit of an error that no running command will raise is current (log 15). -/
theorem getLsbD_busyErr {s : State} (f : Word) {n : Nat}
    (h : ∀ u i e, executing s u = some i → commandError s i = some e → e.code ≠ n) :
    (busyErr s f).getLsbD n = s.err.getLsbD n := by
  have hbit (u : UnitId) : (errorBit (pendingError s u)).getLsbD n = false := by
    cases hpending : pendingError s u with
    | none => exact BitVec.getLsbD_zero
    | some e =>
      obtain ⟨i, hexec, herror⟩ := Option.bind_eq_some_iff.1 hpending
      exact (getLsbD_errBit e n).trans (decide_eq_false (h u i e hexec herror).symm)
  rcases Nat.lt_or_ge n 32 with hn | hn
  · simp only [busyErr, BitVec.getLsbD_or, BitVec.getLsbD_and, BitVec.getLsbD_not, hbit, hn, decide_true, Bool.or_false,
      Bool.not_false, Bool.and_true, Bool.and_false]
  · rw [BitVec.getLsbD_of_ge _ _ hn, BitVec.getLsbD_of_ge _ _ hn]

theorem busyErr_of_raisesNothing {s : State} (h : raisesNothing s) (f : Word) : busyErr s f = s.err :=
  BitVec.eq_of_getLsbD_eq fun _ _ => getLsbD_busyErr f fun u i _ hexec herror => nomatch (h u i hexec).symm.trans herror

/-- With both units idle every read returns what its location holds, whatever the free value (R94). -/
theorem readValue_of_idle {s : State} (henc : s.enc.latch.busy = false) (hdec : s.dec.latch.busy = false) (f : Word) (l : Loc) :
    readValue s f l = readLoc s l := by
  have hidle : ∀ u, executing s u = none
    | .enc => executing_of_idle henc
    | .dec => executing_of_idle hdec
  have hstays : progressStays s := fun i _ => not_runsPast_of_idle (hidle .dec) i
  have hnothing : raisesNothing s := fun u i hexec => nomatch (hidle u).symm.trans hexec
  have heffect (u : UnitId) (is : List Instr) : effectIsIn s u is = false :=
    effectIsIn_eq_false fun i _ => not_runsPast_of_idle (hidle u) i
  by_cases hstatus : l = .reg .status
  · have hfields : busyStatus s f = s.status := by
      simp [busyStatus, State.status, heffect, (progress_of_progressStays hstays).2.2, busyErr_of_raisesNothing hnothing]
    rw [hstatus, readValue, hfields]
    rfl
  by_cases herr : l = .reg .err
  · rw [herr]
    exact busyErr_of_raisesNothing hnothing f
  by_cases hlast : l = .reg .lastErr
  · rw [hlast]
    exact busyLastErr_of_raisesNothing hnothing f
  · refine readValue_of_notWritten f hstatus herr hlast ?_ fun _ => hstays
    simp [isWritten, writtenBy, hidle]

end Sys2Proof.Proofs
end

section
/-!
PROOFS. The statements on the host's reads (20_memory.md R82, R89, R92, R94, R98).
-/

namespace Sys2Proof.Proofs

open Sys2Proof Sys2Proof.Machine

/-! ### `W_IN` -/

/-- Settles O43: the write goes through the busy guard, and with both units idle a read returns the window's word. -/
theorem inputWindowWritesThePayload : Obligations.InputWindowWritesThePayload := by
  intro s a v w ha hbusy hwf t
  have ht : t = { s with dec := { s.dec with inBuf := writeBufferWord s.params.chunkSize s.dec.inBuf w v } } :=
    (hostWrite_loc v ha).trans (guardDecInput_of_idle hbusy)
  have hbytes : ∀ o, t.dec.inBuf.read o =
      if 4 * w ≤ o ∧ o < 4 * w + 4 ∧ o < s.params.chunkSize then v.extractLsb' (8 * (o - 4 * w)) 8
      else s.dec.inBuf.read o := by
    rw [ht]
    exact read_writeBufferWord hwf _ w v
  refine ⟨by rw [ht], hbytes, fun henc b hb => ?_⟩
  have hread : (hostRead t a).rdata = bufferWord s.params.chunkSize t.dec.inBuf w := by
    have hta : locOf t.params a = .inBuf w := by rw [ht]; exact ha
    rw [hostRead, readValue_of_idle (by rw [ht]; exact henc) (by rw [ht]; exact hbusy), hta, readLoc, ht]
  rw [hread, extractLsb'_bufferWord _ _ _ hb, hbytes, Nat.add_sub_cancel_left]
  by_cases hin : 4 * w + b < s.params.chunkSize
  · rw [if_pos hin, if_pos hin, if_pos (by omega)]
  · rw [if_neg hin, if_neg hin]

/-! ### What a location holds -/

theorem decOutcome_fields (o : IngestOutcome) :
    o.word.extractLsb' 4 12 = 0 ∧
      (o.word.extractLsb' 0 4, o.word.extractLsb' 16 16) =
        (match o with
          | .none => ((0 : BitVec 4), (0 : BitVec 16))
          | .resolved => (1, 0)
          | .pending e => (2, e)
          | .replaced e => (3, e)
          | .discarded => (4, 0)
          | .rejected => (5, 0)
          | .dropped => (6, 0)) := by
  cases o
  case pending e | replaced e =>
    exact ⟨BitVec.extractLsb'_append_eq_of_add_le (by decide), Prod.ext (BitVec.extractLsb'_append_eq_of_add_le (by decide))
      (BitVec.extractLsb'_append_eq_left)⟩
  all_goals decide

theorem lastErrWord_some (e : ErrRecord) :
    lastErrWord (some e) = (e.src.setWidth 32 <<< 8) + BitVec.ofNat 32 e.code.code := by
  have hsrc := e.src.isLt
  have hzero : (0 : BitVec 16).toNat = 0 := rfl
  have hcode : e.code.code < 256 := by cases e.code <;> decide
  apply BitVec.eq_of_toNat_eq
  rw [lastErrWord, BitVec.toNat_append, BitVec.toNat_append, BitVec.toNat_add, BitVec.toNat_shiftLeft, BitVec.toNat_setWidth,
    ← Nat.shiftLeft_add_eq_or_of_lt (BitVec.isLt _), ← Nat.shiftLeft_add_eq_or_of_lt hsrc]
  simp only [BitVec.toNat_ofNat, hzero, Nat.shiftLeft_eq]
  omega

theorem degMode_word (m : DegMode) : m.word = if m = .stub then 1 else 0 := by cases m <;> rfl

/-! ### `STATUS` while commands run -/

/-- A bit of `STATUS` as read while commands run. -/
theorem getLsbD_readStatus {s : State} {a : Word} (ha : locOf s.params a = .reg .status) (n : Nat) :
    (hostRead s a).rdata.getLsbD n = statusBit (busyStatus s (Config.freeWord s.draws)) n := by
  rw [hostRead, ha]
  exact getLsbD_statusWord _ n

/-- Settles O37: what a read returns while commands run, then what each location holds. -/
theorem idleReadsReturnTheCurrentValue : Obligations.IdleReadsReturnTheCurrentValue := by
  intro s a l v
  have hread : v = readValue s (Config.freeWord s.draws) l := rfl
  refine ⟨rfl, fun henc hdec => readValue_of_idle henc hdec _ _,
    fun hstatus herr hlast henc hdec => readValue_of_leavesAlone _ hstatus herr hlast henc hdec,
    fun hl n _ hnot => ?_, fun hl hnothing => ?_, fun hl => ?_,
    fun w => ⟨fun hphase => if_pos hphase, fun b hb => ⟨fun hphase => ?_,
      extractLsb'_bufferWord _ _ w hb, extractLsb'_bufferWord _ _ w hb⟩⟩,
    fun w b hb => ⟨getLsbD_maskWord _ _ w hb, getLsbD_maskWord _ _ w hb, getLsbD_maskWord _ _ w hb⟩,
    fun d => ⟨rfl, rfl, rfl, rfl⟩, decOutcome_fields _, ?_, fun hnone => ?_, fun e hsome => ?_⟩
  · rw [hread, hl]
    exact getLsbD_busyErr _ hnot
  · rw [hread, hl]
    exact busyLastErr_of_raisesNothing hnothing _
  · intro current
    have hcurrent {n : Nat} (h : statusBit (busyStatus s (Config.freeWord s.draws)) n = statusBit s.status n) : current n :=
      (getLsbD_readStatus hl n).trans (h.trans (getLsbD_statusWord s.status n).symm)
    refine ⟨⟨hcurrent rfl, hcurrent rfl⟩, fun h => ?_, fun h => ?_, fun hreset hingest => ?_, fun h => ?_, fun h => ?_,
      fun h => ?_⟩
    · have hphase : (busyStatus s (Config.freeWord s.draws)).phase = s.enc.phase := if_neg (by simp [effectIsIn_eq_false h])
      exact ⟨hcurrent (decide_eq_decide.2 (hphase ▸ Iff.rfl)), hcurrent (decide_eq_decide.2 (hphase ▸ Iff.rfl))⟩
    · exact hcurrent (if_neg (by simp [effectIsIn_eq_false h]))
    · refine hcurrent (if_neg ?_)
      rw [effectIsIn_eq_false (List.forall_mem_singleton.2 hreset)]
      by_cases hrun : runsPast s .dec .decIngest
      · simp [hingest hrun]
      · simp [effectIsIn_eq_false (List.forall_mem_singleton.2 hrun)]
    · refine hcurrent ?_
      simp [statusBit, busyStatus, (progress_of_progressStays h).2.2, State.status]
    · exact hcurrent (if_neg (by simp [effectIsIn_eq_false h]))
    · refine hcurrent ?_
      simp only [statusBit, busyStatus, busyErr_of_raisesNothing h, State.status]
  · rw [readLoc, if_neg hphase]
    exact extractLsb'_bufferWord _ _ w hb
  · simp only [List.forall_mem_cons]
    exact ⟨rfl, degMode_word _, rfl, rfl, rfl, rfl, rfl, rfl, rfl, rfl, rfl, rfl, degMode_word _, rfl, rfl, rfl, rfl, rfl, rfl,
      rfl, rfl, rfl, rfl, nofun⟩
  · rw [readLoc, readReg, hnone]
    rfl
  · rw [readLoc, readReg, hsome]
    exact lastErrWord_some e

/-! ### Progress while a `DEC_INGEST` runs (R92 items 1 to 5) -/

/-- After the running `DEC_INGEST` the decoder is that of its completion step but for the busy flag. -/
theorem dec_of_completion {s t : State} (hexec : executing s .dec = some .decIngest) (ht : exec .decIngest s = .next t) :
    t.dec = { decPost s with latch := (decPost s).latch.idle } := by
  obtain rfl := Host.Outcome.next.inj ht
  rw [decPost, hexec]
  rfl

theorem between_mem {pre post : Nat} (h : pre ≤ post) (f : Nat) : pre ≤ between pre post f ∧ between pre post f ≤ post := by
  have hmod : f % (post - pre + 1) < post - pre + 1 := Nat.mod_lt f (Nat.succ_pos _)
  rw [between, min_eq_left h, max_eq_right h]
  omega

theorem getLsbD_betweenBits (pre post f : Word) (n : Nat) :
    (betweenBits pre post f).getLsbD n =
      ((pre.getLsbD n && post.getLsbD n) || (f.getLsbD n && (pre.getLsbD n || post.getLsbD n))) := by
  simp only [betweenBits, BitVec.getLsbD_or, BitVec.getLsbD_and]

/-- A resolved chunk's index is an index of the build. -/
theorem lt_of_known {p : Params} {d : Decoder} (h : d.Inv p) {i : Nat} (hi : d.known.testBit i = true) : i < p.kMax := by
  obtain ⟨_, hfresh, hlegal, ⟨hknown, _⟩, _⟩ := h
  have hset : d.paramsSet = true := by
    by_contra hset
    rw [(hfresh (Bool.eq_false_iff.2 hset)).1, Nat.zero_testBit] at hi
    cases hi
  have hk : i < d.k.toNat := by
    by_contra hk
    rw [Nat.testBit_eq_false_of_lt (hknown.trans_le (Nat.pow_le_pow_right (by norm_num) (not_lt.1 hk)))] at hi
    cases hi
  exact hk.trans_le (hlegal hset).2.1

theorem pendCount_le {p : Params} {d : Decoder} (h : d.Inv p) : d.pendCount.toNat ≤ p.nPend := by
  obtain ⟨_, _, _, _, _, ⟨hlength, hcount⟩, _⟩ := h
  rw [hcount, ← hlength]
  exact List.countP_le_length

/-- Settles O38: the values before and after bound a read, and an accepted droplet only adds to the transfer. -/
theorem progressReadsStayInBounds : Obligations.ProgressReadsStayInBounds := by
  intro s t a h hbusy hdecode ht v
  have hexec : executing s .dec = some .decIngest := (if_pos hbusy).trans hdecode
  have hpost := dec_of_completion hexec ht
  obtain ⟨hknown, hresolved, _⟩ := exec_remembers h (by decide) ht
  have hdec : s.dec.Inv s.params := h.2.2.2
  have hread {l : Loc} (hl : locOf s.params a = l) : v = readValue s (Config.freeWord s.draws) l := by rw [← hl]; rfl
  refine ⟨fun hl => ⟨(getLsbD_readStatus hl 1).trans hbusy, ?_⟩, fun hl => ?_, fun hl => ?_, fun w hl b hb => ?_⟩
  · rw [getLsbD_readStatus hl 5, hpost]
    simp only [statusBit, busyStatus]
    split
    · exact .inr rfl
    · exact .inl rfl
  · have hpostResolved : (decPost s).resolved = t.dec.resolved := by rw [hpost]
    obtain ⟨hlow, hhigh⟩ := between_mem hresolved (Config.freeWord s.draws).toNat
    rw [hread hl, readValue, hpostResolved, toNat_ofNat_of_le hhigh (BitVec.isLt _)]
    exact ⟨hlow, hhigh⟩
  · rw [hread hl, readValue]
    split
    · rw [BitVec.toNat_ofNat]
      exact (Nat.mod_le _ _).trans (Nat.le_of_lt_succ (Nat.mod_lt _ (Nat.succ_pos _)))
    · exact pendCount_le hdec
  · have hpostKnown : (decPost s).known = t.dec.known := by rw [hpost]
    have hbit := getLsbD_betweenBits (maskWord s.params.kMax s.dec.known w) (maskWord s.params.kMax t.dec.known w)
      (Config.freeWord s.draws) b
    rw [getLsbD_maskWord _ _ w hb, getLsbD_maskWord _ _ w hb] at hbit
    rw [hread hl, readValue, hpostKnown, hbit]
    have hmono : s.dec.known.testBit (32 * w + b) = true → t.dec.known.testBit (32 * w + b) = true := fun hi => (hknown _ hi).1
    refine ⟨fun hi => ?_, fun hv => ?_⟩
    · simp [hi, hmono hi, lt_of_known hdec hi]
    · by_contra hpostBit
      have hpreBit : ¬ s.dec.known.testBit (32 * w + b) = true := fun hi => hpostBit (hmono hi)
      simp [Bool.eq_false_iff.2 hpreBit, Bool.eq_false_iff.2 hpostBit] at hv

end Sys2Proof.Proofs
end
